-- ==== Sys2Proof/Word.lean ====
section
/-! DEFINITION. The bytes, words and byte sequences of 00_scope.md rule R9. -/

namespace Sys2Proof

/-- A byte: 8 bits, bit 0 the least significant (00_scope.md R9). -/
abbrev Byte := BitVec 8

/-- A word of the host bus and of the register block: 32 bits (10_state.md R16, 20_memory.md R80). -/
abbrev Word := BitVec 32

/-- A byte sequence, its first byte first (00_scope.md R9). -/
abbrev Bytes := List Byte

end Sys2Proof
end

