-- ==== Sys2Proof/Config.lean ====
section
/-! DEFINITION. The implementation parameters of 00_scope.md rule R7 and the free values, which no rule
of the spec fixes. -/

namespace Sys2Proof

/-- MB_PAD_MODE, the MacBinary data-fork padding rule (00_scope.md R7, 30_encoding.md R151). -/
inductive PadMode where
  | align        -- P = (128 - (D mod 128)) mod 128
  | literalMod   -- P = D mod 128
  deriving DecidableEq, Repr

/-- The parameters a model takes (00_scope.md R7). They are fixed for one machine: State carries them in a
field that no step changes, so a statement about every state is a statement about every parameter value
(log entry 1). -/
structure Params where
  /-- IN_MEM_SIZE: bytes in the input memory. -/
  inMemSize : Nat
  /-- OUT_MEM_SIZE: bytes in the output memory. -/
  outMemSize : Nat
  /-- XS_SIZE: bytes in the internal expanded-stream buffer. -/
  xsSize : Nat
  /-- ALPHABET: the 64 characters of the six-bit alphabet, in value order (30_encoding.md R127). -/
  alphabet : Bytes
  /-- WHITESPACE: the bytes the six-bit stage skips. -/
  whitespace : Bytes
  /-- BH_NAME_CHECK: whether the BinHex parser checks that fileNameLength is in [1,63]. -/
  bhNameCheck : Bool
  /-- MB_PAD_MODE. -/
  mbPadMode : PadMode
  /-- MB_FLAGS_HI_OFF: offset of the MacBinary finderFlags high byte. -/
  mbFlagsHiOff : Nat
  deriving DecidableEq, Repr

/-- The default ALPHABET, the standard BinHex 4.0 table that 30_encoding.md R127 lists (the spec marks it
"from general knowledge, not in source"; log entry 2). -/
def Params.defaultAlphabet : Bytes :=
  [0x21, 0x22, 0x23, 0x24, 0x25, 0x26, 0x27, 0x28, 0x29, 0x2A, 0x2B, 0x2C, 0x2D, 0x30, 0x31, 0x32,
   0x33, 0x34, 0x35, 0x36, 0x38, 0x39, 0x40, 0x41, 0x42, 0x43, 0x44, 0x45, 0x46, 0x47, 0x48, 0x49,
   0x4A, 0x4B, 0x4C, 0x4D, 0x4E, 0x50, 0x51, 0x52, 0x53, 0x54, 0x55, 0x56, 0x58, 0x59, 0x5A, 0x5B,
   0x60, 0x61, 0x62, 0x63, 0x64, 0x65, 0x66, 0x68, 0x69, 0x6A, 0x6B, 0x6C, 0x6D, 0x70, 0x71, 0x72]

/-- The defaults that 00_scope.md R7 recommends. -/
def Params.default : Params where
  inMemSize := 0x400000
  outMemSize := 0x400000
  xsSize := 0x400000
  alphabet := Params.defaultAlphabet
  whitespace := [0x09, 0x0A, 0x0B, 0x0C, 0x0D, 0x20]
  bhNameCheck := true
  mbPadMode := .align
  mbFlagsHiOff := 0x4A

/-- FREE VALUE (93_implementation_defined.md U5, log entry 8): byte k of IN_MEM while nothing has written it
since the reset that began the given epoch. One value for each epoch and offset, kept until the byte is
written; nothing constrains it. -/
opaque Config.unspecInByte (epoch k : Nat) : Byte

/-- FREE VALUE (U1, U2, U4, U5, log entry 9): byte k of OUT_MEM where the spec leaves it unspecified, one
value for each event (the epoch) that leaves it so and each offset. -/
opaque Config.unspecOutByte (epoch k : Nat) : Byte

/-- FREE VALUE (U3, log entry 10): what a host read of OUT_MEM byte k returns while the engine is BUSY, a
fresh draw for every read. -/
opaque Config.busyOutByte (draw k : Nat) : Byte

end Sys2Proof
end

