-- ==== Sys2Proof/Syntax.lean ====
section
/-! DEFINITION. The 19 operations of spec/opcode_table.json and the host's bus transactions. -/

namespace Sys2Proof

/-- The "format" column of spec/opcode_table.json: the place where an operation's bits stand. -/
inductive Format where
  /-- CMD.OP: the 4-bit command code, bits 3:0 (30_encoding.md R110, R111). -/
  | cmdOp
  /-- A 32-bit host write of CTRL (10_state.md R19). -/
  | ctrlWrite
  /-- A 32-bit host write of STATUS (10_state.md R21). -/
  | statusWrite
  deriving DecidableEq, Repr

/-- The operations of spec/opcode_table.json, one constructor for each row. A command has no operand field
(30_encoding.md R113); the operands of the two register writes are their one-bit fields. -/
inductive Instr where
  | sixbit        -- OP 0x1, 43_sixbit.md R201
  | rle           -- OP 0x2, 42_rle.md R193
  | binhex        -- OP 0x3, 44_binhex.md R215
  | macbin        -- OP 0x4, 45_macbinary.md R224
  | dsk           -- OP 0x5, 46_diskcopy.md R237
  | binhexDsk     -- OP 0x6, 47_pipelines.md R240
  | macbinDsk     -- OP 0x7, 47_pipelines.md R241
  | reservedOp0   -- OP 0x0, reserved (30_encoding.md R112)
  | reservedOp8   -- OP 0x8, reserved
  | reservedOp9   -- OP 0x9, reserved
  | reservedOpA   -- OP 0xA, reserved
  | reservedOpB   -- OP 0xB, reserved
  | reservedOpC   -- OP 0xC, reserved
  | reservedOpD   -- OP 0xD, reserved
  | reservedOpE   -- OP 0xE, reserved
  | reservedOpF   -- OP 0xF, reserved
  /-- CTRL write with START = 1 and SRST = 0; `ie` is bit 1 (40_command_cycle.md R160). -/
  | ctrlStart (ie : Bool)
  /-- CTRL write with SRST = 1; `start` is bit 0 and `ie` bit 1, both ignored (10_state.md R19). -/
  | ctrlSrst (start ie : Bool)
  /-- STATUS write; the operands are bits 1, 3 and 4 (10_state.md R21). -/
  | statusW1C (done accErr wrBusy : Bool)
  deriving DecidableEq, Repr

/-- One host bus transaction, as the host-program notation writes it (30_encoding.md R157). -/
inductive HostAccess where
  | r8 (addr : Word)
  | r32 (addr : Word)
  | w8 (addr : Word) (v : Byte)
  | w32 (addr : Word) (v : Word)
  deriving DecidableEq, Repr

end Sys2Proof
end

