-- ==== Sys2Proof/WellFormed.lean ====
section
/-! DEFINITION. Which terms are well formed: the constraints of 00_scope.md rule R7 on the parameters, one
named check each, and the instructions. -/

namespace Sys2Proof

/-- 1 <= IN_MEM_SIZE <= 0x0100_0000 (00_scope.md R7). -/
abbrev Params.InSizeOk (p : Params) : Prop := 1 ≤ p.inMemSize ∧ p.inMemSize ≤ 0x1000000

/-- 1 <= XS_SIZE <= OUT_MEM_SIZE (00_scope.md R7). -/
abbrev Params.XsSizeOk (p : Params) : Prop := 1 ≤ p.xsSize ∧ p.xsSize ≤ p.outMemSize

/-- OUT_MEM_SIZE >= max(IN_MEM_SIZE, XS_SIZE, 6*ceil(IN_MEM_SIZE/8), 1474560) and <= 0x0100_0000
(00_scope.md R7). -/
abbrev Params.OutSizeOk (p : Params) : Prop :=
  p.inMemSize ≤ p.outMemSize ∧ p.xsSize ≤ p.outMemSize ∧ 6 * ((p.inMemSize + 7) / 8) ≤ p.outMemSize ∧
    1474560 ≤ p.outMemSize ∧ p.outMemSize ≤ 0x1000000

/-- 64 distinct bytes, none in WHITESPACE, none equal to 0x3A (00_scope.md R7). -/
abbrev Params.AlphabetOk (p : Params) : Prop :=
  p.alphabet.length = 64 ∧ p.alphabet.Nodup ∧ (∀ b ∈ p.alphabet, b ∉ p.whitespace) ∧
    (0x3A : Byte) ∉ p.alphabet

/-- MB_FLAGS_HI_OFF is an offset in [0x00, 0x7F] (00_scope.md R7). -/
abbrev Params.FlagsOffOk (p : Params) : Prop := p.mbFlagsHiOff ≤ 0x7F

/-- The parameters meet every constraint of 00_scope.md R7. -/
abbrev Params.Legal (p : Params) : Prop :=
  p.InSizeOk ∧ p.XsSizeOk ∧ p.OutSizeOk ∧ p.AlphabetOk ∧ p.FlagsOffOk

/-- Every term of Instr is well formed: a command has no operand and every other operand is one bit, so no
operand can be out of range (30_encoding.md R111, R113, R114). -/
def Instr.wellFormed : Instr → Bool
  | .sixbit => true
  | .rle => true
  | .binhex => true
  | .macbin => true
  | .dsk => true
  | .binhexDsk => true
  | .macbinDsk => true
  | .reservedOp0 => true
  | .reservedOp8 => true
  | .reservedOp9 => true
  | .reservedOpA => true
  | .reservedOpB => true
  | .reservedOpC => true
  | .reservedOpD => true
  | .reservedOpE => true
  | .reservedOpF => true
  | .ctrlStart _ => true
  | .ctrlSrst _ _ => true
  | .statusW1C _ _ _ => true

end Sys2Proof
end

