-- ==== Sys2Proof/Decode.lean ====
section
/-! DEFINITION. The decoder of the three formats of spec/opcode_table.json, total, rejecting by name; after
it the encoder. -/

namespace Sys2Proof

/-- Why a word is no operation of the table. -/
inductive DecodeReject where
  /-- A CTRL write with START = 0 and SRST = 0: it writes IE (10_state.md R19) and is no row of the table;
  step runs it as an ordinary host access (log entry 22). -/
  | plainCtrlWrite
  deriving DecidableEq, Repr

/-- The commands in the order of their OP (30_encoding.md R110). -/
def opTable : Vector Instr 16 :=
  #v[.reservedOp0, .sixbit, .rle, .binhex, .macbin, .dsk, .binhexDsk, .macbinDsk,
     .reservedOp8, .reservedOp9, .reservedOpA, .reservedOpB,
     .reservedOpC, .reservedOpD, .reservedOpE, .reservedOpF]

/-- The command that a 4-bit OP selects; OP alone selects it (30_encoding.md R110, R111). -/
def decodeOp (op : BitVec 4) : Instr := opTable[op.toNat]'op.isLt

/-- The operation that a CTRL write requests (30_encoding.md R114): SRST (bit 2) first, then START (bit 0);
IE is bit 1; bits 31:3 have no effect. -/
def decodeCtrl (w : Word) : Except DecodeReject Instr :=
  if w.getLsbD 2 then .ok (.ctrlSrst (w.getLsbD 0) (w.getLsbD 1))
  else if w.getLsbD 0 then .ok (.ctrlStart (w.getLsbD 1))
  else .error .plainCtrlWrite

/-- The operation that a STATUS write requests (10_state.md R21): DONE is bit 1, ACC_ERR bit 3, WR_BUSY
bit 4; the other bits have no effect. -/
def decodeStatus (w : Word) : Instr :=
  .statusW1C (w.getLsbD 1) (w.getLsbD 3) (w.getLsbD 4)

/-- The decoder: the operation that word w is in the given format. In CMD the OP is bits 3:0
(10_state.md R20). -/
def decode (f : Format) (w : Word) : Except DecodeReject Instr :=
  match f with
  | .cmdOp => .ok (decodeOp (w.extractLsb' 0 4))
  | .ctrlWrite => decodeCtrl w
  | .statusWrite => .ok (decodeStatus w)

/-- One bit of a word, at position k. -/
def bitAt (k : Nat) (b : Bool) : Word := if b then BitVec.ofNat 32 (2 ^ k) else 0

/-- The encoder: an operation's format and word, its reserved bits 0 (30_encoding.md R110, R114,
10_state.md R19, R21). -/
def encode : Instr → Format × Word
  | .reservedOp0 => (.cmdOp, 0x0)
  | .sixbit => (.cmdOp, 0x1)
  | .rle => (.cmdOp, 0x2)
  | .binhex => (.cmdOp, 0x3)
  | .macbin => (.cmdOp, 0x4)
  | .dsk => (.cmdOp, 0x5)
  | .binhexDsk => (.cmdOp, 0x6)
  | .macbinDsk => (.cmdOp, 0x7)
  | .reservedOp8 => (.cmdOp, 0x8)
  | .reservedOp9 => (.cmdOp, 0x9)
  | .reservedOpA => (.cmdOp, 0xA)
  | .reservedOpB => (.cmdOp, 0xB)
  | .reservedOpC => (.cmdOp, 0xC)
  | .reservedOpD => (.cmdOp, 0xD)
  | .reservedOpE => (.cmdOp, 0xE)
  | .reservedOpF => (.cmdOp, 0xF)
  | .ctrlStart ie => (.ctrlWrite, bitAt 0 true ||| bitAt 1 ie)
  | .ctrlSrst start ie => (.ctrlWrite, bitAt 0 start ||| bitAt 1 ie ||| bitAt 2 true)
  | .statusW1C done accErr wrBusy =>
      (.statusWrite, bitAt 1 done ||| bitAt 3 accErr ||| bitAt 4 wrBusy)

/-- The format in which a word of spec/opcode_table.json is read when the table gives no more than its bits.
The table's formats share words (0x1 is SIXBIT in CMD.OP and CTRL.START in a CTRL write), so a word of at
most 4 bits is read as a CMD.OP and a word with a bit above 3, which no OP has, as a STATUS write
(log entry 14). -/
def tableFormat (w : Nat) : Format := if w < 16 then .cmdOp else .statusWrite

/-- The instruction the decoder reads from a table word of nbits bits. Every row is one register word, so
nbits only cuts off bits the row does not have. -/
def decodeTableWord (nbits w : Nat) : Option Instr :=
  (decode (tableFormat (w % 2 ^ nbits)) (BitVec.ofNat 32 (w % 2 ^ nbits))).toOption

end Sys2Proof
end

