-- ==== Sys2Proof/Machine/Memory.lean ====
section
/-! DEFINITION. A byte array held as a list of (offset, byte) cells in one canonical form: offsets strictly
rising. An offset that is not listed holds an UNSPECIFIED byte (10_state.md R34 to R37, log entry 19): no
value is stored for it, so no listed entry can equal what an unlisted one reads as. -/

namespace Sys2Proof.Machine

open Sys2Proof

/-- A byte array (10_state.md R34 to R37): its specified bytes, by offset. -/
structure Memory where
  cells : List Host.Cell
  deriving DecidableEq, Repr

/-- The canonical form: offsets strictly rising. -/
abbrev Memory.wf (m : Memory) : Prop := m.cells.Pairwise (fun c d => c.1 < d.1)

/-- Every byte unspecified. -/
def Memory.empty : Memory := ⟨[]⟩

/-- The byte listed at offset a, if one is. -/
def findCell : List Host.Cell → Nat → Option Byte
  | [], _ => none
  | (k, b) :: rest, a => if k = a then some b else findCell rest a

/-- The specified byte at offset a, or none where the byte is unspecified. -/
def Memory.find (m : Memory) (a : Nat) : Option Byte := findCell m.cells a

/-- Byte a, where `free` gives the value of an unspecified byte. -/
def Memory.read (free : Nat → Byte) (m : Memory) (a : Nat) : Byte := (m.find a).getD (free a)

/-- MemRead(M, a, n), the n bytes at a..a+n-1 (00_scope.md R10). -/
def Memory.window (free : Nat → Byte) (m : Memory) (a n : Nat) : Bytes :=
  (List.range n).map fun i => m.read free (a + i)

/-- Put byte b at offset a into a list of cells, in order. -/
def insertCell (a : Nat) (b : Byte) : List Host.Cell → List Host.Cell
  | [] => [(a, b)]
  | (k, c) :: rest =>
    if a < k then (a, b) :: (k, c) :: rest
    else if a = k then (a, b) :: rest
    else (k, c) :: insertCell a b rest

/-- Write one byte. -/
def Memory.write (m : Memory) (a : Nat) (b : Byte) : Memory := ⟨insertCell a b m.cells⟩

/-- MemWrite(M, a, n, bs) (00_scope.md R10): the bytes bs from offset a upward. -/
def Memory.writeBytes (m : Memory) (a : Nat) : Bytes → Memory
  | [] => m
  | b :: bs => (m.write a b).writeBytes (a + 1) bs

/-- The array whose specified bytes are bs, from offset 0. -/
def Memory.ofBytes (bs : Bytes) : Memory := ⟨bs.zipIdx.map fun c => (c.2, c.1)⟩

/-- The specified bytes in the order of their offsets. -/
def Memory.bytes (m : Memory) : Bytes := m.cells.map Prod.snd

end Sys2Proof.Machine
end

