-- ==== Sys2Proof/Machine/State.lean ====
section
/-! DEFINITION. The machine's state, all of it plain data, the reasons a step could stop, and the state after
reset. INVENTORY.md lists each field with the rule that names it. -/

namespace Sys2Proof.Machine

open Sys2Proof

/-- No rule of the spec stops the machine: an error ends a command (40_command_cycle.md R165) and an illegal
access sets a status bit (20_memory.md R83). So there is no fault. -/
inductive Fault where
  deriving DecidableEq, Repr

/-- The reasons for which a step could be refused. -/
inductive Refusal where
  /-- Raised by exec alone, for an operation of the table that has no meaning yet (safe: nothing can be
  proved of a run past it). No arm of exec answers it now. -/
  | notModelled (mnemonic : String)
  deriving DecidableEq, Repr

/-- ENG_PHASE (10_state.md R13). -/
inductive Phase where
  | idle | busy
  deriving DecidableEq, Repr

/-- What moves next (log entry 3): a host bus transaction (20_memory.md R80), the engine's completion of the
running command (40_command_cycle.md R163), or the block's reset input (70_reset_and_hazards.md R340). -/
inductive Event where
  | host (a : HostAccess)
  | engine
  | hardReset
  deriving DecidableEq, Repr

/-- The error registers ERR_CODE, ERR_POS and ERR_INFO (10_state.md R22 to R24). -/
structure ErrRegs where
  code : BitVec 8
  pos : Word
  detail : BitVec 8
  stage : BitVec 4
  deriving DecidableEq, Repr

/-- The error registers as reset and an accepted START leave them. -/
def ErrRegs.zero : ErrRegs := ⟨0, 0, 0, 0⟩

/-- The result registers and the two windows (10_state.md R25 to R32, R40, R41), their fields only: reserved
bits read 0. -/
structure ResultRegs where
  /-- RESULT.REC: 0 no file record, 1 a BinHexRecord, 2 a MacBinaryRecord. -/
  recKind : BitVec 2
  /-- RESULT.IMG. -/
  img : Bool
  /-- RESULT.STREAM. -/
  stream : Bool
  outLen : Word
  dforkLen : Word
  rforkLen : Word
  nameLen : BitVec 8
  ftype : Word
  fcreator : Word
  fflags : BitVec 16
  hcrc : BitVec 16
  dcrc : BitVec 16
  rcrc : BitVec 16
  imgSize : Word
  /-- The NAME window, 64 bytes (R40). -/
  name : Vector Byte 64
  /-- The HDR window, 84 bytes (R41). -/
  hdr : Vector Byte 84
  deriving DecidableEq, Repr

/-- The result registers and windows as reset and an accepted START leave them. -/
def ResultRegs.zero : ResultRegs where
  recKind := 0
  img := false
  stream := false
  outLen := 0
  dforkLen := 0
  rforkLen := 0
  nameLen := 0
  ftype := 0
  fcreator := 0
  fflags := 0
  hcrc := 0
  dcrc := 0
  rcrc := 0
  imgSize := 0
  name := Vector.replicate 64 0
  hdr := Vector.replicate 84 0

/-- The state of the block, the bus and the agents. -/
structure State where
  /-- The parameters of 00_scope.md R7; no step changes them (log entry 1). -/
  params : Params
  /-- ENG_PHASE (R13). -/
  phase : Phase
  /-- CTRL.IE (R19). -/
  ie : Bool
  /-- CMD.OP (R20). -/
  cmdOp : BitVec 4
  /-- IN_LEN.LEN (R38). -/
  inLen : Word
  /-- STATUS.DONE (R21). -/
  done : Bool
  /-- STATUS.ACC_ERR (R21). -/
  accErr : Bool
  /-- STATUS.WR_BUSY (R21). -/
  wrBusy : Bool
  /-- ERR_CODE, ERR_POS, ERR_INFO (R22 to R24). -/
  err : ErrRegs
  /-- RESULT to IMG_SIZE and the windows (R25 to R32, R40, R41). -/
  res : ResultRegs
  /-- LATCH_OP (R43). -/
  latchOp : BitVec 4
  /-- LATCH_LEN (R43). -/
  latchLen : Word
  /-- IN_MEM (R34). -/
  inMem : Memory
  /-- OUT_MEM (R35). -/
  outMem : Memory
  /-- S1, the six-bit stage's output inside a BinHex command (R37). -/
  s1 : Memory
  /-- XS, the expanded stream of a BinHex command (R36). -/
  xs : Memory
  /-- The model's: what the agents do next, first event first (log entry 3). -/
  agenda : List Event
  /-- The model's: the data the last host read returned (R80, log entry 13). -/
  readData : Word
  /-- The model's: picks the free values of IN_MEM's unspecified bytes (log entry 8). -/
  inEpoch : Nat
  /-- The model's: picks the free values of OUT_MEM's unspecified bytes (log entry 9). -/
  outEpoch : Nat
  /-- The model's: how many OUT_MEM reads were made while BUSY (log entry 10). -/
  busyDraws : Nat
  deriving DecidableEq, Repr

/-- The machine right after a hard reset (10_state.md R46, 70_reset_and_hazards.md R340), with the default
parameters (log entry 2) and nothing to do (log entry 5). -/
def State.reset : State where
  params := Params.default
  phase := .idle
  ie := false
  cmdOp := 0
  inLen := 0
  done := false
  accErr := false
  wrBusy := false
  err := ErrRegs.zero
  res := ResultRegs.zero
  latchOp := 0
  latchLen := 0
  inMem := Memory.empty
  outMem := Memory.empty
  s1 := Memory.empty
  xs := Memory.empty
  agenda := []
  readData := 0
  inEpoch := 0
  outEpoch := 0
  busyDraws := 0

end Sys2Proof.Machine
end

