-- ==== Sys2Proof/Machine/Flags.lean ====
section
/-! DEFINITION. The bits of STATUS, the block's only flags (10_state.md R15, R21), the IRQ line
(60_exceptions.md R308), and the words that CTRL, ERR_INFO and RESULT read as. -/

namespace Sys2Proof.Machine

open Sys2Proof

/-- STATUS.BUSY reads ENG_PHASE = BUSY (10_state.md R13). -/
def State.busy (s : State) : Bool := s.phase = .busy

/-- STATUS.ERR equals ERR_CODE.CODE != 0 (10_state.md R21). -/
def State.errFlag (s : State) : Bool := s.err.code ≠ 0

/-- IRQ = STATUS.DONE AND CTRL.IE (60_exceptions.md R308). -/
def State.irq (s : State) : Bool := s.done && s.ie

/-- The word STATUS reads as (10_state.md R21). -/
def State.statusWord (s : State) : Word :=
  (BitVec.ofBool s.irq ++ BitVec.ofBool s.wrBusy ++ BitVec.ofBool s.accErr ++
    BitVec.ofBool s.errFlag ++ BitVec.ofBool s.done ++ BitVec.ofBool s.busy).setWidth 32

/-- The word CTRL reads as: IE in bit 1, 0 elsewhere (10_state.md R19). -/
def State.ctrlWord (s : State) : Word := (BitVec.ofBool s.ie ++ 0#1).setWidth 32

/-- The word ERR_INFO reads as (10_state.md R24). -/
def ErrRegs.infoWord (e : ErrRegs) : Word := (e.stage ++ e.detail).setWidth 32

/-- The word RESULT reads as (10_state.md R25). -/
def ResultRegs.resultWord (r : ResultRegs) : Word :=
  (BitVec.ofBool r.stream ++ BitVec.ofBool r.img ++ r.recKind).setWidth 32

/-- A STATUS write clears each W1C bit written as 1 and leaves every other bit unchanged
(10_state.md R21). -/
def clearStatus (clrDone clrAccErr clrWrBusy : Bool) (s : State) : State :=
  { s with done := s.done && !clrDone, accErr := s.accErr && !clrAccErr, wrBusy := s.wrBusy && !clrWrBusy }

end Sys2Proof.Machine
end

