-- ==== Sys2Proof/Machine/Errors.lean ====
section
/-! DEFINITION. The command errors: names, stages, field ids and their codes (30_encoding.md R115 to R117,
60_exceptions.md R300 to R302). -/

namespace Sys2Proof.Machine

open Sys2Proof

/-- The error names of 30_encoding.md R115. -/
inductive ErrName where
  | missingHeader | missingDelimiter | invalidCharacter | malformedRun | truncatedRun
  | malformedHeader | truncatedInput | tooSmall | notDiskCopyFormat | unsupportedImageSize
  | badCommand | badLength | capacityExceeded
  deriving DecidableEq, Repr

/-- ERR_CODE.CODE of an error (30_encoding.md R115). -/
def ErrName.code : ErrName → BitVec 8
  | .missingHeader => 0x01
  | .missingDelimiter => 0x02
  | .invalidCharacter => 0x03
  | .malformedRun => 0x04
  | .truncatedRun => 0x05
  | .malformedHeader => 0x06
  | .truncatedInput => 0x07
  | .tooSmall => 0x08
  | .notDiskCopyFormat => 0x09
  | .unsupportedImageSize => 0x0A
  | .badCommand => 0x10
  | .badLength => 0x11
  | .capacityExceeded => 0x12

/-- The stages that ERR_INFO.STAGE names (30_encoding.md R116); `checks` is the command checks of R161. -/
inductive Stage where
  | checks | text | sixbit | rle | bhParse | mbParse | dcParse
  deriving DecidableEq, Repr

/-- ERR_INFO.STAGE of a stage (30_encoding.md R116). -/
def Stage.code : Stage → BitVec 4
  | .checks => 0
  | .text => 1
  | .sixbit => 2
  | .rle => 3
  | .bhParse => 4
  | .mbParse => 5
  | .dcParse => 6

/-- The fields that a MalformedHeader names (30_encoding.md R117). -/
inductive HeaderField where
  | bhSentinel | bhDataLen | bhRsrcLen | bhNameLen
  | mbZero00 | mbNameLen | mbZero4A | mbZero52 | mbDataLen | mbRsrcLen
  deriving DecidableEq, Repr

/-- The field id of a MalformedHeader field (30_encoding.md R117). -/
def HeaderField.id : HeaderField → BitVec 8
  | .bhSentinel => 0x01
  | .bhDataLen => 0x02
  | .bhRsrcLen => 0x03
  | .bhNameLen => 0x04
  | .mbZero00 => 0x11
  | .mbNameLen => 0x12
  | .mbZero4A => 0x13
  | .mbZero52 => 0x14
  | .mbDataLen => 0x15
  | .mbRsrcLen => 0x16

/-- One raised error E(pos, info) (00_scope.md R10, 60_exceptions.md R301). -/
structure CmdError where
  name : ErrName
  pos : Nat
  stage : Stage
  detail : BitVec 8
  deriving DecidableEq, Repr

/-- A MalformedHeader that names its field. -/
def malformed (stage : Stage) (pos : Nat) (f : HeaderField) : CmdError :=
  ⟨.malformedHeader, pos, stage, f.id⟩

end Sys2Proof.Machine
end

