-- ==== Sys2Proof/Machine/Operands.lean ====
section
/-! DEFINITION. A command's operands (30_encoding.md R113): the bytes IN_MEM[0..LATCH_LEN), and the
bounds-checked read primitives of 41_bytecursor.md. -/

namespace Sys2Proof.Machine

open Sys2Proof

/-- IN_MEM byte k as every reader of the state sees it (10_state.md R34). -/
def State.inByte (s : State) (k : Nat) : Byte := s.inMem.read (Config.unspecInByte s.inEpoch) k

/-- OUT_MEM byte k as a reader sees it while the engine is IDLE (10_state.md R35). -/
def State.outByte (s : State) (k : Nat) : Byte := s.outMem.read (Config.unspecOutByte s.outEpoch) k

/-- The running command's input I = IN_MEM[0..LATCH_LEN) (40_command_cycle.md R162). -/
def State.input (s : State) : Bytes :=
  s.inMem.window (Config.unspecInByte s.inEpoch) 0 s.latchLen.toNat

/-- The big-endian value of a byte sequence, BE of 00_scope.md R9. -/
def beNat (bs : Bytes) : Nat := bs.foldl (fun n b => n * 256 + b.toNat) 0

/-- sext_32 of 00_scope.md R9. -/
def sext32 (v : Nat) : Int := if v < 2 ^ 31 then (v : Int) else (v : Int) - 2 ^ 32

/-- B[off], for an offset inside the buffer. -/
def byteAt (buf : Bytes) (off : Nat) : Byte := buf.getD off 0

/-- The bounds check of a read of n bytes at off (41_bytecursor.md R181). -/
def checkRead (stage : Stage) (buf : Bytes) (off n : Nat) : Except CmdError Unit :=
  if off + n > buf.length then .error ⟨.truncatedInput, off, stage, 0⟩ else .ok ()

/-- Bytes(buf, off, n) (41_bytecursor.md R183). -/
def readBytes (stage : Stage) (buf : Bytes) (off n : Nat) : Except CmdError Bytes := do
  checkRead stage buf off n
  return (buf.drop off).take n

/-- Skip(buf, off, n), the cursor after it (41_bytecursor.md R183). -/
def skipBytes (stage : Stage) (buf : Bytes) (off n : Nat) : Except CmdError Nat := do
  checkRead stage buf off n
  return off + n

/-- U8(buf, off) (41_bytecursor.md R182). -/
def readU8 (stage : Stage) (buf : Bytes) (off : Nat) : Except CmdError Nat := do
  checkRead stage buf off 1
  return (byteAt buf off).toNat

/-- BE16(buf, off) (41_bytecursor.md R182). -/
def readBE16 (stage : Stage) (buf : Bytes) (off : Nat) : Except CmdError Nat := do
  return beNat (← readBytes stage buf off 2)

/-- BE32(buf, off), unsigned (41_bytecursor.md R182). -/
def readBE32 (stage : Stage) (buf : Bytes) (off : Nat) : Except CmdError Nat := do
  return beNat (← readBytes stage buf off 4)

/-- SBE32(buf, off), two's complement (41_bytecursor.md R182). -/
def readSBE32 (stage : Stage) (buf : Bytes) (off : Nat) : Except CmdError Int := do
  return sext32 (← readBE32 stage buf off)

end Sys2Proof.Machine
end

