-- ==== Sys2Proof/Machine/Ops.lean ====
section
/-! DEFINITION. The operations that the meanings share: accepting a START, the command checks, the two
commits of a completion (the error commit is this block's exception entry, 60_exceptions.md R305; there is no
return, R306), and the two resets. -/

namespace Sys2Proof.Machine

open Sys2Proof

/-! ## What a command's stages yield -/

/-- The two-fork file record (00_scope.md glossary, 44_binhex.md R214). -/
structure FileRecord where
  name : Bytes
  ftype : Bytes
  fcreator : Bytes
  flags : Nat
  data : Bytes
  rsrc : Bytes
  deriving DecidableEq, Repr

/-- The source's two record variants (10_state.md R25). -/
inductive FileResult where
  | binhex (f : FileRecord) (hcrc dcrc rcrc : Nat)
  | macbin (f : FileRecord)
  deriving DecidableEq, Repr

/-- The fields that both variants share. -/
def FileResult.file : FileResult → FileRecord
  | .binhex f _ _ _ => f
  | .macbin f => f

/-- A DiskImage: its 0x54-byte header and its sectors (46_diskcopy.md R232). -/
structure DiskImage where
  header : Bytes
  data : Bytes
  deriving DecidableEq, Repr

/-- What a successful command delivers (30_encoding.md R110). -/
inductive CmdResult where
  | stream (out : Bytes)                       -- SIXBIT, RLE
  | record (r : FileResult)                    -- BINHEX, MACBIN
  | image (d : DiskImage)                      -- DSK
  | recordImage (r : FileResult) (d : DiskImage) -- BINHEX_DSK, MACBIN_DSK
  deriving DecidableEq, Repr

/-- The bytes a result writes to OUT_MEM from offset 0 (43_sixbit.md R201, 44_binhex.md R215,
46_diskcopy.md R237, 47_pipelines.md R240). -/
def CmdResult.out : CmdResult → Bytes
  | .stream out => out
  | .record r => r.file.data ++ r.file.rsrc
  | .image d => d.data
  | .recordImage _ d => d.data

/-- A window of n bytes that holds bs and then 0x00; bytes beyond n are not visible (10_state.md R40). -/
def windowOf (n : Nat) (bs : Bytes) : Vector Byte n := Vector.ofFn fun i => bs.getD i 0

/-- The fork lengths, name, type, creator and flags of a record (44_binhex.md R215, 45_macbinary.md R224). -/
def FileRecord.writeRegs (f : FileRecord) (q : ResultRegs) : ResultRegs :=
  { q with
    dforkLen := BitVec.ofNat 32 f.data.length
    rforkLen := BitVec.ofNat 32 f.rsrc.length
    nameLen := BitVec.ofNat 8 f.name.length
    name := windowOf 64 f.name
    ftype := BitVec.ofNat 32 (beNat f.ftype)
    fcreator := BitVec.ofNat 32 (beNat f.fcreator)
    fflags := BitVec.ofNat 16 f.flags }

/-- A record's registers and RESULT.REC: the CRCs belong to the BinHex variant alone (44_binhex.md R215,
45_macbinary.md R224). -/
def FileResult.writeRegs (r : FileResult) (q : ResultRegs) : ResultRegs :=
  match r with
  | .binhex f h d c =>
    { f.writeRegs q with
      recKind := 1, hcrc := BitVec.ofNat 16 h, dcrc := BitVec.ofNat 16 d, rcrc := BitVec.ofNat 16 c }
  | .macbin f => { f.writeRegs q with recKind := 2 }

/-- An image's registers: IMG_SIZE, the HDR window and RESULT.IMG (46_diskcopy.md R237). -/
def DiskImage.writeRegs (d : DiskImage) (q : ResultRegs) : ResultRegs :=
  { q with img := true, imgSize := BitVec.ofNat 32 d.data.length, hdr := windowOf 84 d.header }

/-- The result registers after a success: those the command's rule lists take its values, every other one
keeps its value (40_command_cycle.md R164). -/
def CmdResult.writeRegs (r : CmdResult) (q : ResultRegs) : ResultRegs :=
  let q := { q with outLen := BitVec.ofNat 32 r.out.length }
  match r with
  | .stream _ => { q with stream := true }
  | .record f => f.writeRegs q
  | .image d => d.writeRegs q
  | .recordImage f d => d.writeRegs (f.writeRegs q)

/-! ## Start and completion -/

/-- A CTRL write with START = 1 and SRST = 0. While IDLE it is accepted (40_command_cycle.md R160); while BUSY
it is not, and sets WR_BUSY (70_reset_and_hazards.md R347). IE takes bit 1 of the write in both
(10_state.md R19). -/
def startCommand (ie : Bool) (s : State) : State :=
  match s.phase with
  | .busy => { s with ie := ie, wrBusy := true }
  | .idle =>
    { s with
      ie := ie, latchOp := s.cmdOp, latchLen := s.inLen
      err := ErrRegs.zero, res := ResultRegs.zero, done := false, phase := .busy }

/-- The length check of 40_command_cycle.md R161, for a legal OP. -/
def State.checkLength (s : State) : Except CmdError Unit :=
  if s.latchLen.toNat > s.params.inMemSize then
    .error ⟨.badLength, s.latchLen.toNat, .checks, 0⟩
  else .ok ()

/-- The command check of 40_command_cycle.md R161 that a reserved OP fails. -/
def badCommand (op : BitVec 4) : CmdError := ⟨.badCommand, 0, .checks, op.setWidth 8⟩

/-- Success commit (40_command_cycle.md R164): the result registers, and OUT_MEM from offset 0; its other
bytes become unspecified (10_state.md R35). -/
def commitResult (r : CmdResult) (s : State) : State :=
  { s with res := r.writeRegs s.res, outMem := Memory.ofBytes r.out, outEpoch := s.outEpoch + 1 }

/-- Error commit, the exception entry of this block (40_command_cycle.md R165, 60_exceptions.md R305): the
error registers; every result register stays; OUT_MEM becomes unspecified. -/
def commitError (e : CmdError) (s : State) : State :=
  { s with
    err := ⟨e.name.code, BitVec.ofNat 32 e.pos, e.detail, e.stage.code⟩
    outMem := Memory.empty, outEpoch := s.outEpoch + 1 }

/-- Completion, one atomic step (40_command_cycle.md R163): commit the outcome, ENG_PHASE to IDLE,
STATUS.DONE to 1. -/
def complete (o : Except CmdError CmdResult) (s : State) : State :=
  let s := match o with
    | .ok r => commitResult r s
    | .error e => commitError e s
  { s with phase := .idle, done := true }

/-! ## Reset -/

/-- What both resets do to the registers, latches, windows and ENG_PHASE (70_reset_and_hazards.md R340). -/
def resetRegs (s : State) : State :=
  { s with
    phase := .idle, ie := false, cmdOp := 0, inLen := 0
    done := false, accErr := false, wrBusy := false
    err := ErrRegs.zero, res := ResultRegs.zero, latchOp := 0, latchLen := 0 }

/-- Soft reset (70_reset_and_hazards.md R341): IN_MEM is unchanged; OUT_MEM is unchanged if the engine was
IDLE and unspecified if it was BUSY, and so are the internal buffers. -/
def softReset (s : State) : State :=
  match s.phase with
  | .idle => resetRegs s
  | .busy =>
    { resetRegs s with
      outMem := Memory.empty, outEpoch := s.outEpoch + 1, s1 := Memory.empty, xs := Memory.empty }

/-- Hard reset (70_reset_and_hazards.md R340): every memory's contents become unspecified. -/
def hardReset (s : State) : State :=
  { resetRegs s with
    inMem := Memory.empty, inEpoch := s.inEpoch + 1
    outMem := Memory.empty, outEpoch := s.outEpoch + 1
    s1 := Memory.empty, xs := Memory.empty }

end Sys2Proof.Machine
end

