-- ==== Sys2Proof/Machine/Bus.lean ====
section
/-! DEFINITION. The host bus: the address map, which accesses are legal, the registers, windows and memories
as the host reads and writes them (20_memory.md, 10_state.md section 3). -/

namespace Sys2Proof.Machine

open Sys2Proof

/-! ## The address map -/

/-- The regions of the host address map (20_memory.md R81), each with the offset inside it. -/
inductive Region where
  | reg (off : Nat)
  | nameWin (i : Nat)
  | hdrWin (i : Nat)
  | reservedWin
  | inMem (k : Nat)
  | outMem (k : Nat)
  | unmapped
  deriving DecidableEq, Repr

/-- The host address of IN_MEM byte 0 (20_memory.md R81). -/
def inBase : Nat := 0x1000000

/-- The host address of OUT_MEM byte 0 (20_memory.md R81). -/
def outBase : Nat := 0x2000000

/-- The region of host address a (20_memory.md R81). -/
def region (p : Params) (a : Nat) : Region :=
  if a < 0x100 then .reg a
  else if a < 0x140 then .nameWin (a - 0x100)
  else if a < 0x194 then .hdrWin (a - 0x140)
  else if a < 0x200 then .reservedWin
  else if inBase ≤ a ∧ a < inBase + p.inMemSize then .inMem (a - inBase)
  else if outBase ≤ a ∧ a < outBase + p.outMemSize then .outMem (a - outBase)
  else .unmapped

/-- The widths of a bus access (20_memory.md R80). -/
inductive Width where
  | byte | word
  deriving DecidableEq, Repr

/-- A 32-bit access needs an address that is a multiple of 4 (20_memory.md R92). -/
def alignedFor (w : Width) (a : Nat) : Bool :=
  match w with
  | .byte => true
  | .word => a % 4 = 0

/-- Which accesses are legal (20_memory.md R82): REG takes whole aligned words; the windows and memories take
bytes and aligned words; a word in IN or OUT must lie inside it whole. -/
def legalAccess (p : Params) (w : Width) (a : Nat) : Bool :=
  match region p a with
  | .reg _ => w = .word && alignedFor w a
  | .nameWin _ => alignedFor w a
  | .hdrWin _ => alignedFor w a
  | .reservedWin => alignedFor w a
  | .inMem k => alignedFor w a && (w = .byte || k + 4 ≤ p.inMemSize)
  | .outMem k => alignedFor w a && (w = .byte || k + 4 ≤ p.outMemSize)
  | .unmapped => false

/-! ## The registers -/

/-- The named registers of 10_state.md R16. -/
inductive RegName where
  | id | version | capIn | capOut | capXs | ctrl | cmd | inLen | status | errCode | errPos | errInfo
  | result | outLen | dforkLen | rforkLen | nameLen | ftype | fcreator | fflags | hcrc | dcrc | rcrc
  | imgSize
  deriving DecidableEq, Repr

/-- The register at a word offset; none at the reserved offsets 0x060 to 0x0FC (10_state.md R16, R33). -/
def regAt (off : Nat) : Option RegName :=
  match off with
  | 0x000 => some .id
  | 0x004 => some .version
  | 0x008 => some .capIn
  | 0x00C => some .capOut
  | 0x010 => some .capXs
  | 0x014 => some .ctrl
  | 0x018 => some .cmd
  | 0x01C => some .inLen
  | 0x020 => some .status
  | 0x024 => some .errCode
  | 0x028 => some .errPos
  | 0x02C => some .errInfo
  | 0x030 => some .result
  | 0x034 => some .outLen
  | 0x038 => some .dforkLen
  | 0x03C => some .rforkLen
  | 0x040 => some .nameLen
  | 0x044 => some .ftype
  | 0x048 => some .fcreator
  | 0x04C => some .fflags
  | 0x050 => some .hcrc
  | 0x054 => some .dcrc
  | 0x058 => some .rcrc
  | 0x05C => some .imgSize
  | _ => none

/-- What a register reads as (10_state.md R17 to R32, R38); reading has no side effect (20_memory.md R94). -/
def readReg (r : RegName) (s : State) : Word :=
  match r with
  | .id => 0x42485844
  | .version => 0x00000001
  | .capIn => BitVec.ofNat 32 s.params.inMemSize
  | .capOut => BitVec.ofNat 32 s.params.outMemSize
  | .capXs => BitVec.ofNat 32 s.params.xsSize
  | .ctrl => s.ctrlWord
  | .cmd => s.cmdOp.setWidth 32
  | .inLen => s.inLen
  | .status => s.statusWord
  | .errCode => s.err.code.setWidth 32
  | .errPos => s.err.pos
  | .errInfo => s.err.infoWord
  | .result => s.res.resultWord
  | .outLen => s.res.outLen
  | .dforkLen => s.res.dforkLen
  | .rforkLen => s.res.rforkLen
  | .nameLen => s.res.nameLen.setWidth 32
  | .ftype => s.res.ftype
  | .fcreator => s.res.fcreator
  | .fflags => s.res.fflags.setWidth 32
  | .hcrc => s.res.hcrc.setWidth 32
  | .dcrc => s.res.dcrc.setWidth 32
  | .rcrc => s.res.rcrc.setWidth 32
  | .imgSize => s.res.imgSize

/-- A host write that the engine's input must not see: dropped while BUSY, with WR_BUSY set
(70_reset_and_hazards.md R346). -/
def unlessBusy (write : State → State) (s : State) : State :=
  match s.phase with
  | .busy => { s with wrBusy := true }
  | .idle => write s

/-- A write of CTRL (10_state.md R19): SRST, then START, else IE alone. -/
def writeCtrl (v : Word) (s : State) : State :=
  if v.getLsbD 2 then softReset s
  else if v.getLsbD 0 then startCommand (v.getLsbD 1) s
  else { s with ie := v.getLsbD 1 }

/-- What a 32-bit write does to a register (10_state.md R16 to R38): read-only registers ignore it. -/
def writeReg (r : RegName) (v : Word) (s : State) : State :=
  match r with
  | .ctrl => writeCtrl v s
  | .cmd => unlessBusy (fun s => { s with cmdOp := v.extractLsb' 0 4 }) s
  | .inLen => unlessBusy (fun s => { s with inLen := v }) s
  | .status => clearStatus (v.getLsbD 1) (v.getLsbD 3) (v.getLsbD 4) s
  | .id => s
  | .version => s
  | .capIn => s
  | .capOut => s
  | .capXs => s
  | .errCode => s
  | .errPos => s
  | .errInfo => s
  | .result => s
  | .outLen => s
  | .dforkLen => s
  | .rforkLen => s
  | .nameLen => s
  | .ftype => s
  | .fcreator => s
  | .fflags => s
  | .hcrc => s
  | .dcrc => s
  | .rcrc => s
  | .imgSize => s

/-! ## The byte regions -/

/-- OUT_MEM byte k as the host reads it: a fresh free value while BUSY (20_memory.md R85). -/
def State.outByteSeen (s : State) (k : Nat) : Byte :=
  match s.phase with
  | .busy => Config.busyOutByte s.busyDraws k
  | .idle => s.outByte k

/-- The byte the host reads at host address a of a byte region (20_memory.md R84, R85, R87); 0 in the reserved
window. -/
def byteSeen (s : State) (a : Nat) : Byte :=
  match region s.params a with
  | .reg _ => 0
  | .nameWin i => s.res.name.toList.getD i 0
  | .hdrWin i => s.res.hdr.toList.getD i 0
  | .reservedWin => 0
  | .inMem k => s.inByte k
  | .outMem k => s.outByteSeen k
  | .unmapped => 0

/-- Four bytes as a 32-bit bus word, little-endian lanes: b0, at the lowest address, in bits 7:0
(20_memory.md R84, R89). -/
def lanes (b0 b1 b2 b3 : Byte) : Word := b3 ++ b2 ++ b1 ++ b0

/-- The four bytes of a bus word, the one for the lowest address first (20_memory.md R84). -/
def laneBytes (v : Word) : Bytes :=
  [v.extractLsb' 0 8, v.extractLsb' 8 8, v.extractLsb' 16 8, v.extractLsb' 24 8]

/-- What a legal access of the given width reads at host address a (20_memory.md R82): a register's value in
REG, else the bytes. -/
def busValue (s : State) (w : Width) (a : Nat) : Word :=
  match region s.params a with
  | .reg off =>
    match regAt off with
    | some r => readReg r s
    | none => 0
  | _ =>
    match w with
    | .byte => (byteSeen s a).setWidth 32
    | .word => lanes (byteSeen s a) (byteSeen s (a + 1)) (byteSeen s (a + 2)) (byteSeen s (a + 3))

/-- A legal read: the data, and one draw used up by a read of OUT_MEM while BUSY (20_memory.md R85, R94). -/
def busRead (w : Width) (a : Nat) (s : State) : State :=
  let draws :=
    match region s.params a, s.phase with
    | .outMem _, .busy => s.busyDraws + 1
    | _, _ => s.busyDraws
  { s with readData := busValue s w a, busyDraws := draws }

/-- A legal write of the bytes bs (one, or the four lanes of v) at host address a: the windows and OUT_MEM
ignore it, IN_MEM takes it unless BUSY (20_memory.md R82, R84, R85). -/
def busWrite (a : Nat) (bs : Bytes) (v : Word) (s : State) : State :=
  match region s.params a with
  | .reg off =>
    match regAt off with
    | some r => writeReg r v s
    | none => s
  | .nameWin _ => s
  | .hdrWin _ => s
  | .reservedWin => s
  | .inMem k => unlessBusy (fun s => { s with inMem := s.inMem.writeBytes k bs }) s
  | .outMem _ => s
  | .unmapped => s

/-- An illegal access: ACC_ERR is set, a read returns 0, nothing else happens (20_memory.md R83). -/
def illegalAccess (isRead : Bool) (s : State) : State :=
  { s with accErr := true, readData := if isRead then 0 else s.readData }

/-- One host bus transaction, complete before the next one starts (20_memory.md R80, R82, R83). -/
def hostAccess (x : HostAccess) (s : State) : State :=
  match x with
  | .r8 a =>
    if legalAccess s.params .byte a.toNat then busRead .byte a.toNat s else illegalAccess true s
  | .r32 a =>
    if legalAccess s.params .word a.toNat then busRead .word a.toNat s else illegalAccess true s
  | .w8 a v =>
    if legalAccess s.params .byte a.toNat then busWrite a.toNat [v] (v.setWidth 32) s
    else illegalAccess false s
  | .w32 a v =>
    if legalAccess s.params .word a.toNat then busWrite a.toNat (laneBytes v) v s
    else illegalAccess false s

/-! ## What moves next -/

/-- The operation of spec/opcode_table.json that a bus transaction is, if it is one: a 32-bit write of CTRL or
of STATUS that decodes (30_encoding.md R114). -/
def busOperation (x : HostAccess) : Option Instr :=
  match x with
  | .w32 a v =>
    match regAt a.toNat with
    | some .ctrl => (decode .ctrlWrite v).toOption
    | some .status => (decode .statusWrite v).toOption
    | _ => none
  | .r8 _ => none
  | .r32 _ => none
  | .w8 _ _ => none

/-- What one step does. -/
inductive Action where
  | run (i : Instr)            -- an operation of the table: exec runs it
  | access (x : HostAccess)    -- any other bus transaction
  | hardReset
  | wait                       -- the block is IDLE and nothing happens (70_reset_and_hazards.md R343)
  deriving DecidableEq, Repr

/-- The engine's turn: a BUSY engine completes the latched command (40_command_cycle.md R162, R163). -/
def engineTurn (s : State) : Action :=
  match s.phase with
  | .busy => .run (decodeOp s.latchOp)
  | .idle => .wait

/-- What moves next: the first event of the agenda, and the engine where there is none, so that an accepted
command completes after finitely many steps (70_reset_and_hazards.md R350, log entries 3 and 4). -/
def State.action (s : State) : Action :=
  match s.agenda with
  | [] => engineTurn s
  | .engine :: _ => engineTurn s
  | .hardReset :: _ => .hardReset
  | .host x :: _ =>
    match busOperation x with
    | some i => .run i
    | none => .access x

/-- The state with its first event taken off the agenda. -/
def State.advance (s : State) : State := { s with agenda := s.agenda.tail }

/-- The host address of STATUS (10_state.md R16). -/
def statusAddr : Word := 0x20

/-- s with the given operation word as what step runs next: an OP as the latched command of a BUSY engine
whose turn it is, a STATUS word as the host's next transaction (log entry 5). -/
def placeWord (f : Format) (w : Word) (s : State) : State :=
  match f with
  | .cmdOp =>
    { s with phase := .busy, latchOp := w.extractLsb' 0 4, agenda := .engine :: s.agenda }
  | .ctrlWrite => { s with agenda := .host (.w32 0x14 w) :: s.agenda }
  | .statusWrite => { s with agenda := .host (.w32 statusAddr w) :: s.agenda }

end Sys2Proof.Machine
end

