-- ==== Sys2Proof/Machine/Control.lean ====
section
/-! DEFINITION. The register-write operations CTRL.START, CTRL.SRST and STATUS.W1C (30_encoding.md R114). -/

namespace Sys2Proof.Machine

open Sys2Proof

/-- CTRL.START (40_command_cycle.md R160, 70_reset_and_hazards.md R347). -/
def execCtrlStart (ie : Bool) (s : State) : Host.Outcome State Fault Refusal := .next (startCommand ie s)

/-- CTRL.SRST (70_reset_and_hazards.md R341, R342): START and IE of the same write are ignored
(10_state.md R19). -/
def execCtrlSrst (_start _ie : Bool) (s : State) : Host.Outcome State Fault Refusal := .next (softReset s)

/-- STATUS.W1C (10_state.md R21). -/
def execStatusW1C (done accErr wrBusy : Bool) (s : State) : Host.Outcome State Fault Refusal :=
  .next (clearStatus done accErr wrBusy s)

end Sys2Proof.Machine
end

