-- ==== Sys2Proof/Machine/Rle.lean ====
section
/-! DEFINITION. The RLE stage and command RLE (42_rle.md). -/

namespace Sys2Proof.Machine

open Sys2Proof

/-- The RLE escape byte (00_scope.md R8). -/
def rleEscape : Byte := 0x90

/-- Emit n copies of x into an output of `len` bytes, held last byte first, whose buffer holds `cap` bytes; pos
is the offset of the token being expanded (42_rle.md R191). -/
def rleEmit (cap pos n : Nat) (x : Byte) (outRev : Bytes) (len : Nat) : Except CmdError (Bytes × Nat) :=
  if len + n ≤ cap then .ok (List.replicate n x ++ outRev, len + n)
  else .error ⟨.capacityExceeded, pos, .rle, 0⟩

/-- The scan of 42_rle.md R185 from input index i on: literals (R186), escaped literals (R187), runs (R188),
TruncatedRun (R189), MalformedRun (R190). `outRev` is the output so far, last byte first, and `len` its
length. -/
def rleGo (cap : Nat) : Bytes → (i : Nat) → (outRev : Bytes) → (len : Nat) → Except CmdError Bytes
  | [], _, outRev, _ => .ok outRev.reverse
  | b :: rest, i, outRev, len =>
    if b ≠ rleEscape then
      (rleEmit cap i 1 b outRev len).bind fun o => rleGo cap rest (i + 1) o.1 o.2
    else
      match rest with
      | [] => .error ⟨.truncatedRun, i, .rle, 0⟩
      | n :: rest' =>
        if n = 0 then
          (rleEmit cap i 1 rleEscape outRev len).bind fun o => rleGo cap rest' (i + 2) o.1 o.2
        else
          match outRev with
          | [] => .error ⟨.malformedRun, i, .rle, 0⟩
          | x :: _ =>
            (rleEmit cap i (n.toNat - 1) x outRev len).bind fun o => rleGo cap rest' (i + 2) o.1 o.2

/-- The RLE stage Rle(in, CAP, 3) (42_rle.md R185). -/
def rle (cap : Nat) (input : Bytes) : Except CmdError Bytes := rleGo cap input 0 [] 0

/-- The outcome of command RLE (42_rle.md R193). -/
def rleOutcome (s : State) : Except CmdError CmdResult := do
  s.checkLength
  let out ← rle s.params.outMemSize s.input
  return .stream out

/-- RLE, OP 0x2 (42_rle.md R193). -/
def execRle (s : State) : Host.Outcome State Fault Refusal := .next (complete (rleOutcome s) s)

end Sys2Proof.Machine
end

