-- ==== Sys2Proof/Machine/SixBit.lean ====
section
/-! DEFINITION. The six-bit stage and command SIXBIT (43_sixbit.md). -/

namespace Sys2Proof.Machine

open Sys2Proof

/-- The 6-bit value of an alphabet byte: its index in ALPHABET (30_encoding.md R127). -/
def alphabetValue (p : Params) (c : Byte) : Option Nat := p.alphabet.idxOf? c

/-- The six bytes of a 48-bit group word, most significant first (30_encoding.md R128). -/
def groupBytes (g : BitVec 48) : Bytes :=
  [g.extractLsb' 40 8, g.extractLsb' 32 8, g.extractLsb' 24 8, g.extractLsb' 16 8, g.extractLsb' 8 8,
   g.extractLsb' 0 8]

/-- The loop of 43_sixbit.md R195 from IN_MEM offset pos on: whitespace (R196), packing (R197), the trailing
partial group (R198), InvalidCharacter (R200). g is the 48-bit accumulator, k the values in the current group,
`outRev` the output so far, last byte first. -/
def sixBitGo (p : Params) : Bytes → (pos : Nat) → (g : BitVec 48) → (k : Nat) → (outRev : Bytes) →
    Except CmdError Bytes
  | [], _, g, k, outRev => .ok (if k = 0 then outRev else (groupBytes g).reverse ++ outRev).reverse
  | c :: rest, pos, g, k, outRev =>
    if c ∈ p.whitespace then sixBitGo p rest (pos + 1) g k outRev
    else
      match alphabetValue p c with
      | none => .error ⟨.invalidCharacter, pos, .sixbit, c⟩
      | some v =>
        let g' := g + BitVec.ofNat 48 (v * 2 ^ (42 - 6 * k))
        if k + 1 = 8 then sixBitGo p rest (pos + 1) 0 0 ((groupBytes g').reverse ++ outRev)
        else sixBitGo p rest (pos + 1) g' (k + 1) outRev

/-- The six-bit stage SixBit(in, base) (43_sixbit.md R195). -/
def sixBit (p : Params) (input : Bytes) (base : Nat) : Except CmdError Bytes :=
  sixBitGo p input base 0 0 []

/-- The outcome of command SIXBIT (43_sixbit.md R201). -/
def sixbitOutcome (s : State) : Except CmdError CmdResult := do
  s.checkLength
  let out ← sixBit s.params s.input 0
  return .stream out

/-- SIXBIT, OP 0x1 (43_sixbit.md R201). -/
def execSixbit (s : State) : Host.Outcome State Fault Refusal := .next (complete (sixbitOutcome s) s)

end Sys2Proof.Machine
end

