-- ==== Sys2Proof/Machine/BinHex.lean ====
section
/-! DEFINITION. The BinHex 4.0 decoder and command BINHEX (44_binhex.md). -/

namespace Sys2Proof.Machine

open Sys2Proof

/-- SIG, "(This file must be converted with BinHex 4.0)", 45 bytes (30_encoding.md R120). -/
def binhexSignature : Bytes :=
  [0x28, 0x54, 0x68, 0x69, 0x73, 0x20, 0x66, 0x69, 0x6C, 0x65, 0x20, 0x6D, 0x75, 0x73, 0x74, 0x20,
   0x62, 0x65, 0x20, 0x63, 0x6F, 0x6E, 0x76, 0x65, 0x72, 0x74, 0x65, 0x64, 0x20, 0x77, 0x69, 0x74,
   0x68, 0x20, 0x42, 0x69, 0x6E, 0x48, 0x65, 0x78, 0x20, 0x34, 0x2E, 0x30, 0x29]

/-- The delimiter ":" (30_encoding.md R120). -/
def colon : Byte := 0x3A

/-- The least j at which pat occurs in t, counted from j0 (44_binhex.md R205). -/
def findPattern (pat : Bytes) : Bytes → (j0 : Nat) → Option Nat
  | [], _ => none
  | c :: t, j0 => if pat.isPrefixOf (c :: t) then some j0 else findPattern pat t (j0 + 1)

/-- The least j >= lo with t[j] = c (44_binhex.md R206). -/
def findByteFrom (c : Byte) (t : Bytes) (lo : Nat) : Option Nat :=
  ((t.drop lo).idxOf? c).map (· + lo)

/-- The payload strictly between the two colons after the signature, and its IN_MEM offset
(44_binhex.md R205, R206). -/
def locatePayload (t : Bytes) : Except CmdError (Nat × Bytes) :=
  match findPattern binhexSignature t 0 with
  | none => .error ⟨.missingHeader, 0, .text, 0⟩
  | some s =>
    match findByteFrom colon t (s + 45) with
    | none => .error ⟨.missingDelimiter, s + 45, .text, 1⟩
    | some c1 =>
      match findByteFrom colon t (c1 + 1) with
      | none => .error ⟨.missingDelimiter, c1 + 1, .text, 2⟩
      | some c2 => .ok (c1 + 1, (t.take c2).drop (c1 + 1))

/-- The record parse of 44_binhex.md R209 over the expanded stream x (layout 30_encoding.md R133); bytes after
the record are ignored (R134). -/
def parseBinhex (p : Params) (x : Bytes) : Except CmdError FileResult := do
  let n ← readU8 .bhParse x 0
  if p.bhNameCheck = true ∧ (n < 1 ∨ n > 63) then throw (malformed .bhParse 0 .bhNameLen)
  let name ← readBytes .bhParse x 1 n
  let z ← readU8 .bhParse x (1 + n)
  if z ≠ 0 then throw (malformed .bhParse (1 + n) .bhSentinel)
  let ftype ← readBytes .bhParse x (2 + n) 4
  let fcreator ← readBytes .bhParse x (6 + n) 4
  let flags ← readBE16 .bhParse x (10 + n)
  let d ← readSBE32 .bhParse x (12 + n)
  if d < 0 then throw (malformed .bhParse (12 + n) .bhDataLen)
  let r ← readSBE32 .bhParse x (16 + n)
  if r < 0 then throw (malformed .bhParse (16 + n) .bhRsrcLen)
  let hcrc ← readBE16 .bhParse x (20 + n)
  let data ← readBytes .bhParse x (22 + n) d.toNat
  let dcrc ← readBE16 .bhParse x (22 + n + d.toNat)
  let rsrc ← readBytes .bhParse x (24 + n + d.toNat) r.toNat
  let rcrc ← readBE16 .bhParse x (24 + n + d.toNat + r.toNat)
  return .binhex ⟨name, ftype, fcreator, flags, data, rsrc⟩ hcrc dcrc rcrc

/-- The BinHex decode up to and including the record parse: the six-bit output is put into S1, the RLE stage
reads S1 and its output is put into XS, and the parse reads XS (44_binhex.md R205 to R209, 10_state.md R36,
R37). A buffer whose stage did not finish is left unspecified (log entry 7). -/
def binhexDecode (s : State) : State × Except CmdError FileResult :=
  match s.checkLength with
  | .error e => (s, .error e)
  | .ok () =>
    let s := { s with s1 := Memory.empty, xs := Memory.empty }
    match (locatePayload s.input).bind fun q => sixBit s.params q.2 q.1 with
    | .error e => (s, .error e)
    | .ok out =>
      let s := { s with s1 := Memory.ofBytes out }
      match rle s.params.xsSize s.s1.bytes with
      | .error e => (s, .error e)
      | .ok x =>
        let s := { s with xs := Memory.ofBytes x }
        (s, parseBinhex s.params s.xs.bytes)

/-- BINHEX, OP 0x3 (44_binhex.md R215). -/
def execBinhex (s : State) : Host.Outcome State Fault Refusal :=
  .next (complete ((binhexDecode s).2.map .record) (binhexDecode s).1)

end Sys2Proof.Machine
end

