-- ==== Sys2Proof/Machine/DiskCopy.lean ====
section
/-! DEFINITION. The DiskCopy 4.2 decoder and command DSK (46_diskcopy.md). -/

namespace Sys2Proof.Machine

open Sys2Proof

/-- The three legal dataSize values (30_encoding.md R155). -/
def imageSizes : List Nat := [409600, 819200, 1474560]

/-- An error of the DiskCopy stage (46_diskcopy.md R230). -/
def dcError (name : ErrName) (pos : Nat) : CmdError := ⟨name, pos, .dcParse, 0⟩

/-- The DiskCopy stage DiskCopy(B) (46_diskcopy.md R230 to R236). -/
def diskCopy (b : Bytes) : Except CmdError DiskImage := do
  if b.length < 409600 then throw (dcError .tooSmall b.length)
  if byteAt b 0x52 ≠ 0x01 then throw (dcError .notDiskCopyFormat 0x52)
  if byteAt b 0x53 ≠ 0x00 then throw (dcError .notDiskCopyFormat 0x53)
  let ds ← readBE32 .dcParse b 0x40
  if ds ∉ imageSizes then throw (dcError .unsupportedImageSize 0x40)
  let data ← readBytes .dcParse b 0x54 ds
  return ⟨b.take 0x54, data⟩

/-- The outcome of command DSK (46_diskcopy.md R237). -/
def dskOutcome (s : State) : Except CmdError CmdResult := do
  s.checkLength
  let d ← diskCopy s.input
  return .image d

/-- DSK, OP 0x5 (46_diskcopy.md R237). -/
def execDsk (s : State) : Host.Outcome State Fault Refusal := .next (complete (dskOutcome s) s)

end Sys2Proof.Machine
end

