-- ==== Sys2Proof/Machine/MacBinary.lean ====
section
/-! DEFINITION. The MacBinary decoder and command MACBIN (45_macbinary.md). -/

namespace Sys2Proof.Machine

open Sys2Proof

/-- P, the padding bytes after a data fork of d bytes (30_encoding.md R151). -/
def macPadding (mode : PadMode) (d : Nat) : Nat :=
  match mode with
  | .align => (128 - d % 128) % 128
  | .literalMod => d % 128

/-- The header and fork parse of 45_macbinary.md R220 to R223 over b. -/
def parseMacbinary (p : Params) (b : Bytes) : Except CmdError FileResult := do
  if b.length < 128 then throw ⟨.truncatedInput, 0, .mbParse, 0⟩
  if byteAt b 0x00 ≠ 0 then throw (malformed .mbParse 0x00 .mbZero00)
  let n := (byteAt b 0x01).toNat
  if n < 1 ∨ n > 63 then throw (malformed .mbParse 0x01 .mbNameLen)
  let name := (b.drop 0x02).take n
  let ftype := (b.drop 0x41).take 4
  let fcreator := (b.drop 0x45).take 4
  let flags := (byteAt b p.mbFlagsHiOff).toNat * 256 + (byteAt b 0x65).toNat
  if byteAt b 0x4A ≠ 0 then throw (malformed .mbParse 0x4A .mbZero4A)
  if byteAt b 0x52 ≠ 0 then throw (malformed .mbParse 0x52 .mbZero52)
  let d ← readBE32 .mbParse b 0x53
  if d > 0x7FFFFF then throw (malformed .mbParse 0x53 .mbDataLen)
  let r ← readBE32 .mbParse b 0x57
  if r > 0x7FFFFF then throw (malformed .mbParse 0x57 .mbRsrcLen)
  let data ← readBytes .mbParse b 0x80 d
  let q ← skipBytes .mbParse b (0x80 + d) (macPadding p.mbPadMode d)
  let rsrc ← readBytes .mbParse b q r
  return .macbin ⟨name, ftype, fcreator, flags, data, rsrc⟩

/-- The MacBinary decode of the running command's input. -/
def macbinDecode (s : State) : Except CmdError FileResult := do
  s.checkLength
  parseMacbinary s.params s.input

/-- MACBIN, OP 0x4 (45_macbinary.md R224). -/
def execMacbin (s : State) : Host.Outcome State Fault Refusal :=
  .next (complete ((macbinDecode s).map .record) s)

end Sys2Proof.Machine
end

