-- ==== Sys2Proof/Machine/Pipelines.lean ====
section
/-! DEFINITION. The composed paths BINHEX_DSK and MACBIN_DSK (47_pipelines.md). -/

namespace Sys2Proof.Machine

open Sys2Proof

/-- The DiskCopy stage over the data fork of a complete record (47_pipelines.md R240 to R243): its error
positions are offsets in the data fork, and its failure reports no record. -/
def thenDiskCopy (o : Except CmdError FileResult) : Except CmdError CmdResult := do
  let r ← o
  let d ← diskCopy r.file.data
  return .recordImage r d

/-- BINHEX_DSK, OP 0x6 (47_pipelines.md R240). -/
def execBinhexDsk (s : State) : Host.Outcome State Fault Refusal :=
  .next (complete (thenDiskCopy (binhexDecode s).2) (binhexDecode s).1)

/-- MACBIN_DSK, OP 0x7 (47_pipelines.md R241). -/
def execMacbinDsk (s : State) : Host.Outcome State Fault Refusal :=
  .next (complete (thenDiskCopy (macbinDecode s)) s)

end Sys2Proof.Machine
end

