-- ==== Sys2Proof/Machine/Reserved.lean ====
section
/-! DEFINITION. The reserved OPs: each completes with BadCommand (30_encoding.md R112, 40_command_cycle.md
R161), ERR_INFO.DETAIL the OP. -/

namespace Sys2Proof.Machine

open Sys2Proof

/-- A command with a reserved OP completes with BadCommand before any other check (40_command_cycle.md
R161). -/
def reservedCommand (op : BitVec 4) (s : State) : Host.Outcome State Fault Refusal :=
  .next (complete (.error (badCommand op)) s)

/-- OP 0x0, reserved (30_encoding.md R112). -/
def execReservedOp0 (s : State) : Host.Outcome State Fault Refusal := reservedCommand 0x0 s

/-- OP 0x8, reserved (30_encoding.md R112). -/
def execReservedOp8 (s : State) : Host.Outcome State Fault Refusal := reservedCommand 0x8 s

/-- OP 0x9, reserved (30_encoding.md R112). -/
def execReservedOp9 (s : State) : Host.Outcome State Fault Refusal := reservedCommand 0x9 s

/-- OP 0xA, reserved (30_encoding.md R112). -/
def execReservedOpA (s : State) : Host.Outcome State Fault Refusal := reservedCommand 0xA s

/-- OP 0xB, reserved (30_encoding.md R112). -/
def execReservedOpB (s : State) : Host.Outcome State Fault Refusal := reservedCommand 0xB s

/-- OP 0xC, reserved (30_encoding.md R112). -/
def execReservedOpC (s : State) : Host.Outcome State Fault Refusal := reservedCommand 0xC s

/-- OP 0xD, reserved (30_encoding.md R112). -/
def execReservedOpD (s : State) : Host.Outcome State Fault Refusal := reservedCommand 0xD s

/-- OP 0xE, reserved (30_encoding.md R112). -/
def execReservedOpE (s : State) : Host.Outcome State Fault Refusal := reservedCommand 0xE s

/-- OP 0xF, reserved (30_encoding.md R112). -/
def execReservedOpF (s : State) : Host.Outcome State Fault Refusal := reservedCommand 0xF s

end Sys2Proof.Machine
end

