-- ==== Sys2Proof/Machine/Dispatch.lean ====
section
/-! DEFINITION. The meaning of each operation of spec/opcode_table.json, one arm each. -/

namespace Sys2Proof.Machine

open Sys2Proof

def exec (i : Instr) (s : State) : Host.Outcome State Fault Refusal :=
  match i with
  | .sixbit => Sys2Proof.Machine.execSixbit s
  | .rle => Sys2Proof.Machine.execRle s
  | .binhex => Sys2Proof.Machine.execBinhex s
  | .macbin => Sys2Proof.Machine.execMacbin s
  | .dsk => Sys2Proof.Machine.execDsk s
  | .binhexDsk => Sys2Proof.Machine.execBinhexDsk s
  | .macbinDsk => Sys2Proof.Machine.execMacbinDsk s
  | .reservedOp0 => Sys2Proof.Machine.execReservedOp0 s
  | .reservedOp8 => Sys2Proof.Machine.execReservedOp8 s
  | .reservedOp9 => Sys2Proof.Machine.execReservedOp9 s
  | .reservedOpA => Sys2Proof.Machine.execReservedOpA s
  | .reservedOpB => Sys2Proof.Machine.execReservedOpB s
  | .reservedOpC => Sys2Proof.Machine.execReservedOpC s
  | .reservedOpD => Sys2Proof.Machine.execReservedOpD s
  | .reservedOpE => Sys2Proof.Machine.execReservedOpE s
  | .reservedOpF => Sys2Proof.Machine.execReservedOpF s
  | .ctrlStart ie => Sys2Proof.Machine.execCtrlStart ie s
  | .ctrlSrst start ie => Sys2Proof.Machine.execCtrlSrst start ie s
  | .statusW1C done accErr wrBusy => Sys2Proof.Machine.execStatusW1C done accErr wrBusy s

end Sys2Proof.Machine
end

