-- ==== Sys2Proof/Machine/Step.lean ====
section
/-! DEFINITION. One step: the first event of the agenda, or the engine. -/

namespace Sys2Proof.Machine

open Sys2Proof

/-- One step of the machine: it takes the next event off the agenda and runs it (log entries 3 and 4). -/
def step (s : State) : Host.Outcome State Fault Refusal :=
  match s.action with
  | .run i => exec i s.advance
  | .access x => .next (hostAccess x s.advance)
  | .hardReset => .next (hardReset s.advance)
  | .wait => .next s.advance

/-- s with a table word as what the very next step runs (log entries 5 and 14). -/
def State.withFetchWord (s : State) (nbits w : Nat) : State :=
  placeWord (tableFormat (w % 2 ^ nbits)) (BitVec.ofNat 32 (w % 2 ^ nbits)) s

end Sys2Proof.Machine
end

