-- ==== Sys2Proof/Safety.lean ====
section
/-! DEFINITION. What counts as a safe run, and the vocabulary that the statements use: the layouts of the
formats as the spec draws them, written without the decoder's own functions. -/

namespace Sys2Proof.Machine

open Sys2Proof

/-! ## Words -/

/-- The bits of a register word that carry an operation, format by format; the others are reserved and have no
effect (10_state.md R19 to R21, 30_encoding.md R114). -/
def formatMask : Format → Word
  | .cmdOp => 0xF
  | .ctrlWrite => 0x7
  | .statusWrite => 0x1A

/-! ## What a completion leaves -/

/-- What a successful completion leaves (40_command_cycle.md R163, R164): the given result registers, `out` in
OUT_MEM from offset 0 with every other byte unspecified, IDLE, DONE. -/
def State.afterResult (s : State) (out : Bytes) (res : ResultRegs) : State :=
  { s with
    phase := .idle, done := true, res := res
    outMem := Memory.ofBytes out, outEpoch := s.outEpoch + 1 }

/-- What a completion with an error leaves (40_command_cycle.md R163, R165): the error registers, OUT_MEM
unspecified, IDLE, DONE. -/
def State.afterError (s : State) (code : BitVec 8) (pos : Nat) (detail : BitVec 8) (stage : BitVec 4) :
    State :=
  { s with
    phase := .idle, done := true, err := ⟨code, BitVec.ofNat 32 pos, detail, stage⟩
    outMem := Memory.empty, outEpoch := s.outEpoch + 1 }

/-! ## Accesses -/

/-- The legal accesses, region by region, as 20_memory.md R81 and R82 tabulate them. -/
def SpecLegal (p : Params) (w : Width) (a : Nat) : Prop :=
  (a < 0x100 ∧ w = .word ∧ a % 4 = 0) ∨
  (0x100 ≤ a ∧ a < 0x200 ∧ (w = .byte ∨ a % 4 = 0)) ∨
  (0x1000000 ≤ a ∧ w = .byte ∧ a < 0x1000000 + p.inMemSize) ∨
  (0x1000000 ≤ a ∧ w = .word ∧ a % 4 = 0 ∧ a + 4 ≤ 0x1000000 + p.inMemSize) ∨
  (0x2000000 ≤ a ∧ w = .byte ∧ a < 0x2000000 + p.outMemSize) ∨
  (0x2000000 ≤ a ∧ w = .word ∧ a % 4 = 0 ∧ a + 4 ≤ 0x2000000 + p.outMemSize)

/-- The address of a bus transaction. -/
def hostAddr : HostAccess → Nat
  | .r8 a => a.toNat
  | .r32 a => a.toNat
  | .w8 a _ => a.toNat
  | .w32 a _ => a.toNat

/-- The width of a bus transaction. -/
def hostWidth : HostAccess → Width
  | .r8 _ => .byte
  | .r32 _ => .word
  | .w8 _ _ => .byte
  | .w32 _ _ => .word

/-- The number of bytes of a bus access (20_memory.md R80). -/
def widthBytes : Width → Nat
  | .byte => 1
  | .word => 4

/-- Whether a bus transaction is a read. -/
def isHostRead : HostAccess → Bool
  | .r8 _ => true
  | .r32 _ => true
  | .w8 _ _ => false
  | .w32 _ _ => false

/-- Four consecutive bytes as little-endian lanes assemble them, as a number (20_memory.md R84, R89). -/
def leNat (b0 b1 b2 b3 : Byte) : Nat := b0.toNat + 2 ^ 8 * b1.toNat + 2 ^ 16 * b2.toNat + 2 ^ 24 * b3.toNat

/-- The value of each register after reset (10_state.md R16, column "reset"). -/
def resetValue (p : Params) : RegName → Word
  | .id => 0x42485844
  | .version => 1
  | .capIn => BitVec.ofNat 32 p.inMemSize
  | .capOut => BitVec.ofNat 32 p.outMemSize
  | .capXs => BitVec.ofNat 32 p.xsSize
  | .ctrl => 0
  | .cmd => 0
  | .inLen => 0
  | .status => 0
  | .errCode => 0
  | .errPos => 0
  | .errInfo => 0
  | .result => 0
  | .outLen => 0
  | .dforkLen => 0
  | .rforkLen => 0
  | .nameLen => 0
  | .ftype => 0
  | .fcreator => 0
  | .fflags => 0
  | .hcrc => 0
  | .dcrc => 0
  | .rcrc => 0
  | .imgSize => 0

/-- The bits of a register that a write can affect (10_state.md R19, R20, R21, R38); every other bit is
read-only or reserved. -/
def writeMask : RegName → Word
  | .ctrl => 0x7
  | .cmd => 0xF
  | .inLen => 0xFFFFFFFF
  | .status => 0x1A
  | .id => 0
  | .version => 0
  | .capIn => 0
  | .capOut => 0
  | .capXs => 0
  | .errCode => 0
  | .errPos => 0
  | .errInfo => 0
  | .result => 0
  | .outLen => 0
  | .dforkLen => 0
  | .rforkLen => 0
  | .nameLen => 0
  | .ftype => 0
  | .fcreator => 0
  | .fflags => 0
  | .hcrc => 0
  | .dcrc => 0
  | .rcrc => 0
  | .imgSize => 0

/-! ## The six-bit text -/

/-- The 6-bit values that a text carries: the alphabet index of each byte that is not whitespace
(30_encoding.md R121, R127). -/
def textValues (p : Params) (text : Bytes) : List Nat :=
  (text.filter fun c => c ∉ p.whitespace).map fun c => p.alphabet.idxOf c

/-- Every byte of a text is whitespace or an alphabet byte (43_sixbit.md R196). -/
def TextValid (p : Params) (text : Bytes) : Prop := ∀ c ∈ text, c ∈ p.whitespace ∨ c ∈ p.alphabet

/-- The group word G of at most 8 values, v0 in bits 47:42, absent values 0 (30_encoding.md R128). -/
def groupWord (vs : List Nat) : Nat :=
  ((List.range 8).map fun i => vs.getD i 0 * 2 ^ (42 - 6 * i)).sum

/-- The bytes that a sequence of values demodulates to: for each started group of 8, G[47-8j : 40-8j] for j in
0..5 (30_encoding.md R128, 43_sixbit.md R198). -/
def demodulated (vs : List Nat) : Bytes :=
  (List.range ((vs.length + 7) / 8)).flatMap fun g =>
    (List.range 6).map fun j => BitVec.ofNat 8 (groupWord (vs.drop (8 * g)) / 2 ^ (40 - 8 * j))

/-! ## The RLE token stream -/

/-- The three token forms (30_encoding.md R130). -/
inductive RleToken where
  | literal (b : Byte)
  | escaped
  | run (n : Byte)
  deriving DecidableEq, Repr

/-- A literal is not the escape byte; a run's count is not 0 (30_encoding.md R130). -/
def RleToken.Ok : RleToken → Prop
  | .literal b => b ≠ 0x90
  | .escaped => True
  | .run n => n ≠ 0

/-- A token's bytes (30_encoding.md R130). -/
def RleToken.bytes : RleToken → Bytes
  | .literal b => [b]
  | .escaped => [0x90, 0x00]
  | .run n => [0x90, n]

/-- The output after one more token (42_rle.md R186 to R188). -/
def RleToken.emitTo (out : Bytes) : RleToken → Bytes
  | .literal b => out ++ [b]
  | .escaped => out ++ [0x90]
  | .run n => out ++ List.replicate (n.toNat - 1) (out.getLastD 0)

/-- The bytes of a token stream. -/
def tokenBytes (ts : List RleToken) : Bytes := ts.flatMap RleToken.bytes

/-- The bytes a token stream stands for. -/
def expandTokens (ts : List RleToken) : Bytes := ts.foldl RleToken.emitTo []

/-- Every token is of one of the three forms and the first one is no run (42_rle.md R190). -/
def TokensOk (ts : List RleToken) : Prop := (∀ t ∈ ts, t.Ok) ∧ ∀ n, ts.head? ≠ some (.run n)

/-! ## The container layouts -/

/-- A 16-bit field, big-endian (20_memory.md R88). -/
def be16Bytes (v : BitVec 16) : Bytes := [v.extractLsb' 8 8, v.extractLsb' 0 8]

/-- A 32-bit field, big-endian (20_memory.md R88). -/
def be32Bytes (v : Word) : Bytes :=
  [v.extractLsb' 24 8, v.extractLsb' 16 8, v.extractLsb' 8 8, v.extractLsb' 0 8]

/-- BE32 at an offset inside a buffer (41_bytecursor.md R182). -/
def be32At (b : Bytes) (off : Nat) : Nat :=
  (byteAt b off).toNat * 2 ^ 24 + (byteAt b (off + 1)).toNat * 2 ^ 16 + (byteAt b (off + 2)).toNat * 2 ^ 8 +
    (byteAt b (off + 3)).toNat

/-- Four bytes as a register holds a 4-character code, the first in bits 31:24 (10_state.md R29). -/
def codeWord (c0 c1 c2 c3 : Byte) : Word := c0 ++ c1 ++ c2 ++ c3

/-- The fields of a BinHex record (30_encoding.md R133). -/
structure BinhexFields where
  name : Bytes
  t0 : Byte
  t1 : Byte
  t2 : Byte
  t3 : Byte
  c0 : Byte
  c1 : Byte
  c2 : Byte
  c3 : Byte
  flags : BitVec 16
  hcrc : BitVec 16
  data : Bytes
  dcrc : BitVec 16
  rsrc : Bytes
  rcrc : BitVec 16

/-- The record's bytes, field after field (30_encoding.md R133). -/
def BinhexFields.bytes (f : BinhexFields) : Bytes :=
  [BitVec.ofNat 8 f.name.length] ++ f.name ++ [0x00] ++ [f.t0, f.t1, f.t2, f.t3] ++
    [f.c0, f.c1, f.c2, f.c3] ++ be16Bytes f.flags ++ be32Bytes (BitVec.ofNat 32 f.data.length) ++
    be32Bytes (BitVec.ofNat 32 f.rsrc.length) ++ be16Bytes f.hcrc ++ f.data ++ be16Bytes f.dcrc ++
    f.rsrc ++ be16Bytes f.rcrc

/-- The lengths a BinHex record can hold: the name's in a byte, and in [1,63] when BH_NAME_CHECK is TRUE
(44_binhex.md R210); each fork's nonnegative as a two's complement 32-bit field (R212). -/
def BinhexFields.Fits (p : Params) (f : BinhexFields) : Prop :=
  f.name.length ≤ 255 ∧ (p.bhNameCheck = true → 1 ≤ f.name.length ∧ f.name.length ≤ 63) ∧
    f.data.length < 2 ^ 31 ∧ f.rsrc.length < 2 ^ 31

/-- The registers of a BinHexRecord but OUT_LEN (44_binhex.md R215). -/
def BinhexFields.regs (f : BinhexFields) (q : ResultRegs) : ResultRegs :=
  { q with
    recKind := 1
    dforkLen := BitVec.ofNat 32 f.data.length, rforkLen := BitVec.ofNat 32 f.rsrc.length
    nameLen := BitVec.ofNat 8 f.name.length
    name := Vector.ofFn fun i => f.name.getD i 0x00
    ftype := codeWord f.t0 f.t1 f.t2 f.t3, fcreator := codeWord f.c0 f.c1 f.c2 f.c3
    fflags := f.flags, hcrc := f.hcrc, dcrc := f.dcrc, rcrc := f.rcrc }

/-- SIG occurs in t at offset j (44_binhex.md R205). -/
def SigAt (t : Bytes) (j : Nat) : Prop := binhexSignature <+: t.drop j

/-- t is prefix ++ SIG ++ gap ++ ":" ++ payload ++ ":" ++ suffix with SIG's first occurrence after the prefix
and no colon in gap or payload (30_encoding.md R120). -/
def IsBinhexText (t pre gap payload suf : Bytes) : Prop :=
  t = pre ++ binhexSignature ++ gap ++ [0x3A] ++ payload ++ [0x3A] ++ suf ∧
    (∀ j < pre.length, ¬ SigAt t j) ∧ (0x3A : Byte) ∉ gap ∧ (0x3A : Byte) ∉ payload

/-- The text demodulates and expands to the record f followed by bytes that are ignored: its payload is valid
six-bit text, the values demodulate to the token stream ts, and ts expands to f's bytes and `junk`, which fit
XS (44_binhex.md R205 to R209, 30_encoding.md R134). -/
def CarriesRecord (s : State) (pre gap payload suf : Bytes) (ts : List RleToken) (f : BinhexFields)
    (junk : Bytes) : Prop :=
  IsBinhexText s.input pre gap payload suf ∧ TextValid s.params payload ∧
    demodulated (textValues s.params payload) = tokenBytes ts ∧ TokensOk ts ∧
    expandTokens ts = f.bytes ++ junk ∧ (expandTokens ts).length ≤ s.params.xsSize ∧ f.Fits s.params

/-- The padding after a MacBinary data fork (30_encoding.md R151). -/
def specPadding (p : Params) (d : Nat) : Nat :=
  if p.mbPadMode = .align then (128 - d % 128) % 128 else d % 128

/-- The checks of a MacBinary header, all passed (45_macbinary.md R220, R221). -/
def MacHeaderOk (b : Bytes) : Prop :=
  128 ≤ b.length ∧ byteAt b 0x00 = 0 ∧ 1 ≤ (byteAt b 0x01).toNat ∧ (byteAt b 0x01).toNat ≤ 63 ∧
    byteAt b 0x4A = 0 ∧ byteAt b 0x52 = 0 ∧ be32At b 0x53 ≤ 0x7FFFFF ∧ be32At b 0x57 ≤ 0x7FFFFF

/-- The whole MacBinary file is there: header, data fork, padding, resource fork (45_macbinary.md R222,
R223). -/
def MacFileOk (p : Params) (b : Bytes) : Prop :=
  MacHeaderOk b ∧
    0x80 + be32At b 0x53 + specPadding p (be32At b 0x53) + be32At b 0x57 ≤ b.length

/-- The data fork of a MacBinary file (30_encoding.md R150). -/
def macData (b : Bytes) : Bytes := (b.drop 0x80).take (be32At b 0x53)

/-- The resource fork of a MacBinary file (30_encoding.md R151). -/
def macRsrc (p : Params) (b : Bytes) : Bytes :=
  (b.drop (0x80 + be32At b 0x53 + specPadding p (be32At b 0x53))).take (be32At b 0x57)

/-- The registers of a MacBinaryRecord but OUT_LEN (45_macbinary.md R224). -/
def macRegs (p : Params) (b : Bytes) (q : ResultRegs) : ResultRegs :=
  { q with
    recKind := 2
    dforkLen := BitVec.ofNat 32 (be32At b 0x53), rforkLen := BitVec.ofNat 32 (be32At b 0x57)
    nameLen := byteAt b 0x01
    name := Vector.ofFn fun i => if i.val < (byteAt b 0x01).toNat then byteAt b (2 + i.val) else 0x00
    ftype := codeWord (byteAt b 0x41) (byteAt b 0x42) (byteAt b 0x43) (byteAt b 0x44)
    fcreator := codeWord (byteAt b 0x45) (byteAt b 0x46) (byteAt b 0x47) (byteAt b 0x48)
    fflags := byteAt b p.mbFlagsHiOff ++ byteAt b 0x65 }

/-- A buffer is a whole DiskCopy 4.2 image (46_diskcopy.md R230). -/
def DiskCopyOk (b : Bytes) : Prop :=
  409600 ≤ b.length ∧ byteAt b 0x52 = 0x01 ∧ byteAt b 0x53 = 0x00 ∧
    (be32At b 0x40 = 409600 ∨ be32At b 0x40 = 819200 ∨ be32At b 0x40 = 1474560) ∧
    0x54 + be32At b 0x40 ≤ b.length

/-- The code and position of the first check that a buffer fails as a DiskCopy 4.2 image, in the order of
46_diskcopy.md R230; none where it is a whole image. -/
def diskError (b : Bytes) : Option (BitVec 8 × Nat) :=
  if b.length < 409600 then some (0x08, b.length)
  else if byteAt b 0x52 ≠ 0x01 then some (0x09, 0x52)
  else if byteAt b 0x53 ≠ 0x00 then some (0x09, 0x53)
  else if be32At b 0x40 ∉ [409600, 819200, 1474560] then some (0x0A, 0x40)
  else if b.length < 0x54 + be32At b 0x40 then some (0x07, 0x54)
  else none

/-- The sectors of a DiskCopy image (46_diskcopy.md R236). -/
def diskData (b : Bytes) : Bytes := (b.drop 0x54).take (be32At b 0x40)

/-- The registers of a DiskImage, OUT_LEN among them (46_diskcopy.md R237). -/
def diskRegs (b : Bytes) (q : ResultRegs) : ResultRegs :=
  { q with
    img := true, outLen := BitVec.ofNat 32 (be32At b 0x40), imgSize := BitVec.ofNat 32 (be32At b 0x40)
    hdr := Vector.ofFn fun i => byteAt b i.val }

/-! ## Safe states -/

/-- Every memory is in its canonical form. -/
def State.MemoriesCanonical (s : State) : Prop := s.inMem.wf ∧ s.outMem.wf ∧ s.s1.wf ∧ s.xs.wf

/-- While BUSY the result and error registers, the windows and DONE read 0 (20_memory.md R86). -/
def State.BusyClear (s : State) : Prop :=
  s.phase = .busy → s.res = ResultRegs.zero ∧ s.err = ErrRegs.zero ∧ s.done = false

/-- An error is reported with no result, and no error code with no error position and no error info
(40_command_cycle.md R165, 10_state.md R23, R24). -/
def State.ErrorExcludesResult (s : State) : Prop :=
  (s.err.code ≠ 0 → s.res = ResultRegs.zero) ∧ (s.err.code = 0 → s.err = ErrRegs.zero)

/-- After a completion, ERR_CODE is 0 if and only if RESULT is not 0 (40_command_cycle.md R166). -/
def State.CompletionReported (s : State) : Prop :=
  s.done = true → (s.err.code = 0 ↔ s.res.resultWord ≠ 0)

/-- The values that the result registers can show together: REC is never 3; without a record the fork lengths,
NAME_LEN, the NAME window, FTYPE, FCREATOR and FFLAGS are 0; without a BinHex record the CRCs are 0; without an
image IMG_SIZE and the HDR window are 0; with one, IMG_SIZE is one of the three sizes and equals OUT_LEN; the
bytes of the NAME window from NAME_LEN on are 0 (10_state.md R25, R27 to R32, R40, R41, 40_command_cycle.md R164). -/
def ResultRegs.Shaped (r : ResultRegs) : Prop :=
  r.recKind ≠ 3 ∧
  (r.recKind = 0 → r.dforkLen = 0 ∧ r.rforkLen = 0 ∧ r.nameLen = 0 ∧ r.name = Vector.replicate 64 0 ∧
    r.ftype = 0 ∧ r.fcreator = 0 ∧ r.fflags = 0) ∧
  (r.recKind ≠ 1 → r.hcrc = 0 ∧ r.dcrc = 0 ∧ r.rcrc = 0) ∧
  (r.img = false → r.imgSize = 0 ∧ r.hdr = Vector.replicate 84 0) ∧
  (r.img = true → r.imgSize = r.outLen ∧ r.imgSize.toNat ∈ [409600, 819200, 1474560]) ∧
  (∀ i : Fin 64, r.nameLen.toNat ≤ i.val → r.name[i.val] = 0)

/-- The error registers hold only the codes of 30_encoding.md R115 and the stages of R116. -/
def ErrRegs.Named (e : ErrRegs) : Prop :=
  e.code ∈ [0x00, 0x01, 0x02, 0x03, 0x04, 0x05, 0x06, 0x07, 0x08, 0x09, 0x0A, 0x10, 0x11, 0x12] ∧
    e.stage.toNat ≤ 6

/-- The output lies inside OUT_MEM and the specified bytes of IN_MEM and OUT_MEM inside those memories
(10_state.md R34, R35, 00_scope.md R7). -/
def State.WithinMemories (s : State) : Prop :=
  s.res.outLen.toNat ≤ s.params.outMemSize ∧ (∀ c ∈ s.inMem.cells, c.1 < s.params.inMemSize) ∧
    ∀ c ∈ s.outMem.cells, c.1 < s.params.outMemSize

end Sys2Proof.Machine
end

