-- ==== Sys2Proof/Certificates/Slice0/Obligations.lean ====
section
/-! DEFINITION. The statements for the provers, one definition each. Statements about a command give the whole
next state, so what they do not name is unchanged. -/

open Sys2Proof Sys2Proof.Machine

/-! ## Encoding -/

/-- Decode and encode agree for every operation of spec/opcode_table.json: no operand bit is dropped, and a
word that decodes is its operation's encoding but for its reserved bits. -/
def Obligations.DecodeAndEncodeAgree : Prop :=
  (∀ i : Instr, decode (encode i).1 (encode i).2 = .ok i) ∧
  ∀ (f : Format) (w : Word) (i : Instr), decode f w = .ok i → encode i = (f, w &&& formatMask f)

/-- The sixteen OP words and some CTRL and STATUS words, written out from the encoding tables
(30_encoding.md R110, R114). -/
def Obligations.TableWordsDecode : Prop :=
  (∀ w i, (w, i) ∈
      [((0x0 : Word), Instr.reservedOp0), (0x1, .sixbit), (0x2, .rle), (0x3, .binhex), (0x4, .macbin),
       (0x5, .dsk), (0x6, .binhexDsk), (0x7, .macbinDsk), (0x8, .reservedOp8), (0x9, .reservedOp9),
       (0xA, .reservedOpA), (0xB, .reservedOpB), (0xC, .reservedOpC), (0xD, .reservedOpD),
       (0xE, .reservedOpE), (0xF, .reservedOpF)] → decode .cmdOp w = .ok i) ∧
  decode .ctrlWrite 0x1 = .ok (.ctrlStart false) ∧ decode .ctrlWrite 0x3 = .ok (.ctrlStart true) ∧
  decode .ctrlWrite 0x4 = .ok (.ctrlSrst false false) ∧ decode .ctrlWrite 0x5 = .ok (.ctrlSrst true false) ∧
  decode .ctrlWrite 0x2 = .error .plainCtrlWrite ∧
  decode .statusWrite 0x1A = .ok (.statusW1C true true true) ∧
  decode .statusWrite 0x2 = .ok (.statusW1C true false false)

/-- 30_encoding.md R114, whole: which CTRL writes are START and which are SRST, which bits of a STATUS write
acknowledge, and that the reserved bits of any register write have no effect. -/
def Obligations.ControlWritesAndReservedBits : Prop :=
  (∀ (w : Word) (ie : Bool), decode .ctrlWrite w = .ok (.ctrlStart ie) ↔
      w.getLsbD 0 = true ∧ w.getLsbD 2 = false ∧ w.getLsbD 1 = ie) ∧
  (∀ (w : Word) (st ie : Bool), decode .ctrlWrite w = .ok (.ctrlSrst st ie) ↔
      w.getLsbD 2 = true ∧ w.getLsbD 0 = st ∧ w.getLsbD 1 = ie) ∧
  (∀ (w : Word) (d a b : Bool), decode .statusWrite w = .ok (.statusW1C d a b) ↔
      w.getLsbD 1 = d ∧ w.getLsbD 3 = a ∧ w.getLsbD 4 = b) ∧
  ∀ (r : RegName) (v v' : Word) (s : State),
    v &&& writeMask r = v' &&& writeMask r → writeReg r v s = writeReg r v' s

/-! ## What a step runs -/

/-- A step runs the decoded operation: the latched command when it is a BUSY engine's turn, and the operation a
CTRL or STATUS write is; an IDLE engine's turn changes nothing (70_reset_and_hazards.md R343). Whose turn it is
is what the agenda says, which is the model's (log entries 3, 20). -/
def Obligations.StepRunsDecodedOperation : Prop :=
  (∀ s : State, s.phase = .busy → (s.agenda = [] ∨ s.agenda.head? = some .engine) →
    step s = exec (decodeOp s.latchOp) { s with agenda := s.agenda.tail }) ∧
  (∀ s : State, s.phase = .idle → (s.agenda = [] ∨ s.agenda.head? = some .engine) →
    step s = .next { s with agenda := s.agenda.tail }) ∧
  (∀ (s : State) (v : Word) (i : Instr) (rest : List Event),
    s.agenda = .host (.w32 0x14 v) :: rest → decode .ctrlWrite v = .ok i →
    step s = exec i { s with agenda := rest }) ∧
  ∀ (s : State) (v : Word) (i : Instr) (rest : List Event),
    s.agenda = .host (.w32 0x20 v) :: rest → decode .statusWrite v = .ok i →
    step s = exec i { s with agenda := rest }

/-- Every host transaction, an operation of the table or not, does what the bus rules say and nothing else. -/
def Obligations.StepRunsEveryBusAccess : Prop :=
  ∀ (s : State) (x : HostAccess) (rest : List Event), s.agenda = .host x :: rest →
    step s = .next (hostAccess x { s with agenda := rest })

/-- No step faults or is refused. -/
def Obligations.StepNeverStops : Prop := ∀ s : State, ∃ t, step s = .next t

/-- 70_reset_and_hazards.md R350 as the model has it (log entry 4): a BUSY engine is IDLE again after at most
as many steps as the agenda has events, and one more. -/
def Obligations.AcceptedCommandEnds : Prop :=
  ∀ s : State, s.phase = .busy →
    ∃ k ≤ s.agenda.length + 1, ∃ t : State, Sys2Proof.core.run k s = .next t ∧ t.phase = .idle

/-! ## START, soft reset, STATUS writes -/

/-- 40_command_cycle.md R160: an accepted START, and that a START while BUSY latches and clears nothing. -/
def Obligations.StartAcceptedOnlyWhenIdle : Prop :=
  ∀ (s : State) (v : Word) (rest : List Event),
    s.agenda = .host (.w32 0x14 v) :: rest → v.getLsbD 0 = true → v.getLsbD 2 = false →
    (s.phase = .idle →
      ∃ t : State, step s = .next t ∧ exec (.ctrlStart (v.getLsbD 1)) { s with agenda := rest } = .next t ∧
        t = { s with
              agenda := rest, ie := v.getLsbD 1, latchOp := s.cmdOp, latchLen := s.inLen
              err := ⟨0, 0, 0, 0⟩, res := ResultRegs.zero, done := false, phase := .busy } ∧
        t.errFlag = false ∧ t.irq = false ∧
        (∀ r, r ∈ [RegName.errCode, .errPos, .errInfo, .result, .outLen, .dforkLen, .rforkLen, .nameLen,
            .ftype, .fcreator, .fflags, .hcrc, .dcrc, .rcrc, .imgSize] → readReg r t = 0) ∧
        ∀ a : Nat, 0x100 ≤ a → a < 0x200 → byteSeen t a = 0) ∧
    (s.phase = .busy →
      ∃ t : State, step s = .next t ∧ t.phase = .busy ∧ t.latchOp = s.latchOp ∧ t.latchLen = s.latchLen ∧
        t.err = s.err ∧ t.res = s.res ∧ t.done = s.done)

/-- 70_reset_and_hazards.md R347: a START while BUSY. -/
def Obligations.StartNotAcceptedWhenBusy : Prop :=
  ∀ (s : State) (v : Word) (rest : List Event),
    s.agenda = .host (.w32 0x14 v) :: rest → v.getLsbD 0 = true → v.getLsbD 2 = false → s.phase = .busy →
    step s = .next { s with agenda := rest, ie := v.getLsbD 1, wrBusy := true }

/-- 70_reset_and_hazards.md R341, R342: the soft reset, START and IE of the same write ignored
(10_state.md R19); what becomes unspecified is listed no more and takes a new epoch (log entries 7, 9). Every
register then reads its reset value and every byte of IN_MEM, and of OUT_MEM if the engine was IDLE, as
before. -/
def Obligations.SoftResetEffect : Prop :=
  ∀ (s : State) (start ie : Bool), ∃ t : State,
    exec (.ctrlSrst start ie) s = .next t ∧
      t = { s with
        phase := .idle, ie := false, cmdOp := 0, inLen := 0, done := false, accErr := false, wrBusy := false
        err := ⟨0, 0, 0, 0⟩, res := ResultRegs.zero, latchOp := 0, latchLen := 0
        outMem := if s.phase = .busy then Memory.empty else s.outMem
        outEpoch := if s.phase = .busy then s.outEpoch + 1 else s.outEpoch
        s1 := if s.phase = .busy then Memory.empty else s.s1
        xs := if s.phase = .busy then Memory.empty else s.xs } ∧
      (∀ k, t.inByte k = s.inByte k) ∧ (s.phase = .idle → ∀ k, t.outByte k = s.outByte k) ∧
      (∀ r, readReg r t = resetValue s.params r) ∧
      ∀ a : Nat, 0x100 ≤ a → a < 0x200 → byteSeen t a = 0

/-- 10_state.md R21: a STATUS write clears each W1C bit written as 1 and leaves every other bit. -/
def Obligations.StatusWriteClearsBits : Prop :=
  ∀ (s : State) (d a w : Bool),
    exec (.statusW1C d a w) s = .next
      { s with
        done := if d then false else s.done, accErr := if a then false else s.accErr
        wrBusy := if w then false else s.wrBusy }

/-- The bits of STATUS (10_state.md R21) and the IRQ line (60_exceptions.md R308). -/
def Obligations.StatusWordBits : Prop :=
  ∀ (s : State) (k : Nat),
    (readReg .status s).getLsbD k =
      match k with
      | 0 => decide (s.phase = .busy)
      | 1 => s.done
      | 2 => decide (s.err.code ≠ 0)
      | 3 => s.accErr
      | 4 => s.wrBusy
      | 5 => s.done && s.ie
      | _ => false

/-- 10_state.md R19: the CTRL register, written, read and after reset, and what IE enables. -/
def Obligations.CtrlRegister : Prop :=
  (∀ (s : State) (v : Word) (rest : List Event), s.agenda = .host (.w32 0x14 v) :: rest →
    (v.getLsbD 2 = true → step s = exec (.ctrlSrst false false) { s with agenda := rest }) ∧
    (v.getLsbD 2 = false → v.getLsbD 0 = true →
      step s = exec (.ctrlStart (v.getLsbD 1)) { s with agenda := rest } ∧
        ∃ t, step s = .next t ∧ t.ie = v.getLsbD 1) ∧
    (v.getLsbD 2 = false → v.getLsbD 0 = false →
      step s = .next { s with agenda := rest, ie := v.getLsbD 1 })) ∧
  (∀ (s : State) (k : Nat), (readReg .ctrl s).getLsbD k = (decide (k = 1) && s.ie)) ∧
  readReg .ctrl State.reset = 0x00000000 ∧ ∀ s : State, s.irq = (s.done && s.ie)

/-- DONE rises only in a completion: the engine was BUSY and is IDLE after it (60_exceptions.md R308). -/
def Obligations.DoneRisesOnlyAtCompletion : Prop :=
  ∀ s t : State, step s = .next t → s.done = false → t.done = true →
    s.phase = .busy ∧ t.phase = .idle ∧ (s.agenda = [] ∨ s.agenda.head? = some .engine)

/-! ## Reset -/

/-- 10_state.md R46: what a hard reset leaves, for every state it may come in. The memories are unspecified:
nothing of them is listed, and their free values are new ones (log entries 7, 8, 9, 11). -/
def Obligations.HardResetLeavesResetState : Prop :=
  ∀ (s : State) (rest : List Event), s.agenda = .hardReset :: rest →
    ∃ t : State, step s = .next t ∧ (∀ r, readReg r t = resetValue s.params r) ∧
      t.phase = .idle ∧ t.latchOp = 0 ∧ t.latchLen = 0 ∧ t.irq = false ∧
      (∀ a : Nat, 0x100 ≤ a → a < 0x200 → byteSeen t a = 0) ∧
      (∀ k, t.inByte k = Config.unspecInByte (s.inEpoch + 1) k) ∧
      (∀ k, t.outByte k = Config.unspecOutByte (s.outEpoch + 1) k) ∧
      t.s1 = Memory.empty ∧ t.xs = Memory.empty ∧ t.params = s.params ∧ t.agenda = rest

/-- The machine's reset state reads as the table of 10_state.md R16 says, is IDLE and has the default
parameters (the model's choice among those of 00_scope.md R7, log entry 2), which are legal. -/
def Obligations.ResetStateReads : Prop :=
  (∀ r, readReg r State.reset = resetValue Params.default r) ∧ State.reset.phase = .idle ∧
    State.reset.latchOp = 0 ∧ State.reset.latchLen = 0 ∧ State.reset.irq = false ∧
    State.reset.params = Params.default ∧ Params.default.Legal

/-! ## The bus -/

/-- The legal accesses are those of 20_memory.md R81 and R82. -/
def Obligations.LegalAccesses : Prop :=
  ∀ (p : Params) (w : Width) (a : Nat), p.Legal → (legalAccess p w a = true ↔ SpecLegal p w a)

/-- 20_memory.md R83: an illegal access sets ACC_ERR, reads 0 and does nothing else; ACC_ERR stays 1 until a
STATUS write with 1 to it, or a reset (10_state.md R21). -/
def Obligations.IllegalAccessOnlySetsAccErr : Prop :=
  (∀ (s : State) (x : HostAccess) (rest : List Event), s.params.Legal → s.agenda = .host x :: rest →
    ¬ SpecLegal s.params (hostWidth x) (hostAddr x) →
    step s = .next
      { s with agenda := rest, accErr := true, readData := if isHostRead x then 0 else s.readData }) ∧
  ∀ s t : State, step s = .next t → s.accErr = true → t.accErr = false →
    s.agenda.head? = some .hardReset ∨
      (∃ v : Word, s.agenda.head? = some (.host (.w32 0x20 v)) ∧ v.getLsbD 3 = true) ∨
      ∃ v : Word, s.agenda.head? = some (.host (.w32 0x14 v)) ∧ v.getLsbD 2 = true

/-- 20_memory.md R84: the host's reads and writes of IN_MEM, in both phases. -/
def Obligations.InMemHostAccess : Prop :=
  ∀ (s : State) (a : Word) (k : Nat) (rest : List Event), s.params.Legal → a.toNat = 0x1000000 + k →
    (s.agenda = .host (.r8 a) :: rest → k < s.params.inMemSize →
      step s = .next { s with agenda := rest, readData := (s.inByte k).setWidth 32 }) ∧
    (s.agenda = .host (.r32 a) :: rest → k % 4 = 0 → k + 4 ≤ s.params.inMemSize →
      ∃ t, step s = .next t ∧ t = { s with agenda := rest, readData := t.readData } ∧
        t.readData.toNat = leNat (s.inByte k) (s.inByte (k + 1)) (s.inByte (k + 2)) (s.inByte (k + 3))) ∧
    (∀ v : Byte, s.agenda = .host (.w8 a v) :: rest → k < s.params.inMemSize →
      (s.phase = .busy → step s = .next { s with agenda := rest, wrBusy := true }) ∧
      (s.phase = .idle → ∃ t, step s = .next t ∧ t = { s with agenda := rest, inMem := t.inMem } ∧
        t.inByte k = v ∧ ∀ j, j ≠ k → t.inByte j = s.inByte j)) ∧
    (∀ v : Word, s.agenda = .host (.w32 a v) :: rest → k % 4 = 0 → k + 4 ≤ s.params.inMemSize →
      (s.phase = .busy → step s = .next { s with agenda := rest, wrBusy := true }) ∧
      (s.phase = .idle → ∃ t, step s = .next t ∧ t = { s with agenda := rest, inMem := t.inMem } ∧
        v.toNat = leNat (t.inByte k) (t.inByte (k + 1)) (t.inByte (k + 2)) (t.inByte (k + 3)) ∧
        ∀ j, (j < k ∨ k + 4 ≤ j) → t.inByte j = s.inByte j))

/-- 20_memory.md R85 as the model has it: reads of OUT_MEM while IDLE, fresh free values while BUSY (log entry
10), writes ignored; and what the bytes then are after a success: the output from offset 0, every other byte a
free value of a new epoch (10_state.md R35, 40_command_cycle.md R164, log entry 9). -/
def Obligations.OutMemHostAccess : Prop :=
  (∀ (s : State) (out : Bytes) (res : ResultRegs),
    (∀ (k : Nat) (h : k < out.length), (s.afterResult out res).outByte k = out[k]) ∧
    ∀ k : Nat, out.length ≤ k →
      (s.afterResult out res).outByte k = Config.unspecOutByte (s.outEpoch + 1) k) ∧
  ∀ (s : State) (a : Word) (k : Nat) (rest : List Event), s.params.Legal → a.toNat = 0x2000000 + k →
    (s.agenda = .host (.r8 a) :: rest → k < s.params.outMemSize →
      (s.phase = .idle →
        step s = .next { s with agenda := rest, readData := (s.outByte k).setWidth 32 }) ∧
      (s.phase = .busy →
        step s = .next { s with
          agenda := rest, busyDraws := s.busyDraws + 1
          readData := (Config.busyOutByte s.busyDraws k).setWidth 32 })) ∧
    (s.agenda = .host (.r32 a) :: rest → k % 4 = 0 → k + 4 ≤ s.params.outMemSize →
      ∃ t, step s = .next t ∧
        (s.phase = .idle → t = { s with agenda := rest, readData := t.readData } ∧
          t.readData.toNat =
            leNat (s.outByte k) (s.outByte (k + 1)) (s.outByte (k + 2)) (s.outByte (k + 3))) ∧
        (s.phase = .busy →
          t = { s with agenda := rest, readData := t.readData, busyDraws := s.busyDraws + 1 } ∧
          t.readData.toNat =
            leNat (Config.busyOutByte s.busyDraws k) (Config.busyOutByte s.busyDraws (k + 1))
              (Config.busyOutByte s.busyDraws (k + 2)) (Config.busyOutByte s.busyDraws (k + 3)))) ∧
    (∀ v : Byte, s.agenda = .host (.w8 a v) :: rest → k < s.params.outMemSize →
      step s = .next { s with agenda := rest }) ∧
    ∀ v : Word, s.agenda = .host (.w32 a v) :: rest → k % 4 = 0 → k + 4 ≤ s.params.outMemSize →
      step s = .next { s with agenda := rest }

/-- 20_memory.md R87: reads of the NAME, HDR and reserved windows, as bytes and as words; writes there are
ignored (R82). -/
def Obligations.WindowHostAccess : Prop :=
  ∀ (s : State) (a : Word) (rest : List Event), 0x100 ≤ a.toNat → a.toNat < 0x200 →
    (∀ i : Fin 64, byteSeen s (0x100 + i.val) = s.res.name[i.val]) ∧
    (∀ i : Fin 84, byteSeen s (0x140 + i.val) = s.res.hdr[i.val]) ∧
    (∀ o, 0x194 ≤ o → o < 0x200 → byteSeen s o = 0) ∧
    (s.agenda = .host (.r8 a) :: rest →
      step s = .next { s with agenda := rest, readData := (byteSeen s a.toNat).setWidth 32 }) ∧
    (s.agenda = .host (.r32 a) :: rest → a.toNat % 4 = 0 →
      ∃ t, step s = .next t ∧ t = { s with agenda := rest, readData := t.readData } ∧
        t.readData.toNat = leNat (byteSeen s a.toNat) (byteSeen s (a.toNat + 1)) (byteSeen s (a.toNat + 2))
          (byteSeen s (a.toNat + 3))) ∧
    (∀ v : Byte, s.agenda = .host (.w8 a v) :: rest → step s = .next { s with agenda := rest }) ∧
    ∀ v : Word, s.agenda = .host (.w32 a v) :: rest → a.toNat % 4 = 0 →
      step s = .next { s with agenda := rest }

/-- 10_state.md R33: the reserved registers read 0 and ignore writes, with no status change. -/
def Obligations.ReservedRegistersRazWi : Prop :=
  ∀ (s : State) (a : Word) (rest : List Event), 0x60 ≤ a.toNat → a.toNat ≤ 0xFC → a.toNat % 4 = 0 →
    (s.agenda = .host (.r32 a) :: rest → step s = .next { s with agenda := rest, readData := 0 }) ∧
    ∀ v : Word, s.agenda = .host (.w32 a v) :: rest → step s = .next { s with agenda := rest }

/-- 10_state.md R17, R18: ID, VERSION and the CAP registers read their constants at all times and ignore
writes. -/
def Obligations.ConstantRegisters : Prop :=
  ∀ (s : State) (a : Word) (c : Word) (rest : List Event),
    (a, c) ∈ [((0x000 : Word), (0x42485844 : Word)), (0x004, 0x00000001),
        (0x008, BitVec.ofNat 32 s.params.inMemSize), (0x00C, BitVec.ofNat 32 s.params.outMemSize),
        (0x010, BitVec.ofNat 32 s.params.xsSize)] →
    (s.agenda = .host (.r32 a) :: rest → step s = .next { s with agenda := rest, readData := c }) ∧
    ∀ v : Word, s.agenda = .host (.w32 a v) :: rest → step s = .next { s with agenda := rest }

/-- The register map of 10_state.md R16, offset by offset, with the layout of each register (R17 to R32, R38): a
read returns that value and changes nothing else, in both phases, and a write of a read-only register is
ignored (20_memory.md R82, R94). -/
def Obligations.RegisterReadsAndReadOnlyWrites : Prop :=
  (∀ (s : State) (a c : Word) (rest : List Event),
    (a, c) ∈ [((0x000 : Word), (0x42485844 : Word)), (0x004, 0x00000001),
      (0x008, BitVec.ofNat 32 s.params.inMemSize), (0x00C, BitVec.ofNat 32 s.params.outMemSize),
      (0x010, BitVec.ofNat 32 s.params.xsSize),
      (0x014, BitVec.ofNat 32 (2 * s.ie.toNat)),
      (0x018, BitVec.ofNat 32 s.cmdOp.toNat), (0x01C, s.inLen),
      (0x020, BitVec.ofNat 32 ((decide (s.phase = .busy)).toNat + 2 * s.done.toNat +
        4 * (decide (s.err.code ≠ 0)).toNat + 8 * s.accErr.toNat + 16 * s.wrBusy.toNat +
        32 * (s.done && s.ie).toNat)),
      (0x024, BitVec.ofNat 32 s.err.code.toNat), (0x028, s.err.pos),
      (0x02C, BitVec.ofNat 32 (s.err.detail.toNat + 2 ^ 8 * s.err.stage.toNat)),
      (0x030, BitVec.ofNat 32 (s.res.recKind.toNat + 2 ^ 2 * s.res.img.toNat + 2 ^ 3 * s.res.stream.toNat)),
      (0x034, s.res.outLen), (0x038, s.res.dforkLen), (0x03C, s.res.rforkLen),
      (0x040, BitVec.ofNat 32 s.res.nameLen.toNat), (0x044, s.res.ftype), (0x048, s.res.fcreator),
      (0x04C, BitVec.ofNat 32 s.res.fflags.toNat), (0x050, BitVec.ofNat 32 s.res.hcrc.toNat),
      (0x054, BitVec.ofNat 32 s.res.dcrc.toNat), (0x058, BitVec.ofNat 32 s.res.rcrc.toNat),
      (0x05C, s.res.imgSize)] →
    s.agenda = .host (.r32 a) :: rest → step s = .next { s with agenda := rest, readData := c }) ∧
  ∀ (s : State) (a v : Word) (rest : List Event),
    (a.toNat < 0x014 ∨ (0x024 ≤ a.toNat ∧ a.toNat < 0x060)) → a.toNat % 4 = 0 →
    s.agenda = .host (.w32 a v) :: rest → step s = .next { s with agenda := rest }

/-- 10_state.md R20, R38: CMD and IN_LEN hold what is written while IDLE and read back as written, CMD in
bits 3:0 only. -/
def Obligations.CmdAndInLenWrites : Prop :=
  ∀ (s : State) (v : Word) (rest : List Event), s.phase = .idle →
    (s.agenda = .host (.w32 0x18 v) :: rest →
      step s = .next { s with agenda := rest, cmdOp := v.extractLsb' 0 4 } ∧
        readReg .cmd { s with agenda := rest, cmdOp := v.extractLsb' 0 4 } = v &&& 0xF) ∧
    (s.agenda = .host (.w32 0x1C v) :: rest →
      step s = .next { s with agenda := rest, inLen := v } ∧
        readReg .inLen { s with agenda := rest, inLen := v } = v)

/-- 70_reset_and_hazards.md R346: while BUSY a write of IN_MEM, CMD or IN_LEN is dropped and sets WR_BUSY;
writes of STATUS and CTRL are not dropped. -/
def Obligations.BusyWritesDropped : Prop :=
  ∀ (s : State) (rest : List Event), s.params.Legal → s.phase = .busy →
    (∀ (a : Word) (v : Byte), s.agenda = .host (.w8 a v) :: rest → 0x1000000 ≤ a.toNat →
      a.toNat < 0x1000000 + s.params.inMemSize → step s = .next { s with agenda := rest, wrBusy := true }) ∧
    (∀ a v : Word, s.agenda = .host (.w32 a v) :: rest → 0x1000000 ≤ a.toNat → a.toNat % 4 = 0 →
      a.toNat + 4 ≤ 0x1000000 + s.params.inMemSize →
      step s = .next { s with agenda := rest, wrBusy := true }) ∧
    (∀ a v : Word, s.agenda = .host (.w32 a v) :: rest → (a = 0x18 ∨ a = 0x1C) →
      step s = .next { s with agenda := rest, wrBusy := true }) ∧
    (∀ v : Word, s.agenda = .host (.w32 0x14 v) :: rest →
      (v.getLsbD 0 = false → v.getLsbD 2 = false →
        step s = .next { s with agenda := rest, ie := v.getLsbD 1 }) ∧
      (v.getLsbD 2 = false → ∃ t, step s = .next t ∧ t.ie = v.getLsbD 1) ∧
      (v.getLsbD 2 = true → ∃ t, step s = .next t ∧ t.phase = .idle)) ∧
    ∀ v : Word, s.agenda = .host (.w32 0x20 v) :: rest →
      step s = exec (.statusW1C (v.getLsbD 1) (v.getLsbD 3) (v.getLsbD 4)) { s with agenda := rest }

/-- 60_exceptions.md R304: no host transaction but START and SRST touches the error registers, the results,
the latches, OUT_MEM or the engine's phase, whatever status bit it sets. -/
def Obligations.HostAccessNeverDisturbsCommand : Prop :=
  ∀ (s t : State) (x : HostAccess) (rest : List Event), s.agenda = .host x :: rest →
    (∀ v : Word, x = .w32 0x14 v → v.getLsbD 0 = false ∧ v.getLsbD 2 = false) → step s = .next t →
    t.err = s.err ∧ t.res = s.res ∧ t.latchOp = s.latchOp ∧ t.latchLen = s.latchLen ∧ t.phase = s.phase ∧
      t.outMem = s.outMem ∧ t.outEpoch = s.outEpoch ∧ t.s1 = s.s1 ∧ t.xs = s.xs

/-- 20_memory.md R94: a read changes nothing but the data it returns, ACC_ERR, set where it is illegal, and the
draw counter of the free values, up by one where a legal read is one of OUT_MEM while BUSY (log entry 10). -/
def Obligations.ReadsHaveNoSideEffect : Prop :=
  ∀ (s t : State) (x : HostAccess) (rest : List Event), s.agenda = .host x :: rest → isHostRead x = true →
    step s = .next t →
    t = { s with agenda := rest, readData := t.readData, busyDraws := t.busyDraws, accErr := t.accErr } ∧
      (legalAccess s.params (hostWidth x) (hostAddr x) = true → t.accErr = s.accErr) ∧
      (legalAccess s.params (hostWidth x) (hostAddr x) = false →
        t.accErr = true ∧ t.readData = 0 ∧ t.busyDraws = s.busyDraws) ∧
      ((s.phase = .idle ∨ hostAddr x < 0x2000000) → t.busyDraws = s.busyDraws) ∧
      (s.params.Legal → s.phase = .busy → 0x2000000 ≤ hostAddr x →
        legalAccess s.params (hostWidth x) (hostAddr x) = true → t.busyDraws = s.busyDraws + 1)

/-! ## Command checks and frames -/

/-- 40_command_cycle.md R161: the command checks, at the engine's turn. -/
def Obligations.CommandChecks : Prop :=
  ∀ s : State, s.phase = .busy → (s.agenda = [] ∨ s.agenda.head? = some .engine) →
    (¬ (1 ≤ s.latchOp.toNat ∧ s.latchOp.toNat ≤ 7) →
      step s = .next (State.afterError { s with agenda := s.agenda.tail } 0x10 0 (s.latchOp.setWidth 8) 0)) ∧
    (1 ≤ s.latchOp.toNat → s.latchOp.toNat ≤ 7 → s.params.inMemSize < s.latchLen.toNat →
      step s = .next (State.afterError { s with agenda := s.agenda.tail } 0x11 s.latchLen.toNat 0 0))

/-- Each reserved OP completes with BadCommand (30_encoding.md R112). -/
def Obligations.ReservedOpsCompleteWithBadCommand : Prop :=
  ∀ (op : BitVec 8) (i : Instr) (s : State),
    (op, i) ∈ [((0x00 : BitVec 8), Instr.reservedOp0), (0x08, .reservedOp8), (0x09, .reservedOp9),
      (0x0A, .reservedOpA), (0x0B, .reservedOpB), (0x0C, .reservedOpC), (0x0D, .reservedOpD),
      (0x0E, .reservedOpE), (0x0F, .reservedOpF)] →
    exec i s = .next (s.afterError 0x10 0 op 0)

/-- What any command leaves unchanged: everything but the error and result registers, OUT_MEM, the internal
buffers, ENG_PHASE and DONE; every byte of IN_MEM reads as before (10_state.md R34, 60_exceptions.md R305). That
OUT_MEM takes a new epoch and S1 and XS keep what a BinHex command left is the model's (log entries 7, 9). -/
def Obligations.CommandFrame : Prop :=
  ∀ (op : BitVec 4) (s t : State), exec (decodeOp op) s = .next t →
    t = { s with
          phase := .idle, done := true, err := t.err, res := t.res, outMem := t.outMem
          outEpoch := s.outEpoch + 1, s1 := t.s1, xs := t.xs } ∧
      (∀ k, t.inByte k = s.inByte k) ∧
      (op ≠ 3 → op ≠ 6 → t.s1 = s.s1 ∧ t.xs = s.xs)

/-! ## SIXBIT -/

/-- 43_sixbit.md R195 to R198, R201: a valid text demodulates to the bytes of its groups. -/
def Obligations.SixbitDemodulates : Prop :=
  ∀ s : State, s.latchLen.toNat ≤ s.params.inMemSize → TextValid s.params s.input →
    exec .sixbit s = .next (s.afterResult (demodulated (textValues s.params s.input))
      { s.res with
        outLen := BitVec.ofNat 32 (demodulated (textValues s.params s.input)).length, stream := true })

/-- 43_sixbit.md R200: the first byte that is neither whitespace nor in the alphabet ends the command with
InvalidCharacter, at its IN_MEM offset, with the byte in DETAIL: in command SIXBIT, and in the payload of a
BinHex text (S1 and XS then as log entry 7 has them). -/
def Obligations.SixbitInvalidCharacter : Prop :=
  ∀ (s : State) (pre post : Bytes) (c : Byte), s.latchLen.toNat ≤ s.params.inMemSize →
    TextValid s.params pre → c ∉ s.params.whitespace → c ∉ s.params.alphabet →
    (s.input = pre ++ c :: post → exec .sixbit s = .next (s.afterError 0x03 pre.length c 2)) ∧
    ∀ (lead gap suf : Bytes) (i : Instr), (i = .binhex ∨ i = .binhexDsk) →
      IsBinhexText s.input lead gap (pre ++ c :: post) suf →
      exec i s = .next (State.afterError { s with s1 := Memory.empty, xs := Memory.empty } 0x03
        (lead.length + 45 + gap.length + 1 + pre.length) c 2)

/-- 43_sixbit.md R199: the output length, and that it fits S1 and OUT_MEM. -/
def Obligations.SixbitOutputLength : Prop :=
  ∀ (p : Params) (text out : Bytes) (base : Nat), sixBit p text base = .ok out →
    out.length = 6 * (((text.filter fun c => c ∉ p.whitespace).length + 7) / 8) ∧
      out.length ≤ 6 * ((text.length + 7) / 8) ∧
      (p.Legal → text.length ≤ p.inMemSize →
        out.length ≤ 6 * ((p.inMemSize + 7) / 8) ∧ out.length ≤ p.outMemSize)

/-! ## RLE -/

/-- 42_rle.md R185 to R188, R193: a token stream expands to what its tokens stand for. -/
def Obligations.RleExpandsTokens : Prop :=
  ∀ (s : State) (ts : List RleToken), s.latchLen.toNat ≤ s.params.inMemSize → TokensOk ts →
    s.input = tokenBytes ts → (expandTokens ts).length ≤ s.params.outMemSize →
    exec .rle s = .next (s.afterResult (expandTokens ts)
      { s.res with outLen := BitVec.ofNat 32 (expandTokens ts).length, stream := true })

/-- 42_rle.md R192: a stream with no escape byte is returned unchanged. -/
def Obligations.RleIdentityWithoutEscapes : Prop :=
  ∀ (cap : Nat) (input : Bytes), (0x90 : Byte) ∉ input → input.length ≤ cap → rle cap input = .ok input

/-- 42_rle.md R189, R190, R191: the three errors of the RLE stage, as command RLE reports them; and
44_binhex.md R208: an error of the stage over the six-bit output of a BinHex text's payload, with XS_SIZE as its
capacity, is the error of the BinHex command (S1 and XS then as log entry 7 has them). -/
def Obligations.RleErrors : Prop :=
  (∀ (s : State) (ts : List RleToken), s.latchLen.toNat ≤ s.params.inMemSize → TokensOk ts →
    (expandTokens ts).length ≤ s.params.outMemSize →
    (s.input = tokenBytes ts ++ [0x90] →
      exec .rle s = .next (s.afterError 0x05 (s.input.length - 1) 0 3)) ∧
    (∀ (n : Byte) (rest : Bytes), n ≠ 0 → ts = [] → s.input = 0x90 :: n :: rest →
      exec .rle s = .next (s.afterError 0x04 0 0 3)) ∧
    ∀ (t : RleToken) (rest : Bytes), TokensOk (ts ++ [t]) → s.input = tokenBytes (ts ++ [t]) ++ rest →
      s.params.outMemSize < (expandTokens (ts ++ [t])).length →
      exec .rle s = .next (s.afterError 0x12 (tokenBytes ts).length 0 3)) ∧
  ∀ (s : State) (lead gap payload suf : Bytes) (e : CmdError) (i : Instr), (i = .binhex ∨ i = .binhexDsk) →
    s.latchLen.toNat ≤ s.params.inMemSize → IsBinhexText s.input lead gap payload suf →
    TextValid s.params payload → rle s.params.xsSize (demodulated (textValues s.params payload)) = .error e →
    exec i s = .next (State.afterError
      { s with s1 := Memory.ofBytes (demodulated (textValues s.params payload)), xs := Memory.empty }
      e.name.code e.pos e.detail e.stage.code)

/-- 42_rle.md R190: a stream is a MalformedRun if and only if its first token is a run, of any nonzero
count; the position is 0. -/
def Obligations.MalformedRunIsFirstToken : Prop :=
  ∀ (cap : Nat) (input : Bytes) (pos : Nat) (detail : BitVec 8),
    rle cap input = .error ⟨.malformedRun, pos, .rle, detail⟩ ↔
      pos = 0 ∧ detail = 0 ∧ ∃ (n : Byte) (rest : Bytes), input = 0x90 :: n :: rest ∧ n ≠ 0

/-! ## BINHEX and BINHEX_DSK -/

/-- 44_binhex.md R205: the signature is taken at its first occurrence anywhere; absent, the command ends with
MissingHeader (S1 and XS then as log entry 7 has them). -/
def Obligations.BinhexSignatureSearch : Prop :=
  (∀ (t : Bytes) (j : Nat),
    findPattern binhexSignature t 0 = some j ↔ SigAt t j ∧ ∀ i < j, ¬ SigAt t i) ∧
  ∀ s : State, s.latchLen.toNat ≤ s.params.inMemSize → (∀ j, ¬ SigAt s.input j) →
    exec .binhex s = .next (State.afterError { s with s1 := Memory.empty, xs := Memory.empty } 0x01 0 0 1) ∧
    exec .binhexDsk s = .next (State.afterError { s with s1 := Memory.empty, xs := Memory.empty } 0x01 0 0 1)

/-- 44_binhex.md R206: an absent opening or closing colon ends the command with MissingDelimiter, at the
offset where the failed search began (S1 and XS then as log entry 7 has them). -/
def Obligations.BinhexMissingDelimiter : Prop :=
  ∀ (s : State) (pre gap : Bytes) (i : Instr), (i = .binhex ∨ i = .binhexDsk) →
    s.latchLen.toNat ≤ s.params.inMemSize → (∀ j < pre.length, ¬ SigAt s.input j) → (0x3A : Byte) ∉ gap →
    (s.input = pre ++ binhexSignature ++ gap →
      exec i s = .next (State.afterError { s with s1 := Memory.empty, xs := Memory.empty } 0x02
        (pre.length + 45) 1 1)) ∧
    ∀ payload : Bytes, (0x3A : Byte) ∉ payload →
      s.input = pre ++ binhexSignature ++ gap ++ [0x3A] ++ payload →
      exec i s = .next (State.afterError { s with s1 := Memory.empty, xs := Memory.empty } 0x02
        (pre.length + 45 + gap.length + 1) 2 1)

/-- 44_binhex.md R205 to R209, R213, R214, R215: a text that carries a record decodes to that record's fields
and forks. That S1 and XS still hold the stages' outputs afterwards is the model's (log entry 7). -/
def Obligations.BinhexDecodesRecord : Prop :=
  ∀ (s : State) (pre gap payload suf : Bytes) (ts : List RleToken) (f : BinhexFields) (junk : Bytes),
    s.latchLen.toNat ≤ s.params.inMemSize →
    CarriesRecord s pre gap payload suf ts f junk →
    exec .binhex s = .next
      (State.afterResult
        { s with s1 := Memory.ofBytes (tokenBytes ts), xs := Memory.ofBytes (expandTokens ts) }
        (f.data ++ f.rsrc)
        { f.regs s.res with outLen := BitVec.ofNat 32 (f.data.length + f.rsrc.length) })

/-- 44_binhex.md R209 to R212, 41_bytecursor.md R181, R184: the record parse over an expanded stream x ends with
the first failing check or truncated read in the order of the rule, at the start of that field; it yields a
record where none fails. An error of the parse over the stream that a BinHex text's payload expands to is the
error of both BinHex commands (S1 and XS then as log entry 7 has them). -/
def Obligations.BinhexRecordChecks : Prop :=
  (∀ (p : Params) (x : Bytes) (n d r : Nat), n = (byteAt x 0).toNat → d = be32At x (12 + n) →
    r = be32At x (16 + n) →
    let truncated (pos : Nat) := parseBinhex p x = .error ⟨.truncatedInput, pos, .bhParse, 0⟩
    let malformed (pos : Nat) (fieldId : BitVec 8) :=
      parseBinhex p x = .error ⟨.malformedHeader, pos, .bhParse, fieldId⟩
    if x.length < 1 then truncated 0
    else if p.bhNameCheck = true ∧ (n < 1 ∨ 63 < n) then malformed 0 0x04
    else if x.length < 1 + n then truncated 1
    else if x.length < 2 + n then truncated (1 + n)
    else if byteAt x (1 + n) ≠ 0 then malformed (1 + n) 0x01
    else if x.length < 6 + n then truncated (2 + n)
    else if x.length < 10 + n then truncated (6 + n)
    else if x.length < 12 + n then truncated (10 + n)
    else if x.length < 16 + n then truncated (12 + n)
    else if 2 ^ 31 ≤ d then malformed (12 + n) 0x02
    else if x.length < 20 + n then truncated (16 + n)
    else if 2 ^ 31 ≤ r then malformed (16 + n) 0x03
    else if x.length < 22 + n then truncated (20 + n)
    else if x.length < 22 + n + d then truncated (22 + n)
    else if x.length < 24 + n + d then truncated (22 + n + d)
    else if x.length < 24 + n + d + r then truncated (24 + n + d)
    else if x.length < 26 + n + d + r then truncated (24 + n + d + r)
    else ∃ rec, parseBinhex p x = .ok rec) ∧
  ∀ (s : State) (lead gap payload suf : Bytes) (ts : List RleToken) (e : CmdError) (i : Instr),
    (i = .binhex ∨ i = .binhexDsk) → s.latchLen.toNat ≤ s.params.inMemSize →
    IsBinhexText s.input lead gap payload suf → TextValid s.params payload →
    demodulated (textValues s.params payload) = tokenBytes ts → TokensOk ts →
    (expandTokens ts).length ≤ s.params.xsSize → parseBinhex s.params (expandTokens ts) = .error e →
    exec i s = .next (State.afterError
      { s with s1 := Memory.ofBytes (tokenBytes ts), xs := Memory.ofBytes (expandTokens ts) }
      e.name.code e.pos e.detail e.stage.code)

/-- 47_pipelines.md R240, R242: a text that carries a record whose data fork is a DiskCopy image yields the
image and the record's metadata; a data fork that is no image gives the DiskCopy stage's error, at an offset
in the data fork (S1 and XS then as log entry 7 has them). -/
def Obligations.BinhexDskDecodesImage : Prop :=
  ∀ (s : State) (pre gap payload suf : Bytes) (ts : List RleToken) (f : BinhexFields) (junk : Bytes),
    s.latchLen.toNat ≤ s.params.inMemSize →
    CarriesRecord s pre gap payload suf ts f junk →
    (DiskCopyOk f.data →
      exec .binhexDsk s = .next
        (State.afterResult
          { s with s1 := Memory.ofBytes (tokenBytes ts), xs := Memory.ofBytes (expandTokens ts) }
          (diskData f.data) (diskRegs f.data (f.regs s.res)))) ∧
    ∀ (code : BitVec 8) (pos : Nat), diskError f.data = some (code, pos) →
      exec .binhexDsk s = .next
        (State.afterError
          { s with s1 := Memory.ofBytes (tokenBytes ts), xs := Memory.ofBytes (expandTokens ts) }
          code pos 0 6)

/-! ## MACBIN and MACBIN_DSK -/

/-- 45_macbinary.md R220 to R222, R224: a whole MacBinary file decodes to its fields and forks. -/
def Obligations.MacbinDecodesRecord : Prop :=
  ∀ s : State, s.latchLen.toNat ≤ s.params.inMemSize → MacFileOk s.params s.input →
    exec .macbin s = .next (s.afterResult (macData s.input ++ macRsrc s.params s.input)
      { macRegs s.params s.input s.res with
        outLen := BitVec.ofNat 32 (be32At s.input 0x53 + be32At s.input 0x57) })

/-- 45_macbinary.md R220, R221: the first failing header check, in the source's order, is the error that both
MacBinary commands report. -/
def Obligations.MacbinHeaderChecks : Prop :=
  ∀ (s : State) (i : Instr), (i = .macbin ∨ i = .macbinDsk) → s.latchLen.toNat ≤ s.params.inMemSize →
    (s.input.length < 128 → exec i s = .next (s.afterError 0x07 0 0 5)) ∧
    (128 ≤ s.input.length →
      if byteAt s.input 0x00 ≠ 0 then exec i s = .next (s.afterError 0x06 0x00 0x11 5)
      else if (byteAt s.input 0x01).toNat < 1 ∨ 63 < (byteAt s.input 0x01).toNat then
        exec i s = .next (s.afterError 0x06 0x01 0x12 5)
      else if byteAt s.input 0x4A ≠ 0 then exec i s = .next (s.afterError 0x06 0x4A 0x13 5)
      else if byteAt s.input 0x52 ≠ 0 then exec i s = .next (s.afterError 0x06 0x52 0x14 5)
      else if 0x7FFFFF < be32At s.input 0x53 then exec i s = .next (s.afterError 0x06 0x53 0x15 5)
      else if 0x7FFFFF < be32At s.input 0x57 then exec i s = .next (s.afterError 0x06 0x57 0x16 5)
      else MacHeaderOk s.input)

/-- 45_macbinary.md R222, R223: a data fork, padding or resource fork that runs past the input ends the command
with TruncatedInput at its start, the padding too, even when R = 0. -/
def Obligations.MacbinTruncatedForks : Prop :=
  ∀ (s : State) (i : Instr) (d pad r : Nat), (i = .macbin ∨ i = .macbinDsk) →
    s.latchLen.toNat ≤ s.params.inMemSize → MacHeaderOk s.input → d = be32At s.input 0x53 →
    pad = specPadding s.params d → r = be32At s.input 0x57 →
    (s.input.length < 0x80 + d → exec i s = .next (s.afterError 0x07 0x80 0 5)) ∧
    (0x80 + d ≤ s.input.length → s.input.length < 0x80 + d + pad →
      exec i s = .next (s.afterError 0x07 (0x80 + d) 0 5)) ∧
    (0x80 + d + pad ≤ s.input.length → s.input.length < 0x80 + d + pad + r →
      exec i s = .next (s.afterError 0x07 (0x80 + d + pad) 0 5))

/-- 47_pipelines.md R241: a MacBinary file whose data fork is a DiskCopy image yields the image and the
record's metadata. -/
def Obligations.MacbinDskDecodesImage : Prop :=
  ∀ s : State, s.latchLen.toNat ≤ s.params.inMemSize → MacFileOk s.params s.input →
    DiskCopyOk (macData s.input) →
    exec .macbinDsk s = .next (s.afterResult (diskData (macData s.input))
      (diskRegs (macData s.input) (macRegs s.params s.input s.res)))

/-! ## DSK and the composed paths' errors -/

/-- 46_diskcopy.md R230 to R236, R237: a whole DiskCopy image yields its sectors and header. -/
def Obligations.DskExtractsSectors : Prop :=
  ∀ s : State, s.latchLen.toNat ≤ s.params.inMemSize → DiskCopyOk s.input →
    exec .dsk s = .next (s.afterResult (diskData s.input) (diskRegs s.input s.res))

/-- 46_diskcopy.md R231, R233, R235, R236: the first failing check of a DiskCopy input. -/
def Obligations.DskChecks : Prop :=
  ∀ s : State, s.latchLen.toNat ≤ s.params.inMemSize →
    if s.input.length < 409600 then exec .dsk s = .next (s.afterError 0x08 s.input.length 0 6)
    else if byteAt s.input 0x52 ≠ 0x01 then exec .dsk s = .next (s.afterError 0x09 0x52 0 6)
    else if byteAt s.input 0x53 ≠ 0x00 then exec .dsk s = .next (s.afterError 0x09 0x53 0 6)
    else if be32At s.input 0x40 ∉ [409600, 819200, 1474560] then
      exec .dsk s = .next (s.afterError 0x0A 0x40 0 6)
    else if s.input.length < 0x54 + be32At s.input 0x40 then
      exec .dsk s = .next (s.afterError 0x07 0x54 0 6)
    else DiskCopyOk s.input

/-- 47_pipelines.md R241, R242: over a whole MacBinary file whose data fork is no DiskCopy image, MACBIN_DSK
ends with the DiskCopy stage's error, at an offset in the data fork. -/
def Obligations.MacbinDskImageErrors : Prop :=
  ∀ (s : State) (code : BitVec 8) (pos : Nat), s.latchLen.toNat ≤ s.params.inMemSize →
    MacFileOk s.params s.input → diskError (macData s.input) = some (code, pos) →
    exec .macbinDsk s = .next (s.afterError code pos 0 6)

/-! ## What every step keeps -/

/-- The memories stay in their canonical form. -/
def Obligations.MemoriesStayCanonical : Prop :=
  ∀ s t : State, s.MemoriesCanonical → step s = .next t → t.MemoriesCanonical

/-- 20_memory.md R86: while BUSY the result and error registers, the windows and DONE read 0; every step
keeps it. -/
def Obligations.BusyRegistersStayClear : Prop :=
  ∀ s t : State, s.BusyClear → step s = .next t → t.BusyClear

/-- An error never stands beside a result, error position and info never stand without an error code, and only
the codes of 30_encoding.md R115 and the stages of R116 are ever shown; every step keeps it. -/
def Obligations.ErrorsExcludeResults : Prop :=
  ∀ s t : State, s.BusyClear ∧ s.ErrorExcludesResult ∧ s.err.Named → step s = .next t →
    t.ErrorExcludesResult ∧ t.err.Named

/-- 40_command_cycle.md R166: after a completion ERR_CODE is 0 if and only if RESULT is not 0; every step
keeps it. -/
def Obligations.CompletionsStayReported : Prop :=
  ∀ s t : State, s.BusyClear ∧ s.CompletionReported → step s = .next t → t.CompletionReported

/-- The result registers stay consistent with RESULT; every step keeps it. -/
def Obligations.ResultRegistersStayShaped : Prop :=
  ∀ s t : State, s.BusyClear ∧ s.res.Shaped → step s = .next t → t.res.Shaped

/-- The output and both host-visible memories stay within their sizes; every step keeps it. -/
def Obligations.OutputStaysWithinMemory : Prop :=
  ∀ s t : State, s.params.Legal → s.WithinMemories → step s = .next t →
    t.WithinMemories ∧ t.params = s.params

/-- The reset state meets every invariant above. -/
def Obligations.ResetMeetsInvariants : Prop :=
  State.reset.MemoriesCanonical ∧ State.reset.BusyClear ∧ State.reset.ErrorExcludesResult ∧
    State.reset.CompletionReported ∧ State.reset.res.Shaped ∧ State.reset.err.Named ∧
    State.reset.WithinMemories

/-- A byte of IN_MEM changes only by a host write while IDLE that covers that byte, or by a hard reset: the
engine's input cannot change under a running command (20_memory.md R84, R97, 70_reset_and_hazards.md R346). The
exception for the hard reset is the model's reading of 70_reset_and_hazards.md R340, where 10_state.md R34 says
that no reset changes IN_MEM (log entry 11). -/
def Obligations.InMemChangesOnlyByIdleHostWrite : Prop :=
  ∀ (s t : State) (k : Nat), step s = .next t → t.inByte k ≠ s.inByte k →
    s.agenda.head? = some .hardReset ∨
      (s.phase = .idle ∧ ∃ x, s.agenda.head? = some (.host x) ∧ isHostRead x = false ∧
        hostAddr x ≤ 0x1000000 + k ∧ 0x1000000 + k < hostAddr x + widthBytes (hostWidth x))

/-- The latches change only at an accepted START or a reset (10_state.md R43, 60_exceptions.md R302). -/
def Obligations.LatchesChangeOnlyAtStartOrReset : Prop :=
  ∀ s t : State, step s = .next t → (t.latchOp ≠ s.latchOp ∨ t.latchLen ≠ s.latchLen) →
    s.agenda.head? = some .hardReset ∨
      ∃ v : Word, s.agenda.head? = some (.host (.w32 0x14 v)) ∧
        (v.getLsbD 2 = true ∨ (v.getLsbD 0 = true ∧ s.phase = .idle))

/-- 40_command_cycle.md R162: the outcome is a function of LATCH_OP, LATCH_LEN, the bytes of I and the
parameters, and of nothing else: two BUSY states that agree on those complete with the same error registers,
result registers and output bytes, whatever CMD, IN_LEN, S1, XS, OUT_MEM, the flags and the stale bytes of
IN_MEM hold. -/
def Obligations.OutcomeDependsOnInputAlone : Prop :=
  ∀ (s s' t t' : State) (op : BitVec 4), s.params = s'.params → s.latchLen = s'.latchLen →
    (∀ k < s.latchLen.toNat, s.inByte k = s'.inByte k) →
    s.phase = .busy → s'.phase = .busy → s.BusyClear → s'.BusyClear →
    exec (decodeOp op) s = .next t → exec (decodeOp op) s' = .next t' →
    t.err = t'.err ∧ t.res = t'.res ∧ t.outMem = t'.outMem
end

