-- ==== Sys2Proof/Laws/Memory.lean ====
section
/-! SUPPORT. The byte arrays: reading after writing, and the canonical form that every operation keeps. -/

namespace Sys2Proof.Machine

open Sys2Proof

@[simp] theorem find_empty (a : Nat) : Memory.empty.find a = none := rfl

/-! ## One write -/

theorem findCell_insertCell (a k : Nat) (b : Byte) (cs : List Host.Cell) :
    findCell (insertCell a b cs) k = if k = a then some b else findCell cs k := by
  induction cs with
  | nil => simp only [insertCell, findCell, eq_comm]
  | cons c cs ih =>
    obtain ⟨j, d⟩ := c
    rcases lt_trichotomy a j with h | rfl | h
    · simp only [insertCell, if_pos h, findCell, eq_comm (a := a)]
    · simp only [insertCell, lt_irrefl, if_false, if_true, findCell, eq_comm (a := a)]
      split_ifs <;> rfl
    · have h1 : ¬ a < j := by omega
      have h2 : a ≠ j := by omega
      simp only [insertCell, if_neg h1, if_neg h2, findCell, ih]
      split_ifs <;> first | rfl | omega

/-- A read after a write gives the value written, and a write leaves every other offset alone. -/
@[simp] theorem Memory.find_write (m : Memory) (a k : Nat) (b : Byte) :
    (m.write a b).find k = if k = a then some b else m.find k :=
  findCell_insertCell a k b m.cells

theorem mem_insertCell {a : Nat} {b : Byte} {cs : List Host.Cell} {c : Host.Cell}
    (h : c ∈ insertCell a b cs) : c = (a, b) ∨ c ∈ cs := by
  induction cs with
  | nil => simpa [insertCell] using h
  | cons d cs ih =>
    obtain ⟨j, e⟩ := d
    unfold insertCell at h
    split_ifs at h with h1 h2
    · simpa using h
    · rcases List.mem_cons.mp h with h | h
      · exact .inl h
      · exact .inr (List.mem_cons_of_mem _ h)
    · rcases List.mem_cons.mp h with h | h
      · exact .inr (h ▸ List.mem_cons_self)
      · exact (ih h).imp id (List.mem_cons_of_mem _)

/-- A write keeps the canonical form. -/
theorem Memory.wf_write {m : Memory} (h : m.wf) (a : Nat) (b : Byte) : (m.write a b).wf := by
  obtain ⟨cs⟩ := m
  simp only [Memory.wf, Memory.write] at h ⊢
  induction cs with
  | nil => simp [insertCell]
  | cons c cs ih =>
    obtain ⟨j, d⟩ := c
    rw [List.pairwise_cons] at h
    unfold insertCell
    split_ifs with h1 h2
    · refine List.pairwise_cons.mpr ⟨?_, List.pairwise_cons.mpr h⟩
      intro e he
      rcases List.mem_cons.mp he with rfl | he
      · exact h1
      · exact h1.trans (h.1 e he)
    · subst h2
      exact List.pairwise_cons.mpr h
    · refine List.pairwise_cons.mpr ⟨?_, ih h.2⟩
      intro e he
      rcases mem_insertCell he with rfl | he
      · simp only
        omega
      · exact h.1 e he

/-! ## Several writes -/

theorem Memory.wf_writeBytes (bs : Bytes) : ∀ {m : Memory}, m.wf → ∀ a, (m.writeBytes a bs).wf := by
  induction bs with
  | nil => intro m h a; exact h
  | cons b bs ih => intro m h a; exact ih (Memory.wf_write h a b) (a + 1)

/-- After MemWrite(M, a, n, bs), offset k holds its byte of bs, or what it held before. -/
theorem Memory.find_writeBytes (bs : Bytes) : ∀ (m : Memory) (a k : Nat),
    (m.writeBytes a bs).find k = if a ≤ k ∧ k < a + bs.length then bs[k - a]? else m.find k := by
  induction bs with
  | nil =>
    intro m a k
    simp [Memory.writeBytes]
  | cons b bs ih =>
    intro m a k
    simp only [Memory.writeBytes, ih, Memory.find_write, List.length_cons]
    rcases lt_trichotomy k a with h | h | h
    · have h1 : ¬ (a + 1 ≤ k ∧ k < a + 1 + bs.length) := by omega
      have h2 : ¬ (a ≤ k ∧ k < a + (bs.length + 1)) := by omega
      rw [if_neg h1, if_neg h2, if_neg (by omega)]
    · subst h
      simp
    · by_cases h2 : k < a + (bs.length + 1)
      · have h3 : k - a = (k - (a + 1)) + 1 := by omega
        rw [if_pos ⟨by omega, by omega⟩, if_pos ⟨by omega, h2⟩, h3, List.getElem?_cons_succ]
      · rw [if_neg (by omega), if_neg (by omega), if_neg (by omega)]

/-- The same as a reader of the array sees it. -/
theorem Memory.read_writeBytes (free : Nat → Byte) (m : Memory) (a k : Nat) (bs : Bytes) :
    (m.writeBytes a bs).read free k =
      if a ≤ k ∧ k < a + bs.length then bs.getD (k - a) 0 else m.read free k := by
  simp only [Memory.read, Memory.find_writeBytes]
  split_ifs with h
  · rw [List.getD_eq_getElem?_getD, List.getElem?_eq_getElem (by omega)]
    rfl
  · rfl

theorem mem_writeBytes (bs : Bytes) : ∀ {m : Memory} {a : Nat} {c : Host.Cell},
    c ∈ (m.writeBytes a bs).cells → c ∈ m.cells ∨ (a ≤ c.1 ∧ c.1 < a + bs.length) := by
  induction bs with
  | nil => intro m a c h; exact .inl h
  | cons b bs ih =>
    intro m a c h
    rcases ih h with h | h
    · rcases mem_insertCell h with rfl | h
      · exact .inr ⟨le_rfl, by simp⟩
      · exact .inl h
    · exact .inr ⟨by omega, by simp; omega⟩

/-! ## Whole arrays -/

theorem wf_empty : Memory.empty.wf := List.Pairwise.nil

theorem wf_ofBytes (bs : Bytes) : (Memory.ofBytes bs).wf := by
  simp only [Memory.wf, Memory.ofBytes, List.pairwise_map]
  rw [List.pairwise_iff_getElem]
  intro i j hi hj h
  simpa using h

theorem mem_ofBytes {bs : Bytes} {c : Host.Cell} (h : c ∈ (Memory.ofBytes bs).cells) :
    c.1 < bs.length := by
  simp only [Memory.ofBytes, List.mem_map] at h
  obtain ⟨⟨b, i⟩, h, rfl⟩ := h
  simpa using List.snd_lt_of_mem_zipIdx h

/-- A buffer that holds bs and nothing else is read back as bs. -/
@[simp] theorem bytes_ofBytes (bs : Bytes) : (Memory.ofBytes bs).bytes = bs := by
  simp [Memory.ofBytes, Memory.bytes, Function.comp_def]

theorem findCell_zipIdx (bs : Bytes) : ∀ (n k : Nat),
    findCell ((bs.zipIdx n).map fun c => (c.2, c.1)) k = if n ≤ k then bs[k - n]? else none := by
  induction bs with
  | nil => intro n k; simp [findCell]
  | cons b bs ih =>
    intro n k
    simp only [List.zipIdx_cons, List.map_cons, findCell, ih]
    rcases lt_trichotomy k n with h | h | h
    · rw [if_neg (by omega), if_neg (by omega), if_neg (by omega)]
    · subst h; simp
    · have : k - n = (k - (n + 1)) + 1 := by omega
      rw [if_neg (by omega), if_pos (by omega), if_pos (by omega), this, List.getElem?_cons_succ]

@[simp] theorem find_ofBytes (bs : Bytes) (k : Nat) : (Memory.ofBytes bs).find k = bs[k]? := by
  simpa [Memory.find, Memory.ofBytes] using findCell_zipIdx bs 0 k

/-- Reading an array that holds bs from offset 0: its bytes inside, the unspecified ones beyond. -/
theorem Memory.read_ofBytes (free : Nat → Byte) (bs : Bytes) (k : Nat) :
    (Memory.ofBytes bs).read free k = bs[k]?.getD (free k) := by
  rw [Memory.read, find_ofBytes]

@[simp] theorem length_window (free : Nat → Byte) (m : Memory) (a n : Nat) :
    (m.window free a n).length = n := by
  simp [Memory.window]

@[simp] theorem getElem?_window (free : Nat → Byte) (m : Memory) (a n i : Nat) :
    (m.window free a n)[i]? = if i < n then some (m.read free (a + i)) else none := by
  simp only [Memory.window, List.getElem?_map]
  by_cases h : i < n <;> simp [h]

/-- An array that holds bs from offset 0 gives bs as its first bytes. -/
theorem window_ofBytes (free : Nat → Byte) (bs : Bytes) :
    (Memory.ofBytes bs).window free 0 bs.length = bs := by
  apply List.ext_getElem?
  intro i
  rw [getElem?_window]
  by_cases h : i < bs.length <;> simp [h, Memory.read]

end Sys2Proof.Machine
end

