-- ==== Sys2Proof/Laws/Commands.lean ====
section
/-! SUPPORT. Each command's outcome, said once: what it is when the length check of 40_command_cycle.md R161
passes and what it is when it fails. -/

namespace Sys2Proof.Machine

open Sys2Proof

/-- An error completion leaves what the error commit leaves (40_command_cycle.md R163, R165). -/
theorem complete_error (e : CmdError) (s : State) :
    complete (.error e) s = s.afterError e.name.code e.pos e.detail e.stage.code := rfl

/-- A successful completion leaves what the success commit leaves (40_command_cycle.md R163, R164). -/
theorem complete_ok (r : CmdResult) (s : State) :
    complete (.ok r) s = s.afterResult r.out (r.writeRegs s.res) := rfl

/-- A completion touches nothing but the engine's phase, DONE, the error and result registers and OUT_MEM. -/
theorem complete_frame (o : Except CmdError CmdResult) (s : State) :
    complete o s = { s with
      phase := .idle, done := true, err := (complete o s).err, res := (complete o s).res
      outMem := (complete o s).outMem, outEpoch := s.outEpoch + 1 } := by
  cases o <;> rfl

theorem checkLength_ok {s : State} (h : s.latchLen.toNat ≤ s.params.inMemSize) : s.checkLength = .ok () :=
  if_neg (by omega)

theorem checkLength_error {s : State} (h : s.params.inMemSize < s.latchLen.toNat) :
    s.checkLength = .error ⟨.badLength, s.latchLen.toNat, .checks, 0⟩ := if_pos h

/-! ## The outcomes -/

theorem sixbitOutcome_ok {s : State} (h : s.latchLen.toNat ≤ s.params.inMemSize) :
    sixbitOutcome s = (sixBit s.params s.input 0).map .stream := by
  simp only [sixbitOutcome, checkLength_ok h]
  cases sixBit s.params s.input 0 <;> rfl

theorem sixbitOutcome_badLength {s : State} (h : s.params.inMemSize < s.latchLen.toNat) :
    sixbitOutcome s = .error ⟨.badLength, s.latchLen.toNat, .checks, 0⟩ := by
  simp only [sixbitOutcome, checkLength_error h]
  rfl

theorem rleOutcome_ok {s : State} (h : s.latchLen.toNat ≤ s.params.inMemSize) :
    rleOutcome s = (rle s.params.outMemSize s.input).map .stream := by
  simp only [rleOutcome, checkLength_ok h]
  cases rle s.params.outMemSize s.input <;> rfl

theorem rleOutcome_badLength {s : State} (h : s.params.inMemSize < s.latchLen.toNat) :
    rleOutcome s = .error ⟨.badLength, s.latchLen.toNat, .checks, 0⟩ := by
  simp only [rleOutcome, checkLength_error h]
  rfl

theorem macbinDecode_ok {s : State} (h : s.latchLen.toNat ≤ s.params.inMemSize) :
    macbinDecode s = parseMacbinary s.params s.input := by
  simp only [macbinDecode, checkLength_ok h]
  rfl

theorem macbinDecode_badLength {s : State} (h : s.params.inMemSize < s.latchLen.toNat) :
    macbinDecode s = .error ⟨.badLength, s.latchLen.toNat, .checks, 0⟩ := by
  simp only [macbinDecode, checkLength_error h]
  rfl

theorem dskOutcome_ok {s : State} (h : s.latchLen.toNat ≤ s.params.inMemSize) :
    dskOutcome s = (diskCopy s.input).map .image := by
  simp only [dskOutcome, checkLength_ok h]
  cases diskCopy s.input <;> rfl

theorem dskOutcome_badLength {s : State} (h : s.params.inMemSize < s.latchLen.toNat) :
    dskOutcome s = .error ⟨.badLength, s.latchLen.toNat, .checks, 0⟩ := by
  simp only [dskOutcome, checkLength_error h]
  rfl

theorem binhexDecode_badLength {s : State} (h : s.params.inMemSize < s.latchLen.toNat) :
    binhexDecode s = (s, .error ⟨.badLength, s.latchLen.toNat, .checks, 0⟩) := by
  simp only [binhexDecode, checkLength_error h]

/-- A text stage or six-bit stage that fails leaves both internal buffers unspecified (44_binhex.md R205 to
R207). -/
theorem binhexDecode_textError {s : State} {e : CmdError} (h : s.latchLen.toNat ≤ s.params.inMemSize)
    (ht : ((locatePayload s.input).bind fun q => sixBit s.params q.2 q.1) = .error e) :
    binhexDecode s = ({ s with s1 := Memory.empty, xs := Memory.empty }, .error e) := by
  unfold binhexDecode
  rw [checkLength_ok h]
  have ht' : ((locatePayload (State.input { s with s1 := Memory.empty, xs := Memory.empty })).bind
      fun q => sixBit s.params q.2 q.1) = .error e := ht
  simp only [ht']

/-- An RLE stage that fails leaves its input in S1 and XS unspecified (44_binhex.md R208). -/
theorem binhexDecode_rleError {s : State} {q : Nat × Bytes} {s1 : Bytes} {e : CmdError}
    (h : s.latchLen.toNat ≤ s.params.inMemSize) (hq : locatePayload s.input = .ok q)
    (h1 : sixBit s.params q.2 q.1 = .ok s1) (hx : rle s.params.xsSize s1 = .error e) :
    binhexDecode s = ({ s with s1 := Memory.ofBytes s1, xs := Memory.empty }, .error e) := by
  unfold binhexDecode
  rw [checkLength_ok h]
  have ht : ((locatePayload (State.input { s with s1 := Memory.empty, xs := Memory.empty })).bind
      fun q => sixBit s.params q.2 q.1) = .ok s1 := by
    show (locatePayload s.input).bind _ = _
    rw [hq]
    exact h1
  simp only [ht, bytes_ofBytes, hx]

/-- The stages of a BinHex command in turn, S1 and XS holding the first two stages' output (44_binhex.md R205
to R209). -/
theorem binhexDecode_parse {s : State} {q : Nat × Bytes} {s1 x : Bytes}
    (h : s.latchLen.toNat ≤ s.params.inMemSize) (hq : locatePayload s.input = .ok q)
    (h1 : sixBit s.params q.2 q.1 = .ok s1) (hx : rle s.params.xsSize s1 = .ok x) :
    binhexDecode s =
      ({ s with s1 := Memory.ofBytes s1, xs := Memory.ofBytes x }, parseBinhex s.params x) := by
  unfold binhexDecode
  rw [checkLength_ok h]
  have ht : ((locatePayload (State.input { s with s1 := Memory.empty, xs := Memory.empty })).bind
      fun q => sixBit s.params q.2 q.1) = .ok s1 := by
    show (locatePayload s.input).bind _ = _
    rw [hq]
    exact h1
  simp only [ht, bytes_ofBytes, hx]

/-- A BinHex decode changes the internal buffers alone. -/
theorem binhexDecode_frame (s : State) :
    (binhexDecode s).1 = { s with s1 := (binhexDecode s).1.s1, xs := (binhexDecode s).1.xs } := by
  cases hc : s.checkLength with
  | error e => simp only [binhexDecode, hc]
  | ok u =>
    simp only [binhexDecode, hc]
    split
    · rfl
    · split <;> rfl

/-! ## The executions -/

theorem exec_binhex_of {s t : State} {o : Except CmdError FileResult} (h : binhexDecode s = (t, o)) :
    exec .binhex s = .next (complete (o.map .record) t) := by
  simp only [exec, execBinhex, h]

theorem exec_binhexDsk_of {s t : State} {o : Except CmdError FileResult} (h : binhexDecode s = (t, o)) :
    exec .binhexDsk s = .next (complete (thenDiskCopy o) t) := by
  simp only [exec, execBinhexDsk, h]

theorem thenDiskCopy_error (e : CmdError) : thenDiskCopy (.error e) = .error e := rfl

theorem thenDiskCopy_ok (r : FileResult) :
    thenDiskCopy (.ok r) = (diskCopy r.file.data).map (.recordImage r) := by
  simp only [thenDiskCopy]
  show ((diskCopy r.file.data).bind _) = _
  cases diskCopy r.file.data <;> rfl

end Sys2Proof.Machine
end

