-- ==== Sys2Proof/Laws/Effects.lean ====
section
/-! SUPPORT. What a step can do, said once: the cases of a step, the effects of a bus access and the form of a
command's completion. A proof about every step takes these cases and never unfolds step. -/

namespace Sys2Proof.Machine

open Sys2Proof

/-- Everything a bus access can do to a state (20_memory.md R80 to R94, 70_reset_and_hazards.md R346). -/
inductive BusEffect (s : State) : State → Prop
  | none : BusEffect s s
  | read (d : Word) (n : Nat) (h : s.phase = .idle → n = s.busyDraws) :
      BusEffect s { s with readData := d, busyDraws := n }
  | illegal (d : Word) : BusEffect s { s with accErr := true, readData := d }
  | dropped (h : s.phase = .busy) : BusEffect s { s with wrBusy := true }
  | cmd (op : BitVec 4) (h : s.phase = .idle) : BusEffect s { s with cmdOp := op }
  | inLen (n : Word) (h : s.phase = .idle) : BusEffect s { s with inLen := n }
  | inMem (k : Nat) (bs : Bytes) (h : s.phase = .idle) (hk : bs.length ≤ 4)
      (hb : bs ≠ []) (hin : k + bs.length ≤ s.params.inMemSize) :
      BusEffect s { s with inMem := s.inMem.writeBytes k bs }
  | ie (b : Bool) : BusEffect s { s with ie := b }
  | start (b : Bool) : BusEffect s (startCommand b s)
  | softReset : BusEffect s (softReset s)
  | ack (a b c : Bool) : BusEffect s (clearStatus a b c s)

theorem writeReg_effect (r : RegName) (v : Word) (s : State) : BusEffect s (writeReg r v s) := by
  cases r with
  | ctrl =>
    simp only [writeReg, writeCtrl]
    split_ifs
    · exact .softReset
    · exact .start _
    · exact .ie _
  | cmd =>
    simp only [writeReg, unlessBusy]
    split
    · exact .dropped ‹_›
    · exact .cmd _ ‹_›
  | inLen =>
    simp only [writeReg, unlessBusy]
    split
    · exact .dropped ‹_›
    · exact .inLen _ ‹_›
  | status => exact .ack _ _ _
  | _ => exact .none

theorem region_inMem_bound {p : Params} {a k : Nat} (h : region p a = .inMem k) : k < p.inMemSize := by
  unfold region at h
  split_ifs at h
  simp only [Region.inMem.injEq] at h
  omega

/-- What a host transaction can do. -/
theorem hostAccess_effect (x : HostAccess) (s : State) : BusEffect s (hostAccess x s) := by
  have reads : ∀ w a, BusEffect s (busRead w a s) := by
    intro w a
    refine .read _ _ fun hp => ?_
    simp only [hp]
    split <;> simp_all
  cases x with
  | r8 a =>
    simp only [hostAccess]
    split_ifs
    · exact reads _ _
    · exact .illegal _
  | r32 a =>
    simp only [hostAccess]
    split_ifs
    · exact reads _ _
    · exact .illegal _
  | w8 a v =>
    simp only [hostAccess]
    split_ifs with hl
    · simp only [busWrite]
      split <;> try exact .none
      · rename_i h
        simp [legalAccess, h] at hl
      · rename_i k h
        simp only [unlessBusy]
        split
        · exact .dropped ‹_›
        · exact .inMem k [v] ‹_› (by simp) (by simp) (by simpa using region_inMem_bound h)
    · exact .illegal _
  | w32 a v =>
    simp only [hostAccess]
    split_ifs with hl
    · simp only [busWrite]
      split <;> try exact .none
      · split
        · exact writeReg_effect _ _ _
        · exact .none
      · rename_i k h
        simp only [unlessBusy]
        split
        · exact .dropped ‹_›
        · refine .inMem k (laneBytes v) ‹_› (by simp [laneBytes]) (by simp [laneBytes]) ?_
          simp only [legalAccess, h, Bool.and_eq_true, Bool.or_eq_true, decide_eq_true_eq, reduceCtorEq,
            false_or] at hl
          exact hl.2
    · exact .illegal _

/-! ## Commands -/

/-- How a command ends in a state: its outcome, and the state it is committed to, in which the internal buffers
alone may differ (40_command_cycle.md R163). -/
inductive CommandEnd (s : State) : Except CmdError CmdResult → State → Prop
  | sixbit : CommandEnd s (sixbitOutcome s) s
  | rle : CommandEnd s (rleOutcome s) s
  | binhex : CommandEnd s ((binhexDecode s).2.map .record) (binhexDecode s).1
  | macbin : CommandEnd s ((macbinDecode s).map .record) s
  | dsk : CommandEnd s (dskOutcome s) s
  | binhexDsk : CommandEnd s (thenDiskCopy (binhexDecode s).2) (binhexDecode s).1
  | macbinDsk : CommandEnd s (thenDiskCopy (macbinDecode s)) s
  | reserved (op : BitVec 4) : CommandEnd s (.error (badCommand op)) s

/-- The sixteen OPs, case by case. -/
theorem op_cases (op : BitVec 4) :
    op = 0 ∨ op = 1 ∨ op = 2 ∨ op = 3 ∨ op = 4 ∨ op = 5 ∨ op = 6 ∨ op = 7 ∨ op = 8 ∨ op = 9 ∨ op = 10 ∨
      op = 11 ∨ op = 12 ∨ op = 13 ∨ op = 14 ∨ op = 15 := by
  revert op
  decide

/-- Every command answers a next state, the completion of one of these ends. -/
theorem exec_decodeOp (op : BitVec 4) (s : State) :
    ∃ o t, CommandEnd s o t ∧ exec (decodeOp op) s = .next (complete o t) := by
  rcases op_cases op with h | h | h | h | h | h | h | h | h | h | h | h | h | h | h | h <;> subst h
  · exact ⟨_, _, .reserved 0, rfl⟩
  · exact ⟨_, _, .sixbit, rfl⟩
  · exact ⟨_, _, .rle, rfl⟩
  · exact ⟨_, _, .binhex, rfl⟩
  · exact ⟨_, _, .macbin, rfl⟩
  · exact ⟨_, _, .dsk, rfl⟩
  · exact ⟨_, _, .binhexDsk, rfl⟩
  · exact ⟨_, _, .macbinDsk, rfl⟩
  · exact ⟨_, _, .reserved 8, rfl⟩
  · exact ⟨_, _, .reserved 9, rfl⟩
  · exact ⟨_, _, .reserved 10, rfl⟩
  · exact ⟨_, _, .reserved 11, rfl⟩
  · exact ⟨_, _, .reserved 12, rfl⟩
  · exact ⟨_, _, .reserved 13, rfl⟩
  · exact ⟨_, _, .reserved 14, rfl⟩
  · exact ⟨_, _, .reserved 15, rfl⟩

/-- What the internal buffers hold after a BinHex decode: what they held, nothing, or a stage's output. -/
theorem binhexDecode_buffers (s : State) :
    ((binhexDecode s).1.s1 = s.s1 ∨ ∃ bs, (binhexDecode s).1.s1 = Memory.ofBytes bs) ∧
      ((binhexDecode s).1.xs = s.xs ∨ ∃ bs, (binhexDecode s).1.xs = Memory.ofBytes bs) := by
  have hnil : Memory.empty = Memory.ofBytes [] := rfl
  cases hc : s.checkLength with
  | error e =>
    simp only [binhexDecode, hc]
    simp
  | ok u =>
    simp only [binhexDecode, hc]
    split
    · exact ⟨.inr ⟨[], hnil⟩, .inr ⟨[], hnil⟩⟩
    · split
      · exact ⟨.inr ⟨_, rfl⟩, .inr ⟨[], hnil⟩⟩
      · exact ⟨.inr ⟨_, rfl⟩, .inr ⟨_, rfl⟩⟩

/-- A command's end differs from the state it began in in the internal buffers alone. -/
theorem CommandEnd.frame {s t : State} {o : Except CmdError CmdResult} (h : CommandEnd s o t) :
    t = { s with s1 := t.s1, xs := t.xs } := by
  cases h <;> first | rfl | exact binhexDecode_frame s

/-! ## Steps -/

/-- The engine has the turn when the agenda is empty or says so. -/
abbrev State.EngineTurn (s : State) : Prop := s.agenda = [] ∨ s.agenda.head? = some .engine

theorem action_of_turn {s : State} (h : s.EngineTurn) : s.action = engineTurn s := by
  rcases h with h | h
  · simp only [State.action, h]
  · obtain ⟨e, rest, he⟩ : ∃ e rest, s.agenda = e :: rest := by
      cases hs : s.agenda with
      | nil => simp [hs] at h
      | cons e rest => exact ⟨e, rest, rfl⟩
    rw [he, List.head?_cons, Option.some.injEq] at h
    subst h
    simp only [State.action, he]

theorem step_of_busy {s : State} (h : s.EngineTurn) (hp : s.phase = .busy) :
    step s = exec (decodeOp s.latchOp) s.advance := by
  simp only [step, action_of_turn h, engineTurn, hp]

theorem step_of_idle {s : State} (h : s.EngineTurn) (hp : s.phase = .idle) : step s = .next s.advance := by
  simp only [step, action_of_turn h, engineTurn, hp]

theorem step_of_hardReset {s : State} {rest : List Event} (h : s.agenda = .hardReset :: rest) :
    step s = .next (hardReset s.advance) := by
  simp only [step, State.action, h]

/-- The three register-write operations, run as table operations, do what a bus access can do. -/
theorem exec_busOperation {x : HostAccess} {i : Instr} (h : busOperation x = some i) (s : State) :
    ∃ t, exec i s = .next t ∧ BusEffect s t := by
  cases x with
  | w32 a v =>
    simp only [busOperation] at h
    split at h
    · simp only [decode, decodeCtrl, Except.toOption] at h
      split_ifs at h
      · cases h; exact ⟨_, rfl, .softReset⟩
      · cases h; exact ⟨_, rfl, .start _⟩
    · cases h; exact ⟨_, rfl, .ack _ _ _⟩
    · cases h
  | _ => cases h

/-- What a step can do: the engine completes or idles, a hard reset, or a host transaction. -/
theorem step_cases {s t : State} (h : step s = .next t) :
    (s.EngineTurn ∧ s.phase = .busy ∧ exec (decodeOp s.latchOp) s.advance = .next t) ∨
      (s.EngineTurn ∧ s.phase = .idle ∧ t = s.advance) ∨
      (s.agenda.head? = some .hardReset ∧ t = hardReset s.advance) ∨
      ((∃ x, s.agenda.head? = some (.host x)) ∧ BusEffect s.advance t) := by
  cases ha : s.agenda with
  | nil =>
    cases hp : s.phase with
    | idle =>
      rw [step_of_idle (.inl ha) hp] at h
      cases h
      exact .inr (.inl ⟨.inl ha, rfl, rfl⟩)
    | busy =>
      rw [step_of_busy (.inl ha) hp] at h
      exact .inl ⟨.inl ha, rfl, h⟩
  | cons e rest =>
    have hh : s.agenda.head? = some e := by rw [ha]; rfl
    cases e with
    | engine =>
      cases hp : s.phase with
      | idle =>
        rw [step_of_idle (.inr hh) hp] at h
        cases h
        exact .inr (.inl ⟨.inr hh, rfl, rfl⟩)
      | busy =>
        rw [step_of_busy (.inr hh) hp] at h
        exact .inl ⟨.inr hh, rfl, h⟩
    | hardReset =>
      rw [step_of_hardReset ha] at h
      cases h
      exact .inr (.inr (.inl ⟨rfl, rfl⟩))
    | host x =>
      refine .inr (.inr (.inr ⟨⟨x, rfl⟩, ?_⟩))
      cases hx : busOperation x with
      | none =>
        simp only [step, State.action, ha, hx] at h
        cases h
        exact hostAccess_effect x _
      | some i =>
        obtain ⟨u, hu, he⟩ := exec_busOperation hx s.advance
        simp only [step, State.action, ha, hx, hu] at h
        cases h
        exact he

end Sys2Proof.Machine
end

