-- ==== Sys2Proof/Laws/Reads.lean ====
section
/-! SUPPORT. The bounds-checked reads of 41_bytecursor.md, each said once: the value inside the buffer, and
TruncatedInput outside. -/

namespace Sys2Proof.Machine

open Sys2Proof

theorem ok_bind {α β : Type} (a : α) (f : α → Except CmdError β) : ((.ok a : Except CmdError α) >>= f) = f a := rfl

theorem error_bind {α β : Type} (e : CmdError) (f : α → Except CmdError β) :
    ((.error e : Except CmdError α) >>= f) = .error e := rfl

theorem checkRead_ok {buf : Bytes} {off n : Nat} (stage : Stage) (h : off + n ≤ buf.length) :
    checkRead stage buf off n = .ok () := if_neg (by omega)

theorem checkRead_error {buf : Bytes} {off n : Nat} (stage : Stage) (h : buf.length < off + n) :
    checkRead stage buf off n = .error ⟨.truncatedInput, off, stage, 0⟩ := if_pos (by omega)

theorem readBytes_ok {buf : Bytes} {off n : Nat} (stage : Stage) (h : off + n ≤ buf.length) :
    readBytes stage buf off n = .ok ((buf.drop off).take n) := by
  simp only [readBytes, checkRead_ok stage h]
  rfl

theorem readBytes_error {buf : Bytes} {off n : Nat} (stage : Stage) (h : buf.length < off + n) :
    readBytes stage buf off n = .error ⟨.truncatedInput, off, stage, 0⟩ := by
  simp only [readBytes, checkRead_error stage h]
  rfl

theorem skipBytes_ok {buf : Bytes} {off n : Nat} (stage : Stage) (h : off + n ≤ buf.length) :
    skipBytes stage buf off n = .ok (off + n) := by
  simp only [skipBytes, checkRead_ok stage h]
  rfl

theorem skipBytes_error {buf : Bytes} {off n : Nat} (stage : Stage) (h : buf.length < off + n) :
    skipBytes stage buf off n = .error ⟨.truncatedInput, off, stage, 0⟩ := by
  simp only [skipBytes, checkRead_error stage h]
  rfl

theorem readU8_ok {buf : Bytes} {off : Nat} (stage : Stage) (h : off + 1 ≤ buf.length) :
    readU8 stage buf off = .ok (byteAt buf off).toNat := by
  simp only [readU8, checkRead_ok stage h]
  rfl

theorem readU8_error {buf : Bytes} {off : Nat} (stage : Stage) (h : buf.length < off + 1) :
    readU8 stage buf off = .error ⟨.truncatedInput, off, stage, 0⟩ := by
  simp only [readU8, checkRead_error stage h]
  rfl

/-- The bytes from an offset on, one after the other. -/
theorem take_succ_drop {buf : Bytes} {off n : Nat} (h : off < buf.length) :
    (buf.drop off).take (n + 1) = byteAt buf off :: (buf.drop (off + 1)).take n := by
  rw [List.drop_eq_getElem_cons h, List.take_succ_cons]
  congr 1
  simp [byteAt, List.getD_eq_getElem?_getD, h]

theorem readBE16_ok {buf : Bytes} {off : Nat} (stage : Stage) (h : off + 2 ≤ buf.length) :
    readBE16 stage buf off = .ok ((byteAt buf off).toNat * 2 ^ 8 + (byteAt buf (off + 1)).toNat) := by
  simp only [readBE16, readBytes_ok stage h, ok_bind]
  rw [take_succ_drop (by omega), take_succ_drop (by omega), List.take_zero]
  simp [beNat, pure, Except.pure]

theorem readBE16_error {buf : Bytes} {off : Nat} (stage : Stage) (h : buf.length < off + 2) :
    readBE16 stage buf off = .error ⟨.truncatedInput, off, stage, 0⟩ := by
  simp only [readBE16, readBytes_error stage h]
  rfl

theorem beNat_four (b0 b1 b2 b3 : Byte) :
    beNat [b0, b1, b2, b3] = b0.toNat * 2 ^ 24 + b1.toNat * 2 ^ 16 + b2.toNat * 2 ^ 8 + b3.toNat := by
  simp only [beNat, List.foldl_cons, List.foldl_nil]
  omega

theorem readBE32_ok {buf : Bytes} {off : Nat} (stage : Stage) (h : off + 4 ≤ buf.length) :
    readBE32 stage buf off = .ok (be32At buf off) := by
  simp only [readBE32, readBytes_ok stage h, ok_bind]
  rw [take_succ_drop (by omega), take_succ_drop (by omega), take_succ_drop (by omega),
    take_succ_drop (by omega), List.take_zero, beNat_four]
  rfl

theorem readBE32_error {buf : Bytes} {off : Nat} (stage : Stage) (h : buf.length < off + 4) :
    readBE32 stage buf off = .error ⟨.truncatedInput, off, stage, 0⟩ := by
  simp only [readBE32, readBytes_error stage h]
  rfl

theorem readSBE32_ok {buf : Bytes} {off : Nat} (stage : Stage) (h : off + 4 ≤ buf.length) :
    readSBE32 stage buf off = .ok (sext32 (be32At buf off)) := by
  simp only [readSBE32, readBE32_ok stage h]
  rfl

theorem readSBE32_error {buf : Bytes} {off : Nat} (stage : Stage) (h : buf.length < off + 4) :
    readSBE32 stage buf off = .error ⟨.truncatedInput, off, stage, 0⟩ := by
  simp only [readSBE32, readBE32_error stage h]
  rfl

theorem be32At_lt (b : Bytes) (off : Nat) : be32At b off < 2 ^ 32 := by
  have h0 := (byteAt b off).isLt
  have h1 := (byteAt b (off + 1)).isLt
  have h2 := (byteAt b (off + 2)).isLt
  have h3 := (byteAt b (off + 3)).isLt
  unfold be32At
  omega

/-- A two's complement field is nonnegative exactly when its top bit is 0 (44_binhex.md R212). -/
theorem sext32_nonneg {v : Nat} (h : v < 2 ^ 31) : sext32 v = (v : Int) := if_pos h

theorem sext32_neg {v : Nat} (h : 2 ^ 31 ≤ v) (h2 : v < 2 ^ 32) : sext32 v < 0 := by
  unfold sext32
  rw [if_neg (by omega)]
  omega

/-! ## What a successful read says -/

theorem bind_ok_inv {α β : Type} {x : Except CmdError α} {f : α → Except CmdError β} {b : β}
    (h : (x >>= f) = .ok b) : ∃ a, x = .ok a ∧ f a = .ok b := by
  cases x with
  | error e => cases h
  | ok a => exact ⟨a, rfl, h⟩

/-- A check that did not throw was passed. -/
theorem check_inv {α : Type} {c : Prop} [Decidable c] {e : CmdError} {k : PUnit → Except CmdError α} {a : α}
    (h : (if c then (throw e >>= k) else k ⟨⟩) = .ok a) : ¬ c ∧ k ⟨⟩ = .ok a := by
  by_cases hc : c
  · rw [if_pos hc] at h
    cases h
  · rw [if_neg hc] at h
    exact ⟨hc, h⟩

theorem readBytes_inv {stage : Stage} {buf bs : Bytes} {off n : Nat} (h : readBytes stage buf off n = .ok bs) :
    off + n ≤ buf.length ∧ bs = (buf.drop off).take n := by
  by_cases hl : off + n ≤ buf.length
  · rw [readBytes_ok stage hl] at h
    cases h
    exact ⟨hl, rfl⟩
  · rw [readBytes_error stage (by omega)] at h
    cases h

theorem skipBytes_inv {stage : Stage} {buf : Bytes} {off n q : Nat} (h : skipBytes stage buf off n = .ok q) :
    off + n ≤ buf.length ∧ q = off + n := by
  by_cases hl : off + n ≤ buf.length
  · rw [skipBytes_ok stage hl] at h
    cases h
    exact ⟨hl, rfl⟩
  · rw [skipBytes_error stage (by omega)] at h
    cases h

theorem readU8_inv {stage : Stage} {buf : Bytes} {off n : Nat} (h : readU8 stage buf off = .ok n) :
    off + 1 ≤ buf.length ∧ n = (byteAt buf off).toNat := by
  by_cases hl : off + 1 ≤ buf.length
  · rw [readU8_ok stage hl] at h
    cases h
    exact ⟨hl, rfl⟩
  · rw [readU8_error stage (by omega)] at h
    cases h

theorem readBE32_inv {stage : Stage} {buf : Bytes} {off n : Nat} (h : readBE32 stage buf off = .ok n) :
    off + 4 ≤ buf.length ∧ n = be32At buf off := by
  by_cases hl : off + 4 ≤ buf.length
  · rw [readBE32_ok stage hl] at h
    cases h
    exact ⟨hl, rfl⟩
  · rw [readBE32_error stage (by omega)] at h
    cases h

end Sys2Proof.Machine
end

