-- ==== Sys2Proof/Laws/Stages.lean ====
section
/-! SUPPORT. What the stages answer, said once: the RLE scan over a token stream, the six-bit loop over a valid
text, the bounds-checked reads. -/

namespace Sys2Proof.Machine

open Sys2Proof

/-! ## RLE -/

theorem emitTo_length_le (out : Bytes) (t : RleToken) : out.length ≤ (t.emitTo out).length := by
  cases t <;> simp [RleToken.emitTo]

theorem foldl_emitTo_length_le (ts : List RleToken) : ∀ out : Bytes,
    out.length ≤ (ts.foldl RleToken.emitTo out).length := by
  induction ts with
  | nil => intro out; exact le_rfl
  | cons t ts ih => intro out; exact (emitTo_length_le out t).trans (ih _)

theorem rleEmit_ok {cap n len : Nat} (pos : Nat) (x : Byte) (out : Bytes) (h : len + n ≤ cap) :
    rleEmit cap pos n x out len = .ok (List.replicate n x ++ out, len + n) := if_pos h

theorem rleEmit_full {cap n len : Nat} (pos : Nat) (x : Byte) (out : Bytes) (h : cap < len + n) :
    rleEmit cap pos n x out len = .error ⟨.capacityExceeded, pos, .rle, 0⟩ := if_neg (by omega)

@[simp] theorem rleGo_nil (cap i : Nat) (out : Bytes) (len : Nat) :
    rleGo cap [] i out len = .ok out.reverse := by
  rw [rleGo]

/-- A literal byte (42_rle.md R186). -/
theorem rleGo_literal {b : Byte} (hb : b ≠ 0x90) (cap i : Nat) (tail out : Bytes) (len : Nat) :
    rleGo cap (b :: tail) i out len =
      (rleEmit cap i 1 b out len).bind fun o => rleGo cap tail (i + 1) o.1 o.2 := by
  rw [rleGo.eq_def]
  exact if_pos hb

/-- An escape byte at the end of the stream (42_rle.md R189). -/
theorem rleGo_truncated (cap i : Nat) (out : Bytes) (len : Nat) :
    rleGo cap [0x90] i out len = .error ⟨.truncatedRun, i, .rle, 0⟩ := by
  rw [rleGo.eq_def]
  rfl

/-- An escaped literal (42_rle.md R187). -/
theorem rleGo_escaped (cap i : Nat) (tail out : Bytes) (len : Nat) :
    rleGo cap (0x90 :: 0 :: tail) i out len =
      (rleEmit cap i 1 0x90 out len).bind fun o => rleGo cap tail (i + 2) o.1 o.2 := by
  rw [rleGo.eq_def]
  rfl

/-- A run with nothing to repeat (42_rle.md R190). -/
theorem rleGo_malformed {n : Byte} (hn : n ≠ 0) (cap i : Nat) (tail : Bytes) (len : Nat) :
    rleGo cap (0x90 :: n :: tail) i [] len = .error ⟨.malformedRun, i, .rle, 0⟩ := by
  rw [rleGo.eq_def]
  exact if_neg hn

/-- A run (42_rle.md R188). -/
theorem rleGo_run {n : Byte} (hn : n ≠ 0) (cap i : Nat) (tail : Bytes) (x : Byte) (out : Bytes) (len : Nat) :
    rleGo cap (0x90 :: n :: tail) i (x :: out) len =
      (rleEmit cap i (n.toNat - 1) x (x :: out) len).bind fun o => rleGo cap tail (i + 2) o.1 o.2 := by
  rw [rleGo.eq_def]
  exact if_neg hn

/-- One token of a stream: the scan takes its bytes and emits what the token stands for, or finds the buffer
full. -/
theorem rleGo_token (cap i : Nat) (t : RleToken) (out tail : Bytes) (ht : t.Ok)
    (hrun : ∀ n, t = .run n → out ≠ []) :
    rleGo cap (t.bytes ++ tail) i out.reverse out.length =
      if (t.emitTo out).length ≤ cap then
        rleGo cap tail (i + t.bytes.length) (t.emitTo out).reverse (t.emitTo out).length
      else .error ⟨.capacityExceeded, i, .rle, 0⟩ := by
  cases t with
  | literal b =>
    simp only [RleToken.bytes, List.singleton_append, rleGo_literal ht, RleToken.emitTo, rleEmit,
      List.length_append, List.length_singleton, List.reverse_append, List.reverse_singleton]
    split_ifs <;> simp [Except.bind]
  | escaped =>
    simp only [RleToken.bytes, List.cons_append, List.nil_append, rleGo_escaped, RleToken.emitTo, rleEmit,
      List.length_append, List.length_singleton, List.reverse_append, List.reverse_singleton]
    split_ifs <;> simp [Except.bind]
  | run n =>
    obtain ⟨init, x, rfl⟩ : ∃ init x, out = init ++ [x] :=
      ⟨out.dropLast, out.getLast (hrun n rfl), (List.dropLast_append_getLast _).symm⟩
    simp only [RleToken.bytes, List.cons_append, List.nil_append, RleToken.emitTo, List.reverse_append,
      List.reverse_singleton, rleGo_run ht, rleEmit, List.length_append, List.length_replicate,
      List.getLastD_concat]
    split_ifs <;> simp [Except.bind]

/-- A stream of well-formed tokens whose expansion fits is scanned to its end, whatever follows it. -/
theorem rleGo_tokens (cap : Nat) (tail : Bytes) (ts : List RleToken) : ∀ (i : Nat) (out : Bytes),
    (∀ t ∈ ts, t.Ok) → (∀ n, ts.head? = some (.run n) → out ≠ []) →
    (ts.foldl RleToken.emitTo out).length ≤ cap →
    rleGo cap (tokenBytes ts ++ tail) i out.reverse out.length =
      rleGo cap tail (i + (tokenBytes ts).length) (ts.foldl RleToken.emitTo out).reverse
        (ts.foldl RleToken.emitTo out).length := by
  induction ts with
  | nil => intro i out _ _ _; simp [tokenBytes]
  | cons t ts ih =>
    intro i out hok hrun hcap
    have hlen := foldl_emitTo_length_le ts (t.emitTo out)
    have hstep := rleGo_token cap i t out (tokenBytes ts ++ tail) (hok t (by simp))
      (fun n h => hrun n (by simp [h]))
    rw [if_pos (hlen.trans hcap)] at hstep
    have hne : t.emitTo out ≠ [] := by
      cases t with
      | literal b => simp [RleToken.emitTo]
      | escaped => simp [RleToken.emitTo]
      | run n => simp [RleToken.emitTo, hrun n (by simp)]
    have := ih (i + t.bytes.length) (t.emitTo out) (fun t' h => hok t' (by simp [h])) (fun _ _ => hne) hcap
    simp only [tokenBytes, List.flatMap_cons, List.append_assoc, List.foldl_cons] at hstep this ⊢
    rw [hstep, this, List.length_append, Nat.add_assoc]

/-- The stage over a well-formed token stream (42_rle.md R185 to R188). -/
theorem rle_tokens {cap : Nat} {ts : List RleToken} (h : TokensOk ts) (hcap : (expandTokens ts).length ≤ cap) :
    rle cap (tokenBytes ts) = .ok (expandTokens ts) := by
  have := rleGo_tokens cap [] ts 0 [] h.1 (fun n hn => absurd hn (h.2 n)) hcap
  simpa [rle, rleGo, expandTokens] using this

/-! ## The six-bit stage -/

theorem extractLsb'_ofNat_48 (n : Nat) {k : Nat} (hk : k ≤ 40) :
    (BitVec.ofNat 48 n).extractLsb' k 8 = BitVec.ofNat 8 (n / 2 ^ k) := by
  apply BitVec.eq_of_toNat_eq
  simp only [BitVec.extractLsb'_toNat, BitVec.toNat_ofNat, Nat.shiftRight_eq_div_pow]
  have h48 : 2 ^ 48 = 2 ^ k * 2 ^ (48 - k) := by rw [← pow_add]; congr 1; omega
  rw [h48, Nat.mod_mul_right_div_self]
  exact Nat.mod_mod_of_dvd _ (pow_dvd_pow 2 (by omega))

/-- The six bytes of a group are those of its 48-bit word (30_encoding.md R128). -/
theorem groupBytes_ofNat (n : Nat) :
    groupBytes (BitVec.ofNat 48 n) =
      (List.range 6).map fun j => BitVec.ofNat 8 (n / 2 ^ (40 - 8 * j)) := by
  have hr : List.range 6 = [0, 1, 2, 3, 4, 5] := by decide
  rw [hr, groupBytes]
  simp only [List.map_cons, List.map_nil, Nat.reduceMul, Nat.reduceSub, extractLsb'_ofNat_48 n (Nat.le_refl 40),
    extractLsb'_ofNat_48 n (show 32 ≤ 40 by decide), extractLsb'_ofNat_48 n (show 24 ≤ 40 by decide),
    extractLsb'_ofNat_48 n (show 16 ≤ 40 by decide), extractLsb'_ofNat_48 n (show 8 ≤ 40 by decide),
    extractLsb'_ofNat_48 n (show 0 ≤ 40 by decide)]

theorem groupWord_append {us : List Nat} (rest : List Nat) (h : us.length = 8) :
    groupWord (us ++ rest) = groupWord us := by
  refine congrArg List.sum (List.map_congr_left ?_)
  intro i hi
  have : i < us.length := by simpa [h] using hi
  simp [List.getD_eq_getElem?_getD, List.getElem?_append_left this]

/-- One more value in a group that is not full. -/
theorem groupWord_concat {us : List Nat} (v : Nat) (h : us.length < 8) :
    groupWord (us ++ [v]) = groupWord us + v * 2 ^ (42 - 6 * us.length) := by
  have key : ∀ i, (us ++ [v]).getD i 0 * 2 ^ (42 - 6 * i) =
      us.getD i 0 * 2 ^ (42 - 6 * i) + if i = us.length then v * 2 ^ (42 - 6 * us.length) else 0 := by
    intro i
    rcases lt_trichotomy i us.length with hi | hi | hi
    · simp [List.getD_eq_getElem?_getD, List.getElem?_append_left hi, hi.ne]
    · subst hi; simp [List.getD_eq_getElem?_getD]
    · have h0 : us.getD i 0 = 0 := by
        simp [List.getD_eq_getElem?_getD, List.getElem?_eq_none hi.le]
      have h1 : (us ++ [v]).getD i 0 = 0 := by
        simp only [List.getD_eq_getElem?_getD]
        rw [List.getElem?_eq_none (by simp; omega)]; rfl
      rw [h0, h1, if_neg hi.ne', Nat.zero_mul]
  have hsum : ((List.range 8).map fun i => if i = us.length then v * 2 ^ (42 - 6 * us.length) else 0).sum =
      v * 2 ^ (42 - 6 * us.length) := by
    generalize v * 2 ^ (42 - 6 * us.length) = w
    generalize us.length = m at h
    have hr : List.range 8 = [0, 1, 2, 3, 4, 5, 6, 7] := by decide
    rw [hr]
    interval_cases m <;> simp
  simp only [groupWord, key]
  rw [List.sum_map_add, hsum]

@[simp] theorem demodulated_nil : demodulated [] = [] := rfl

/-- A full group comes first. -/
theorem demodulated_full {us : List Nat} (rest : List Nat) (h : us.length = 8) :
    demodulated (us ++ rest) = groupBytes (BitVec.ofNat 48 (groupWord us)) ++ demodulated rest := by
  have hn : ((us ++ rest).length + 7) / 8 = (rest.length + 7) / 8 + 1 := by
    simp only [List.length_append]; omega
  simp only [demodulated, hn, List.range_succ_eq_map, List.flatMap_cons, Nat.mul_zero, List.drop_zero,
    groupWord_append rest h, groupBytes_ofNat, List.flatMap_map]
  refine congrArg (List.append _) ?_
  have : ∀ g, (us ++ rest).drop (8 * Nat.succ g) = rest.drop (8 * g) := by
    intro g
    rw [List.drop_append, List.drop_of_length_le (by omega)]
    simp only [List.nil_append]
    congr 1
    omega
  simp only [this]

/-- A partial group is flushed as a full one (43_sixbit.md R198). -/
theorem demodulated_partial {us : List Nat} (h1 : us ≠ []) (h2 : us.length ≤ 8) :
    demodulated us = groupBytes (BitVec.ofNat 48 (groupWord us)) := by
  have h0 := List.length_pos_iff.mpr h1
  have hn : (us.length + 7) / 8 = 1 := by omega
  simp [demodulated, hn, groupBytes_ofNat, List.range_succ]

theorem length_groupBytes (g : BitVec 48) : (groupBytes g).length = 6 := rfl

theorem idxOf?_of_mem {c : Byte} {l : Bytes} (h : c ∈ l) : l.idxOf? c = some (l.idxOf c) := by
  induction l with
  | nil => simp at h
  | cons d l ih =>
    rw [List.idxOf?_cons, List.idxOf_cons]
    by_cases hd : d = c
    · simp [hd]
    · rw [if_neg (by simpa using hd), cond_eq_ite, if_neg (by simpa using hd),
        ih ((List.mem_cons.mp h).resolve_left (Ne.symm hd))]
      rfl

/-- An alphabet byte's value is its index (30_encoding.md R127). -/
theorem alphabetValue_of_mem {p : Params} {c : Byte} (h : c ∈ p.alphabet) :
    alphabetValue p c = some (p.alphabet.idxOf c) := idxOf?_of_mem h

theorem alphabetValue_of_not_mem {p : Params} {c : Byte} (h : c ∉ p.alphabet) :
    alphabetValue p c = none := List.idxOf?_eq_none_iff.mpr h

/-- The loop over a valid text, from a group in progress. -/
theorem sixBitGo_valid (p : Params) (text : Bytes) : ∀ (pos : Nat) (us : List Nat) (out : Bytes),
    TextValid p text → us.length < 8 →
    sixBitGo p text pos (BitVec.ofNat 48 (groupWord us)) us.length out.reverse =
      .ok (out ++ demodulated (us ++ textValues p text)) := by
  induction text with
  | nil =>
    intro pos us out _ hk
    by_cases h : us = []
    · subst h; simp [sixBitGo, textValues]
    · have : us.length ≠ 0 := by simpa using h
      simp [sixBitGo, textValues, this, demodulated_partial h hk.le]
  | cons c text ih =>
    intro pos us out hv hk
    have hv' : TextValid p text := fun d hd => hv d (by simp [hd])
    by_cases hw : c ∈ p.whitespace
    · simp only [sixBitGo, if_pos hw, ih _ us out hv' hk]
      simp [textValues, hw]
    · have hc : c ∈ p.alphabet := (hv c (by simp)).resolve_left hw
      have hval := alphabetValue_of_mem hc
      have htv : textValues p (c :: text) = p.alphabet.idxOf c :: textValues p text := by
        simp [textValues, hw]
      simp only [sixBitGo, if_neg hw, hval]
      have hg : BitVec.ofNat 48 (groupWord us) +
          BitVec.ofNat 48 (p.alphabet.idxOf c * 2 ^ (42 - 6 * us.length)) =
          BitVec.ofNat 48 (groupWord (us ++ [p.alphabet.idxOf c])) := by
        rw [groupWord_concat _ hk, BitVec.ofNat_add]
      rw [hg, htv]
      split_ifs with h8
      · have hz : (0 : BitVec 48) = BitVec.ofNat 48 (groupWord []) := rfl
        have := ih (pos + 1) [] (out ++ groupBytes (BitVec.ofNat 48 (groupWord (us ++ [p.alphabet.idxOf c]))))
          hv' (by simp)
        rw [← List.reverse_append, hz]
        simp only [List.length_nil] at this
        rw [this, List.append_cons us _ (textValues p text), demodulated_full (us := us ++ [p.alphabet.idxOf c]) _
          (by simpa using h8)]
        simp
      · have := ih (pos + 1) (us ++ [p.alphabet.idxOf c]) out hv' (by simp; omega)
        simp only [List.length_append, List.length_singleton] at this
        rw [this, List.append_cons us _ (textValues p text)]

/-- The six-bit stage over a valid text (43_sixbit.md R195 to R198). -/
theorem sixBit_valid {p : Params} {text : Bytes} (h : TextValid p text) (base : Nat) :
    sixBit p text base = .ok (demodulated (textValues p text)) := by
  simpa [sixBit, groupWord] using sixBitGo_valid p text base [] [] h (by simp)

/-- A valid text in front of a byte that is neither whitespace nor in the alphabet: the loop stops there
(43_sixbit.md R200). -/
theorem sixBitGo_invalid (p : Params) {c : Byte} (hw : c ∉ p.whitespace) (hc : c ∉ p.alphabet)
    (post : Bytes) : ∀ (pre : Bytes) (pos : Nat) (g : BitVec 48) (k : Nat) (out : Bytes), TextValid p pre →
    sixBitGo p (pre ++ c :: post) pos g k out = .error ⟨.invalidCharacter, pos + pre.length, .sixbit, c⟩ := by
  intro pre
  induction pre with
  | nil =>
    intro pos g k out _
    simp [sixBitGo, hw, alphabetValue_of_not_mem hc]
  | cons d pre ih =>
    intro pos g k out hv
    have hv' : TextValid p pre := fun e he => hv e (by simp [he])
    have hpos : pos + (d :: pre).length = pos + 1 + pre.length := by simp; omega
    rw [hpos]
    by_cases hd : d ∈ p.whitespace
    · simp only [List.cons_append, sixBitGo, if_pos hd]
      exact ih (pos + 1) g k out hv'
    · have hval := alphabetValue_of_mem ((hv d (by simp)).resolve_left hd)
      simp only [List.cons_append, sixBitGo, if_neg hd, hval]
      split_ifs
      · exact ih (pos + 1) _ _ _ hv'
      · exact ih (pos + 1) _ _ _ hv'

/-- A text that the loop accepts is valid. -/
theorem textValid_of_sixBitGo {p : Params} : ∀ {text : Bytes} {pos : Nat} {g : BitVec 48} {k : Nat}
    {out bs : Bytes}, sixBitGo p text pos g k out = .ok bs → TextValid p text := by
  intro text
  induction text with
  | nil => intro _ _ _ _ _ _ c hc; simp at hc
  | cons d text ih =>
    intro pos g k out bs h c hc
    unfold sixBitGo at h
    by_cases hd : d ∈ p.whitespace
    · rw [if_pos hd] at h
      rcases List.mem_cons.mp hc with rfl | hc
      · exact .inl hd
      · exact ih h c hc
    · rw [if_neg hd] at h
      by_cases hmem : d ∈ p.alphabet
      · rw [alphabetValue_of_mem hmem] at h
        rcases List.mem_cons.mp hc with rfl | hc
        · exact .inr hmem
        · dsimp only at h
          split_ifs at h
          · exact ih h c hc
          · exact ih h c hc
      · rw [alphabetValue_of_not_mem hmem] at h
        cases h

/-- Six bytes for each started group of 8 values (43_sixbit.md R199). -/
theorem length_demodulated (vs : List Nat) : (demodulated vs).length = 6 * ((vs.length + 7) / 8) := by
  simp [demodulated, List.length_flatMap, Nat.mul_comm]

end Sys2Proof.Machine
end

