-- ==== Sys2Proof/Laws/Records.lean ====
section
/-! SUPPORT. What the container parsers answer, said once: the value over a buffer that passes every check, and
what a value that they answered says of the buffer. -/

namespace Sys2Proof.Machine

open Sys2Proof

/-! ## Fields of a buffer -/

theorem field_at {x pre fld rest : Bytes} {off n : Nat} (h : x = pre ++ (fld ++ rest)) (ho : pre.length = off)
    (hn : fld.length = n) : (x.drop off).take n = fld := by
  subst h ho hn
  simp

theorem byteAt_at {x pre rest : Bytes} {b : Byte} {off : Nat} (h : x = pre ++ (b :: rest))
    (ho : pre.length = off) : byteAt x off = b := by
  subst h ho
  simp [byteAt, List.getD_eq_getElem?_getD]

@[simp] theorem length_be16Bytes (v : BitVec 16) : (be16Bytes v).length = 2 := rfl

@[simp] theorem length_be32Bytes (v : Word) : (be32Bytes v).length = 4 := rfl

theorem be16_at {x pre rest : Bytes} {v : BitVec 16} {off : Nat} (h : x = pre ++ (be16Bytes v ++ rest))
    (ho : pre.length = off) : (byteAt x off).toNat * 2 ^ 8 + (byteAt x (off + 1)).toNat = v.toNat := by
  have := v.isLt
  have h0 : byteAt x off = v.extractLsb' 8 8 := byteAt_at h ho
  have h1 : byteAt x (off + 1) = v.extractLsb' 0 8 :=
    byteAt_at (pre := pre ++ [v.extractLsb' 8 8]) (by rw [h]; simp [be16Bytes]; rfl) (by simp [ho])
  rw [h0, h1]
  simp only [BitVec.extractLsb'_toNat, Nat.shiftRight_eq_div_pow]
  omega

theorem be32At_at {x pre rest : Bytes} {v : Word} {off : Nat} (h : x = pre ++ (be32Bytes v ++ rest))
    (ho : pre.length = off) : be32At x off = v.toNat := by
  have := v.isLt
  have h0 : byteAt x off = v.extractLsb' 24 8 := byteAt_at h ho
  have h1 : byteAt x (off + 1) = v.extractLsb' 16 8 :=
    byteAt_at (pre := pre ++ [v.extractLsb' 24 8]) (by rw [h]; simp [be32Bytes]; rfl) (by simp [ho])
  have h2 : byteAt x (off + 2) = v.extractLsb' 8 8 :=
    byteAt_at (pre := pre ++ [v.extractLsb' 24 8, v.extractLsb' 16 8]) (by rw [h]; simp [be32Bytes]; rfl)
      (by simp [ho])
  have h3 : byteAt x (off + 3) = v.extractLsb' 0 8 :=
    byteAt_at (pre := pre ++ [v.extractLsb' 24 8, v.extractLsb' 16 8, v.extractLsb' 8 8])
      (by rw [h]; simp [be32Bytes]; rfl) (by simp [ho])
  unfold be32At
  rw [h0, h1, h2, h3]
  simp only [BitVec.extractLsb'_toNat, Nat.shiftRight_eq_div_pow]
  omega

/-! ## BinHex -/

/-- The record parse over a stream that passes every check and is long enough (44_binhex.md R209). -/
theorem parseBinhex_ok {p : Params} {x : Bytes} {n d r : Nat} (hn : n = (byteAt x 0).toNat)
    (hc : p.bhNameCheck = true → 1 ≤ n ∧ n ≤ 63) (hz : byteAt x (1 + n) = 0)
    (hd : d = be32At x (12 + n)) (hr : r = be32At x (16 + n)) (hd31 : d < 2 ^ 31) (hr31 : r < 2 ^ 31)
    (hl : 26 + n + d + r ≤ x.length) :
    parseBinhex p x = .ok (.binhex
      ⟨(x.drop 1).take n, (x.drop (2 + n)).take 4, (x.drop (6 + n)).take 4,
        (byteAt x (10 + n)).toNat * 2 ^ 8 + (byteAt x (10 + n + 1)).toNat,
        (x.drop (22 + n)).take d, (x.drop (24 + n + d)).take r⟩
      ((byteAt x (20 + n)).toNat * 2 ^ 8 + (byteAt x (20 + n + 1)).toNat)
      ((byteAt x (22 + n + d)).toNat * 2 ^ 8 + (byteAt x (22 + n + d + 1)).toNat)
      ((byteAt x (24 + n + d + r)).toNat * 2 ^ 8 + (byteAt x (24 + n + d + r + 1)).toNat)) := by
  have hnc : ¬ (p.bhNameCheck = true ∧ (n < 1 ∨ n > 63)) := by
    rintro ⟨h, h'⟩
    have := hc h
    omega
  have hdn : ¬ sext32 d < 0 := by rw [sext32_nonneg hd31]; omega
  have hrn : ¬ sext32 r < 0 := by rw [sext32_nonneg hr31]; omega
  have hdt : (sext32 d).toNat = d := by rw [sext32_nonneg hd31]; rfl
  have hrt : (sext32 r).toNat = r := by rw [sext32_nonneg hr31]; rfl
  have hz0 : ¬ ((0 : Byte).toNat ≠ 0) := by decide
  unfold parseBinhex
  rw [readU8_ok _ (by omega), ← hn, ok_bind, if_neg hnc, readBytes_ok _ (by omega), ok_bind,
    readU8_ok _ (by omega), ok_bind, hz, if_neg hz0, readBytes_ok _ (by omega), ok_bind,
    readBytes_ok _ (by omega), ok_bind, readBE16_ok _ (by omega), ok_bind, readSBE32_ok _ (by omega), ok_bind,
    ← hd, if_neg hdn, readSBE32_ok _ (by omega), ok_bind, ← hr, if_neg hrn, readBE16_ok _ (by omega), ok_bind,
    hdt, hrt, readBytes_ok _ (by omega), ok_bind, readBE16_ok _ (by omega), ok_bind,
    readBytes_ok _ (by omega), ok_bind, readBE16_ok _ (by omega), ok_bind]
  rfl

/-- A record that the parse answered: its name is at most 255 bytes and its forks are bytes of the stream. -/
theorem parseBinhex_inv {p : Params} {x : Bytes} {r : FileResult} (h : parseBinhex p x = .ok r) :
    ∃ f a b c, r = .binhex f a b c ∧ f.name.length ≤ 255 ∧ f.data.length + f.rsrc.length ≤ x.length := by
  unfold parseBinhex at h
  obtain ⟨n, h1, h⟩ := bind_ok_inv h
  obtain ⟨-, h⟩ := check_inv h
  obtain ⟨name, h3, h⟩ := bind_ok_inv h
  obtain ⟨z, -, h⟩ := bind_ok_inv h
  obtain ⟨-, h⟩ := check_inv h
  obtain ⟨t, -, h⟩ := bind_ok_inv h
  obtain ⟨c, -, h⟩ := bind_ok_inv h
  obtain ⟨fl, -, h⟩ := bind_ok_inv h
  obtain ⟨d, -, h⟩ := bind_ok_inv h
  obtain ⟨-, h⟩ := check_inv h
  obtain ⟨r, -, h⟩ := bind_ok_inv h
  obtain ⟨-, h⟩ := check_inv h
  obtain ⟨hc, -, h⟩ := bind_ok_inv h
  obtain ⟨data, h14, h⟩ := bind_ok_inv h
  obtain ⟨dc, -, h⟩ := bind_ok_inv h
  obtain ⟨rsrc, h16, h⟩ := bind_ok_inv h
  obtain ⟨rc, -, h⟩ := bind_ok_inv h
  cases h
  obtain ⟨-, rfl⟩ := readU8_inv h1
  obtain ⟨-, rfl⟩ := readBytes_inv h3
  obtain ⟨hA, rfl⟩ := readBytes_inv h14
  obtain ⟨hB, rfl⟩ := readBytes_inv h16
  refine ⟨_, _, _, _, rfl, ?_, ?_⟩
  · have := (byteAt x 0).isLt
    simp
    omega
  · simp
    omega

/-! ## MacBinary -/

/-- The parse over a header that passes every check: the forks remain (45_macbinary.md R221 to R223). -/
theorem parseMacbinary_head {p : Params} {b : Bytes} (h : MacHeaderOk b) {d r : Nat} (hd : d = be32At b 0x53)
    (hr : r = be32At b 0x57) :
    parseMacbinary p b = (do
      let data ← readBytes .mbParse b 0x80 d
      let q ← skipBytes .mbParse b (0x80 + d) (macPadding p.mbPadMode d)
      let rsrc ← readBytes .mbParse b q r
      return .macbin ⟨(b.drop 0x02).take (byteAt b 0x01).toNat, (b.drop 0x41).take 4, (b.drop 0x45).take 4,
        (byteAt b p.mbFlagsHiOff).toNat * 256 + (byteAt b 0x65).toNat, data, rsrc⟩) := by
  obtain ⟨h1, h2, h3, h4, h5, h6, h7, h8⟩ := h
  unfold parseMacbinary
  rw [if_neg (by omega), if_neg (not_not.mpr h2)]
  dsimp only
  rw [if_neg (by omega), if_neg (not_not.mpr h5), if_neg (not_not.mpr h6), readBE32_ok _ (by omega), ok_bind,
    ← hd, if_neg (by omega), readBE32_ok _ (by omega), ok_bind, ← hr, if_neg (by omega)]

/-- A record that the parse answered: its name is at most 63 bytes and its forks are bytes of the file. -/
theorem parseMacbinary_inv {p : Params} {b : Bytes} {r : FileResult} (h : parseMacbinary p b = .ok r) :
    ∃ f, r = .macbin f ∧ f.name.length ≤ 63 ∧ f.data.length + f.rsrc.length ≤ b.length := by
  unfold parseMacbinary at h
  obtain ⟨-, h⟩ := check_inv h
  obtain ⟨-, h⟩ := check_inv h
  dsimp only at h
  obtain ⟨h3, h⟩ := check_inv h
  obtain ⟨-, h⟩ := check_inv h
  obtain ⟨-, h⟩ := check_inv h
  obtain ⟨d, -, h⟩ := bind_ok_inv h
  obtain ⟨-, h⟩ := check_inv h
  obtain ⟨r, -, h⟩ := bind_ok_inv h
  obtain ⟨-, h⟩ := check_inv h
  obtain ⟨data, ha, h⟩ := bind_ok_inv h
  obtain ⟨q, hb, h⟩ := bind_ok_inv h
  obtain ⟨rsrc, hc, h⟩ := bind_ok_inv h
  obtain ⟨ha1, rfl⟩ := readBytes_inv ha
  obtain ⟨hb1, rfl⟩ := skipBytes_inv hb
  obtain ⟨hc1, rfl⟩ := readBytes_inv hc
  cases h
  refine ⟨_, rfl, ?_, ?_⟩
  · simp
    omega
  · simp
    omega

/-! ## DiskCopy -/

/-- The stage over a whole image (46_diskcopy.md R230). -/
theorem diskCopy_ok {b : Bytes} (h : DiskCopyOk b) : diskCopy b = .ok ⟨b.take 0x54, diskData b⟩ := by
  obtain ⟨h1, h2, h3, h4, h5⟩ := h
  unfold diskCopy
  rw [if_neg (by omega), if_neg (not_not.mpr h2), if_neg (not_not.mpr h3), readBE32_ok _ (by omega), ok_bind,
    if_neg (by simp [imageSizes]; omega), readBytes_ok _ (by omega), ok_bind]
  rfl

/-- An image that the stage answered is a whole one. -/
theorem diskCopy_inv {b : Bytes} {d : DiskImage} (h : diskCopy b = .ok d) :
    DiskCopyOk b ∧ d = ⟨b.take 0x54, diskData b⟩ := by
  unfold diskCopy at h
  obtain ⟨h1, h⟩ := check_inv h
  obtain ⟨h2, h⟩ := check_inv h
  obtain ⟨h3, h⟩ := check_inv h
  obtain ⟨ds, h4, h⟩ := bind_ok_inv h
  obtain ⟨h5, h⟩ := check_inv h
  obtain ⟨data, h6, h⟩ := bind_ok_inv h
  obtain ⟨-, rfl⟩ := readBE32_inv h4
  obtain ⟨h7, rfl⟩ := readBytes_inv h6
  cases h
  exact ⟨⟨by omega, not_not.mp h2, not_not.mp h3, by simpa [imageSizes] using not_not.mp h5, h7⟩, rfl⟩

/-! ## The expanded stream -/

theorem rleEmit_inv {cap pos n len : Nat} {x : Byte} {out : Bytes} {o : Bytes × Nat}
    (h : rleEmit cap pos n x out len = .ok o) :
    o.1 = List.replicate n x ++ out ∧ o.2 = len + n ∧ len + n ≤ cap := by
  unfold rleEmit at h
  split_ifs at h
  cases h
  exact ⟨rfl, rfl, by assumption⟩

theorem rleGo_length (cap : Nat) : ∀ (l : Nat) (input : Bytes), input.length ≤ l →
    ∀ (i : Nat) (out : Bytes) (len : Nat) (r : Bytes), out.length = len → len ≤ cap →
      rleGo cap input i out len = .ok r → r.length ≤ cap := by
  intro l
  induction l with
  | zero =>
    intro input h i out len r ho hc he
    have : input = [] := List.length_eq_zero_iff.mp (by omega)
    subst this
    rw [rleGo_nil] at he
    cases he
    simp
    omega
  | succ l ih =>
    intro input h i out len r ho hc he
    have emitted : ∀ (n : Nat) (x : Byte) (tail : Bytes) (j : Nat), tail.length ≤ l →
        ((rleEmit cap i n x out len).bind fun o => rleGo cap tail j o.1 o.2) = .ok r → r.length ≤ cap := by
      intro n x tail j hl hh
      cases hr : rleEmit cap i n x out len with
      | error e => rw [hr] at hh; cases hh
      | ok o =>
        rw [hr] at hh
        obtain ⟨h1, h2, h3⟩ := rleEmit_inv hr
        exact ih tail hl j o.1 o.2 r (by rw [h1, h2]; simp; omega) (by omega) hh
    match input with
    | [] =>
      rw [rleGo_nil] at he
      cases he
      simp
      omega
    | b :: tail =>
      by_cases hb : b = 0x90
      · subst hb
        match tail with
        | [] => rw [rleGo_truncated] at he; cases he
        | n :: tail =>
          by_cases hn : n = 0
          · subst hn
            rw [rleGo_escaped] at he
            exact emitted _ _ _ _ (by simp at h; omega) he
          · match out with
            | [] => rw [rleGo_malformed hn] at he; cases he
            | x :: o =>
              rw [rleGo_run hn] at he
              exact emitted _ _ _ _ (by simp at h; omega) he
      · rw [rleGo_literal hb] at he
        exact emitted _ _ _ _ (by simp at h; omega) he

/-- The stage never answers more than its capacity (42_rle.md R191). -/
theorem rle_length {cap : Nat} {input out : Bytes} (h : rle cap input = .ok out) : out.length ≤ cap :=
  rleGo_length cap _ input le_rfl 0 [] 0 out rfl (Nat.zero_le _) h

end Sys2Proof.Machine
end

