-- ==== Sys2Proof/Laws/State.lean ====
section
/-! SUPPORT. One lemma for each field and each update of State, so that no proof unfolds a record update. -/

namespace Sys2Proof.Machine

open Sys2Proof

/-! ### State.advance -/

@[simp] theorem advance_params (s : State) : (s.advance).params = s.params := rfl
@[simp] theorem advance_phase (s : State) : (s.advance).phase = s.phase := rfl
@[simp] theorem advance_ie (s : State) : (s.advance).ie = s.ie := rfl
@[simp] theorem advance_cmdOp (s : State) : (s.advance).cmdOp = s.cmdOp := rfl
@[simp] theorem advance_inLen (s : State) : (s.advance).inLen = s.inLen := rfl
@[simp] theorem advance_done (s : State) : (s.advance).done = s.done := rfl
@[simp] theorem advance_accErr (s : State) : (s.advance).accErr = s.accErr := rfl
@[simp] theorem advance_wrBusy (s : State) : (s.advance).wrBusy = s.wrBusy := rfl
@[simp] theorem advance_err (s : State) : (s.advance).err = s.err := rfl
@[simp] theorem advance_res (s : State) : (s.advance).res = s.res := rfl
@[simp] theorem advance_latchOp (s : State) : (s.advance).latchOp = s.latchOp := rfl
@[simp] theorem advance_latchLen (s : State) : (s.advance).latchLen = s.latchLen := rfl
@[simp] theorem advance_inMem (s : State) : (s.advance).inMem = s.inMem := rfl
@[simp] theorem advance_outMem (s : State) : (s.advance).outMem = s.outMem := rfl
@[simp] theorem advance_s1 (s : State) : (s.advance).s1 = s.s1 := rfl
@[simp] theorem advance_xs (s : State) : (s.advance).xs = s.xs := rfl
@[simp] theorem advance_agenda (s : State) : (s.advance).agenda = s.agenda.tail := rfl
@[simp] theorem advance_readData (s : State) : (s.advance).readData = s.readData := rfl
@[simp] theorem advance_inEpoch (s : State) : (s.advance).inEpoch = s.inEpoch := rfl
@[simp] theorem advance_outEpoch (s : State) : (s.advance).outEpoch = s.outEpoch := rfl
@[simp] theorem advance_busyDraws (s : State) : (s.advance).busyDraws = s.busyDraws := rfl

/-! ### clearStatus -/

@[simp] theorem clearStatus_params (d a w : Bool) (s : State) : (clearStatus d a w s).params = s.params :=
  rfl
@[simp] theorem clearStatus_phase (d a w : Bool) (s : State) : (clearStatus d a w s).phase = s.phase :=
  rfl
@[simp] theorem clearStatus_ie (d a w : Bool) (s : State) : (clearStatus d a w s).ie = s.ie := rfl
@[simp] theorem clearStatus_cmdOp (d a w : Bool) (s : State) : (clearStatus d a w s).cmdOp = s.cmdOp :=
  rfl
@[simp] theorem clearStatus_inLen (d a w : Bool) (s : State) : (clearStatus d a w s).inLen = s.inLen :=
  rfl
@[simp] theorem clearStatus_done (d a w : Bool) (s : State) : (clearStatus d a w s).done = (s.done && !d) :=
  rfl
@[simp] theorem clearStatus_accErr (d a w : Bool) (s : State) : (clearStatus d a w s).accErr = (s.accErr && !a) :=
  rfl
@[simp] theorem clearStatus_wrBusy (d a w : Bool) (s : State) : (clearStatus d a w s).wrBusy = (s.wrBusy && !w) :=
  rfl
@[simp] theorem clearStatus_err (d a w : Bool) (s : State) : (clearStatus d a w s).err = s.err :=
  rfl
@[simp] theorem clearStatus_res (d a w : Bool) (s : State) : (clearStatus d a w s).res = s.res :=
  rfl
@[simp] theorem clearStatus_latchOp (d a w : Bool) (s : State) : (clearStatus d a w s).latchOp = s.latchOp :=
  rfl
@[simp] theorem clearStatus_latchLen (d a w : Bool) (s : State) : (clearStatus d a w s).latchLen = s.latchLen :=
  rfl
@[simp] theorem clearStatus_inMem (d a w : Bool) (s : State) : (clearStatus d a w s).inMem = s.inMem :=
  rfl
@[simp] theorem clearStatus_outMem (d a w : Bool) (s : State) : (clearStatus d a w s).outMem = s.outMem :=
  rfl
@[simp] theorem clearStatus_s1 (d a w : Bool) (s : State) : (clearStatus d a w s).s1 = s.s1 := rfl
@[simp] theorem clearStatus_xs (d a w : Bool) (s : State) : (clearStatus d a w s).xs = s.xs := rfl
@[simp] theorem clearStatus_agenda (d a w : Bool) (s : State) : (clearStatus d a w s).agenda = s.agenda :=
  rfl
@[simp] theorem clearStatus_readData (d a w : Bool) (s : State) : (clearStatus d a w s).readData = s.readData :=
  rfl
@[simp] theorem clearStatus_inEpoch (d a w : Bool) (s : State) : (clearStatus d a w s).inEpoch = s.inEpoch :=
  rfl
@[simp] theorem clearStatus_outEpoch (d a w : Bool) (s : State) : (clearStatus d a w s).outEpoch = s.outEpoch :=
  rfl
@[simp] theorem clearStatus_busyDraws (d a w : Bool) (s : State) : (clearStatus d a w s).busyDraws = s.busyDraws :=
  rfl

/-! ### startCommand -/

@[simp] theorem startCommand_params (b : Bool) (s : State) : (startCommand b s).params = s.params :=
  by unfold startCommand; split <;> rfl
@[simp] theorem startCommand_ie (b : Bool) (s : State) : (startCommand b s).ie = b :=
  by unfold startCommand; split <;> rfl
@[simp] theorem startCommand_cmdOp (b : Bool) (s : State) : (startCommand b s).cmdOp = s.cmdOp :=
  by unfold startCommand; split <;> rfl
@[simp] theorem startCommand_inLen (b : Bool) (s : State) : (startCommand b s).inLen = s.inLen :=
  by unfold startCommand; split <;> rfl
@[simp] theorem startCommand_accErr (b : Bool) (s : State) : (startCommand b s).accErr = s.accErr :=
  by unfold startCommand; split <;> rfl
@[simp] theorem startCommand_inMem (b : Bool) (s : State) : (startCommand b s).inMem = s.inMem :=
  by unfold startCommand; split <;> rfl
@[simp] theorem startCommand_outMem (b : Bool) (s : State) : (startCommand b s).outMem = s.outMem :=
  by unfold startCommand; split <;> rfl
@[simp] theorem startCommand_s1 (b : Bool) (s : State) : (startCommand b s).s1 = s.s1 :=
  by unfold startCommand; split <;> rfl
@[simp] theorem startCommand_xs (b : Bool) (s : State) : (startCommand b s).xs = s.xs :=
  by unfold startCommand; split <;> rfl
@[simp] theorem startCommand_agenda (b : Bool) (s : State) : (startCommand b s).agenda = s.agenda :=
  by unfold startCommand; split <;> rfl
@[simp] theorem startCommand_readData (b : Bool) (s : State) : (startCommand b s).readData = s.readData :=
  by unfold startCommand; split <;> rfl
@[simp] theorem startCommand_inEpoch (b : Bool) (s : State) : (startCommand b s).inEpoch = s.inEpoch :=
  by unfold startCommand; split <;> rfl
@[simp] theorem startCommand_outEpoch (b : Bool) (s : State) : (startCommand b s).outEpoch = s.outEpoch :=
  by unfold startCommand; split <;> rfl
@[simp] theorem startCommand_busyDraws (b : Bool) (s : State) : (startCommand b s).busyDraws = s.busyDraws :=
  by unfold startCommand; split <;> rfl
@[simp] theorem startCommand_phase (b : Bool) (s : State) : (startCommand b s).phase = .busy :=
  by unfold startCommand; split <;> simp_all

/-! ### complete -/

@[simp] theorem complete_params (o : Except CmdError CmdResult) (s : State) : (complete o s).params = s.params :=
  by cases o <;> rfl
@[simp] theorem complete_phase (o : Except CmdError CmdResult) (s : State) : (complete o s).phase = .idle :=
  by cases o <;> rfl
@[simp] theorem complete_ie (o : Except CmdError CmdResult) (s : State) : (complete o s).ie = s.ie :=
  by cases o <;> rfl
@[simp] theorem complete_cmdOp (o : Except CmdError CmdResult) (s : State) : (complete o s).cmdOp = s.cmdOp :=
  by cases o <;> rfl
@[simp] theorem complete_inLen (o : Except CmdError CmdResult) (s : State) : (complete o s).inLen = s.inLen :=
  by cases o <;> rfl
@[simp] theorem complete_done (o : Except CmdError CmdResult) (s : State) : (complete o s).done = true :=
  by cases o <;> rfl
@[simp] theorem complete_accErr (o : Except CmdError CmdResult) (s : State) : (complete o s).accErr = s.accErr :=
  by cases o <;> rfl
@[simp] theorem complete_wrBusy (o : Except CmdError CmdResult) (s : State) : (complete o s).wrBusy = s.wrBusy :=
  by cases o <;> rfl
@[simp] theorem complete_latchOp (o : Except CmdError CmdResult) (s : State) : (complete o s).latchOp = s.latchOp :=
  by cases o <;> rfl
@[simp] theorem complete_latchLen (o : Except CmdError CmdResult) (s : State) : (complete o s).latchLen = s.latchLen :=
  by cases o <;> rfl
@[simp] theorem complete_inMem (o : Except CmdError CmdResult) (s : State) : (complete o s).inMem = s.inMem :=
  by cases o <;> rfl
@[simp] theorem complete_s1 (o : Except CmdError CmdResult) (s : State) : (complete o s).s1 = s.s1 :=
  by cases o <;> rfl
@[simp] theorem complete_xs (o : Except CmdError CmdResult) (s : State) : (complete o s).xs = s.xs :=
  by cases o <;> rfl
@[simp] theorem complete_agenda (o : Except CmdError CmdResult) (s : State) : (complete o s).agenda = s.agenda :=
  by cases o <;> rfl
@[simp] theorem complete_readData (o : Except CmdError CmdResult) (s : State) : (complete o s).readData = s.readData :=
  by cases o <;> rfl
@[simp] theorem complete_inEpoch (o : Except CmdError CmdResult) (s : State) : (complete o s).inEpoch = s.inEpoch :=
  by cases o <;> rfl
@[simp] theorem complete_outEpoch (o : Except CmdError CmdResult) (s : State) : (complete o s).outEpoch = s.outEpoch + 1 :=
  by cases o <;> rfl
@[simp] theorem complete_busyDraws (o : Except CmdError CmdResult) (s : State) : (complete o s).busyDraws = s.busyDraws :=
  by cases o <;> rfl
@[simp] theorem complete_ok_err (r : CmdResult) (s : State) : (complete (.ok r) s).err = s.err := rfl
@[simp] theorem complete_ok_res (r : CmdResult) (s : State) :
    (complete (.ok r) s).res = r.writeRegs s.res := rfl
@[simp] theorem complete_ok_outMem (r : CmdResult) (s : State) :
    (complete (.ok r) s).outMem = Memory.ofBytes r.out := rfl
@[simp] theorem complete_error_err (e : CmdError) (s : State) :
    (complete (.error e) s).err = ⟨e.name.code, BitVec.ofNat 32 e.pos, e.detail, e.stage.code⟩ := rfl
@[simp] theorem complete_error_res (e : CmdError) (s : State) : (complete (.error e) s).res = s.res := rfl
@[simp] theorem complete_error_outMem (e : CmdError) (s : State) :
    (complete (.error e) s).outMem = Memory.empty := rfl

/-! ### resetRegs -/

@[simp] theorem resetRegs_params (s : State) : (resetRegs s).params = s.params := rfl
@[simp] theorem resetRegs_phase (s : State) : (resetRegs s).phase = .idle := rfl
@[simp] theorem resetRegs_ie (s : State) : (resetRegs s).ie = false := rfl
@[simp] theorem resetRegs_cmdOp (s : State) : (resetRegs s).cmdOp = 0 := rfl
@[simp] theorem resetRegs_inLen (s : State) : (resetRegs s).inLen = 0 := rfl
@[simp] theorem resetRegs_done (s : State) : (resetRegs s).done = false := rfl
@[simp] theorem resetRegs_accErr (s : State) : (resetRegs s).accErr = false := rfl
@[simp] theorem resetRegs_wrBusy (s : State) : (resetRegs s).wrBusy = false := rfl
@[simp] theorem resetRegs_err (s : State) : (resetRegs s).err = ErrRegs.zero := rfl
@[simp] theorem resetRegs_res (s : State) : (resetRegs s).res = ResultRegs.zero := rfl
@[simp] theorem resetRegs_latchOp (s : State) : (resetRegs s).latchOp = 0 := rfl
@[simp] theorem resetRegs_latchLen (s : State) : (resetRegs s).latchLen = 0 := rfl
@[simp] theorem resetRegs_inMem (s : State) : (resetRegs s).inMem = s.inMem := rfl
@[simp] theorem resetRegs_outMem (s : State) : (resetRegs s).outMem = s.outMem := rfl
@[simp] theorem resetRegs_s1 (s : State) : (resetRegs s).s1 = s.s1 := rfl
@[simp] theorem resetRegs_xs (s : State) : (resetRegs s).xs = s.xs := rfl
@[simp] theorem resetRegs_agenda (s : State) : (resetRegs s).agenda = s.agenda := rfl
@[simp] theorem resetRegs_readData (s : State) : (resetRegs s).readData = s.readData := rfl
@[simp] theorem resetRegs_inEpoch (s : State) : (resetRegs s).inEpoch = s.inEpoch := rfl
@[simp] theorem resetRegs_outEpoch (s : State) : (resetRegs s).outEpoch = s.outEpoch := rfl
@[simp] theorem resetRegs_busyDraws (s : State) : (resetRegs s).busyDraws = s.busyDraws := rfl

/-! ### softReset -/

@[simp] theorem softReset_params (s : State) : (softReset s).params = s.params :=
  by unfold softReset; split <;> rfl
@[simp] theorem softReset_phase (s : State) : (softReset s).phase = .idle :=
  by unfold softReset; split <;> rfl
@[simp] theorem softReset_ie (s : State) : (softReset s).ie = false :=
  by unfold softReset; split <;> rfl
@[simp] theorem softReset_cmdOp (s : State) : (softReset s).cmdOp = 0 :=
  by unfold softReset; split <;> rfl
@[simp] theorem softReset_inLen (s : State) : (softReset s).inLen = 0 :=
  by unfold softReset; split <;> rfl
@[simp] theorem softReset_done (s : State) : (softReset s).done = false :=
  by unfold softReset; split <;> rfl
@[simp] theorem softReset_accErr (s : State) : (softReset s).accErr = false :=
  by unfold softReset; split <;> rfl
@[simp] theorem softReset_wrBusy (s : State) : (softReset s).wrBusy = false :=
  by unfold softReset; split <;> rfl
@[simp] theorem softReset_err (s : State) : (softReset s).err = ErrRegs.zero :=
  by unfold softReset; split <;> rfl
@[simp] theorem softReset_res (s : State) : (softReset s).res = ResultRegs.zero :=
  by unfold softReset; split <;> rfl
@[simp] theorem softReset_latchOp (s : State) : (softReset s).latchOp = 0 :=
  by unfold softReset; split <;> rfl
@[simp] theorem softReset_latchLen (s : State) : (softReset s).latchLen = 0 :=
  by unfold softReset; split <;> rfl
@[simp] theorem softReset_inMem (s : State) : (softReset s).inMem = s.inMem :=
  by unfold softReset; split <;> rfl
@[simp] theorem softReset_outMem (s : State) : (softReset s).outMem = if s.phase = .busy then Memory.empty else s.outMem :=
  by
  cases h : s.phase <;> simp [softReset, h, resetRegs]
@[simp] theorem softReset_s1 (s : State) : (softReset s).s1 = if s.phase = .busy then Memory.empty else s.s1 :=
  by
  cases h : s.phase <;> simp [softReset, h, resetRegs]
@[simp] theorem softReset_xs (s : State) : (softReset s).xs = if s.phase = .busy then Memory.empty else s.xs :=
  by
  cases h : s.phase <;> simp [softReset, h, resetRegs]
@[simp] theorem softReset_agenda (s : State) : (softReset s).agenda = s.agenda :=
  by unfold softReset; split <;> rfl
@[simp] theorem softReset_readData (s : State) : (softReset s).readData = s.readData :=
  by unfold softReset; split <;> rfl
@[simp] theorem softReset_inEpoch (s : State) : (softReset s).inEpoch = s.inEpoch :=
  by unfold softReset; split <;> rfl
@[simp] theorem softReset_outEpoch (s : State) : (softReset s).outEpoch = if s.phase = .busy then s.outEpoch + 1 else s.outEpoch :=
  by
  cases h : s.phase <;> simp [softReset, h, resetRegs]
@[simp] theorem softReset_busyDraws (s : State) : (softReset s).busyDraws = s.busyDraws :=
  by unfold softReset; split <;> rfl

/-! ### hardReset -/

@[simp] theorem hardReset_params (s : State) : (hardReset s).params = s.params := rfl
@[simp] theorem hardReset_phase (s : State) : (hardReset s).phase = .idle := rfl
@[simp] theorem hardReset_ie (s : State) : (hardReset s).ie = false := rfl
@[simp] theorem hardReset_cmdOp (s : State) : (hardReset s).cmdOp = 0 := rfl
@[simp] theorem hardReset_inLen (s : State) : (hardReset s).inLen = 0 := rfl
@[simp] theorem hardReset_done (s : State) : (hardReset s).done = false := rfl
@[simp] theorem hardReset_accErr (s : State) : (hardReset s).accErr = false := rfl
@[simp] theorem hardReset_wrBusy (s : State) : (hardReset s).wrBusy = false := rfl
@[simp] theorem hardReset_err (s : State) : (hardReset s).err = ErrRegs.zero := rfl
@[simp] theorem hardReset_res (s : State) : (hardReset s).res = ResultRegs.zero := rfl
@[simp] theorem hardReset_latchOp (s : State) : (hardReset s).latchOp = 0 := rfl
@[simp] theorem hardReset_latchLen (s : State) : (hardReset s).latchLen = 0 := rfl
@[simp] theorem hardReset_inMem (s : State) : (hardReset s).inMem = Memory.empty := rfl
@[simp] theorem hardReset_outMem (s : State) : (hardReset s).outMem = Memory.empty := rfl
@[simp] theorem hardReset_s1 (s : State) : (hardReset s).s1 = Memory.empty := rfl
@[simp] theorem hardReset_xs (s : State) : (hardReset s).xs = Memory.empty := rfl
@[simp] theorem hardReset_agenda (s : State) : (hardReset s).agenda = s.agenda := rfl
@[simp] theorem hardReset_readData (s : State) : (hardReset s).readData = s.readData := rfl
@[simp] theorem hardReset_inEpoch (s : State) : (hardReset s).inEpoch = s.inEpoch + 1 := rfl
@[simp] theorem hardReset_outEpoch (s : State) : (hardReset s).outEpoch = s.outEpoch + 1 := rfl
@[simp] theorem hardReset_busyDraws (s : State) : (hardReset s).busyDraws = s.busyDraws := rfl

/-! ### illegalAccess -/

@[simp] theorem illegalAccess_params (b : Bool) (s : State) : (illegalAccess b s).params = s.params :=
  rfl
@[simp] theorem illegalAccess_phase (b : Bool) (s : State) : (illegalAccess b s).phase = s.phase :=
  rfl
@[simp] theorem illegalAccess_ie (b : Bool) (s : State) : (illegalAccess b s).ie = s.ie := rfl
@[simp] theorem illegalAccess_cmdOp (b : Bool) (s : State) : (illegalAccess b s).cmdOp = s.cmdOp :=
  rfl
@[simp] theorem illegalAccess_inLen (b : Bool) (s : State) : (illegalAccess b s).inLen = s.inLen :=
  rfl
@[simp] theorem illegalAccess_done (b : Bool) (s : State) : (illegalAccess b s).done = s.done := rfl
@[simp] theorem illegalAccess_accErr (b : Bool) (s : State) : (illegalAccess b s).accErr = true :=
  rfl
@[simp] theorem illegalAccess_wrBusy (b : Bool) (s : State) : (illegalAccess b s).wrBusy = s.wrBusy :=
  rfl
@[simp] theorem illegalAccess_err (b : Bool) (s : State) : (illegalAccess b s).err = s.err := rfl
@[simp] theorem illegalAccess_res (b : Bool) (s : State) : (illegalAccess b s).res = s.res := rfl
@[simp] theorem illegalAccess_latchOp (b : Bool) (s : State) : (illegalAccess b s).latchOp = s.latchOp :=
  rfl
@[simp] theorem illegalAccess_latchLen (b : Bool) (s : State) : (illegalAccess b s).latchLen = s.latchLen :=
  rfl
@[simp] theorem illegalAccess_inMem (b : Bool) (s : State) : (illegalAccess b s).inMem = s.inMem :=
  rfl
@[simp] theorem illegalAccess_outMem (b : Bool) (s : State) : (illegalAccess b s).outMem = s.outMem :=
  rfl
@[simp] theorem illegalAccess_s1 (b : Bool) (s : State) : (illegalAccess b s).s1 = s.s1 := rfl
@[simp] theorem illegalAccess_xs (b : Bool) (s : State) : (illegalAccess b s).xs = s.xs := rfl
@[simp] theorem illegalAccess_agenda (b : Bool) (s : State) : (illegalAccess b s).agenda = s.agenda :=
  rfl
@[simp] theorem illegalAccess_readData (b : Bool) (s : State) : (illegalAccess b s).readData = if b then 0 else s.readData :=
  rfl
@[simp] theorem illegalAccess_inEpoch (b : Bool) (s : State) : (illegalAccess b s).inEpoch = s.inEpoch :=
  rfl
@[simp] theorem illegalAccess_outEpoch (b : Bool) (s : State) : (illegalAccess b s).outEpoch = s.outEpoch :=
  rfl
@[simp] theorem illegalAccess_busyDraws (b : Bool) (s : State) : (illegalAccess b s).busyDraws = s.busyDraws :=
  rfl

/-! ### busRead -/

@[simp] theorem busRead_params (w : Width) (a : Nat) (s : State) : (busRead w a s).params = s.params :=
  rfl
@[simp] theorem busRead_phase (w : Width) (a : Nat) (s : State) : (busRead w a s).phase = s.phase :=
  rfl
@[simp] theorem busRead_ie (w : Width) (a : Nat) (s : State) : (busRead w a s).ie = s.ie := rfl
@[simp] theorem busRead_cmdOp (w : Width) (a : Nat) (s : State) : (busRead w a s).cmdOp = s.cmdOp :=
  rfl
@[simp] theorem busRead_inLen (w : Width) (a : Nat) (s : State) : (busRead w a s).inLen = s.inLen :=
  rfl
@[simp] theorem busRead_done (w : Width) (a : Nat) (s : State) : (busRead w a s).done = s.done :=
  rfl
@[simp] theorem busRead_accErr (w : Width) (a : Nat) (s : State) : (busRead w a s).accErr = s.accErr :=
  rfl
@[simp] theorem busRead_wrBusy (w : Width) (a : Nat) (s : State) : (busRead w a s).wrBusy = s.wrBusy :=
  rfl
@[simp] theorem busRead_err (w : Width) (a : Nat) (s : State) : (busRead w a s).err = s.err := rfl
@[simp] theorem busRead_res (w : Width) (a : Nat) (s : State) : (busRead w a s).res = s.res := rfl
@[simp] theorem busRead_latchOp (w : Width) (a : Nat) (s : State) : (busRead w a s).latchOp = s.latchOp :=
  rfl
@[simp] theorem busRead_latchLen (w : Width) (a : Nat) (s : State) : (busRead w a s).latchLen = s.latchLen :=
  rfl
@[simp] theorem busRead_inMem (w : Width) (a : Nat) (s : State) : (busRead w a s).inMem = s.inMem :=
  rfl
@[simp] theorem busRead_outMem (w : Width) (a : Nat) (s : State) : (busRead w a s).outMem = s.outMem :=
  rfl
@[simp] theorem busRead_s1 (w : Width) (a : Nat) (s : State) : (busRead w a s).s1 = s.s1 := rfl
@[simp] theorem busRead_xs (w : Width) (a : Nat) (s : State) : (busRead w a s).xs = s.xs := rfl
@[simp] theorem busRead_agenda (w : Width) (a : Nat) (s : State) : (busRead w a s).agenda = s.agenda :=
  rfl
@[simp] theorem busRead_readData (w : Width) (a : Nat) (s : State) : (busRead w a s).readData = busValue s w a :=
  rfl
@[simp] theorem busRead_inEpoch (w : Width) (a : Nat) (s : State) : (busRead w a s).inEpoch = s.inEpoch :=
  rfl
@[simp] theorem busRead_outEpoch (w : Width) (a : Nat) (s : State) : (busRead w a s).outEpoch = s.outEpoch :=
  rfl

end Sys2Proof.Machine
end

