-- ==== Sys2Proof/Laws/Registers.lean ====
section
/-! SUPPORT. What the registers and windows read as in a cleared state, and which of the block's regions an
address is in. -/

namespace Sys2Proof.Machine

open Sys2Proof

@[simp] theorem infoWord_zero : ErrRegs.zero.infoWord = 0 := by decide

@[simp] theorem resultWord_zero : ResultRegs.zero.resultWord = 0 := by decide

/-- A state whose writable registers hold their reset values reads the reset value of every register
(10_state.md R16). -/
theorem readReg_cleared {t : State} (hp : t.phase = .idle) (hi : t.ie = false) (hc : t.cmdOp = 0)
    (hl : t.inLen = 0) (hd : t.done = false) (ha : t.accErr = false) (hw : t.wrBusy = false)
    (he : t.err = ErrRegs.zero) (hr : t.res = ResultRegs.zero) (r : RegName) :
    readReg r t = resetValue t.params r := by
  cases r with
  | ctrl => simp only [readReg, State.ctrlWord, hi, resetValue]; decide
  | cmd => simp only [readReg, hc, resetValue]; decide
  | inLen => exact hl
  | status =>
    simp only [readReg, State.statusWord, State.irq, State.busy, State.errFlag, hp, hi, hd, ha, hw, he,
      resetValue]
    decide
  | errCode => simp only [readReg, he, resetValue]; decide
  | errPos => simp only [readReg, he]; rfl
  | errInfo => simp only [readReg, he, resetValue]; decide
  | result => simp only [readReg, hr, resetValue]; decide
  | id => rfl
  | version => rfl
  | capIn => rfl
  | capOut => rfl
  | capXs => rfl
  | _ => simp only [readReg, hr]; rfl

theorem getD_zeros (n i : Nat) : (Vector.replicate n (0 : Byte)).toList.getD i 0 = 0 := by
  rw [Vector.toList_replicate, List.getD_eq_getElem?_getD, List.getElem?_replicate]
  split <;> rfl

/-- The window addresses and their regions (20_memory.md R81). -/
theorem region_window (p : Params) {a : Nat} (h1 : 0x100 ≤ a) (h2 : a < 0x200) :
    (a < 0x140 ∧ region p a = .nameWin (a - 0x100)) ∨
      (0x140 ≤ a ∧ a < 0x194 ∧ region p a = .hdrWin (a - 0x140)) ∨
      (0x194 ≤ a ∧ region p a = .reservedWin) := by
  unfold region
  split_ifs <;> first | omega | (simp; omega)

/-- The windows of cleared result registers read 0 (20_memory.md R86, R87). -/
theorem byteSeen_zero {t : State} (h : t.res = ResultRegs.zero) {a : Nat} (h1 : 0x100 ≤ a) (h2 : a < 0x200) :
    byteSeen t a = 0 := by
  unfold byteSeen
  rcases region_window t.params h1 h2 with ⟨_, hr⟩ | ⟨_, _, hr⟩ | ⟨_, hr⟩
  · simp only [hr, h]; exact getD_zeros _ _
  · simp only [hr, h]; exact getD_zeros _ _
  · simp only [hr]

/-- An address of IN_MEM is in its region (20_memory.md R81). -/
theorem region_inMem {p : Params} {a k : Nat} (ha : a = 0x1000000 + k) (hk : k < p.inMemSize) :
    region p a = .inMem k := by
  subst ha
  unfold region inBase
  rw [if_neg (by omega), if_neg (by omega), if_neg (by omega), if_neg (by omega), if_pos (by omega)]
  exact congrArg Region.inMem (by omega)

/-- An address of OUT_MEM is in its region (20_memory.md R81); IN_MEM ends below it (00_scope.md R7). -/
theorem region_outMem {p : Params} {a k : Nat} (hp : p.inMemSize ≤ 0x1000000) (ha : a = 0x2000000 + k)
    (hk : k < p.outMemSize) : region p a = .outMem k := by
  subst ha
  unfold region inBase outBase
  rw [if_neg (by omega), if_neg (by omega), if_neg (by omega), if_neg (by omega), if_neg (by omega),
    if_pos (by omega)]
  exact congrArg Region.outMem (by omega)

/-- Four lanes as a number (20_memory.md R84, R89). -/
theorem toNat_lanes (b0 b1 b2 b3 : Byte) : (lanes b0 b1 b2 b3).toNat = leNat b0 b1 b2 b3 := by
  have h0 := b0.isLt
  have h1 := b1.isLt
  have h2 := b2.isLt
  have h3 := b3.isLt
  simp only [lanes, leNat, BitVec.toNat_append]
  rw [← Nat.shiftLeft_add_eq_or_of_lt h2, ← Nat.shiftLeft_add_eq_or_of_lt h1,
    ← Nat.shiftLeft_add_eq_or_of_lt h0]
  simp only [Nat.shiftLeft_eq]
  omega

/-- A word from its four lanes (20_memory.md R84). -/
theorem leNat_laneBytes (v : Word) :
    leNat (v.extractLsb' 0 8) (v.extractLsb' 8 8) (v.extractLsb' 16 8) (v.extractLsb' 24 8) = v.toNat := by
  have := v.isLt
  simp only [leNat, BitVec.extractLsb'_toNat, Nat.shiftRight_eq_div_pow]
  omega

end Sys2Proof.Machine
end

