-- ==== Sys2Proof/Tests/Slice0.lean ====
section
/-! SUPPORT. Tests: the checks of WellFormed refuse ill-formed parameters, words written out from the spec
decode to their operations, each operation does what a vector of 95_test_vectors.md says, and for every
statement with hypotheses a witness that meets them. -/

namespace Sys2Proof.Tests

open Sys2Proof Sys2Proof.Machine

/-! ## Helpers -/

/-- The state that an operation leaves. -/
def ran (i : Instr) (s : State) : State :=
  match exec i s with
  | .next t => t
  | .fault _ => s
  | .refused _ => s

/-- A BUSY engine with the given OP and input, the other registers as reset leaves them. -/
def withInput (op : BitVec 4) (bs : Bytes) : State :=
  { State.reset with
    phase := .busy, latchOp := op, latchLen := BitVec.ofNat 32 bs.length, inMem := Memory.ofBytes bs }

/-- The reset state with the given agenda. -/
def queued (es : List Event) : State := { State.reset with agenda := es }

/-- The same while the engine is BUSY. -/
def queuedBusy (es : List Event) : State := { State.reset with phase := .busy, agenda := es }

theorem input_withInput (op : BitVec 4) {bs : Bytes} (h : bs.length < 2 ^ 32) : (withInput op bs).input = bs := by
  have : (BitVec.ofNat 32 bs.length).toNat = bs.length := by
    rw [BitVec.toNat_ofNat]
    exact Nat.mod_eq_of_lt h
  show (Memory.ofBytes bs).window _ 0 (BitVec.ofNat 32 bs.length).toNat = bs
  rw [this]
  exact window_ofBytes _ bs

/-! ## WellFormed smoke: one ill-formed value for each check (00_scope.md R7) -/

theorem test_refuses_empty_inMem : ¬ ({ Params.default with inMemSize := 0 } : Params).InSizeOk := by decide

theorem test_refuses_large_inMem : ¬ ({ Params.default with inMemSize := 0x1000001 } : Params).InSizeOk := by
  decide

theorem test_refuses_empty_xs : ¬ ({ Params.default with xsSize := 0 } : Params).XsSizeOk := by decide

theorem test_refuses_large_xs : ¬ ({ Params.default with xsSize := 0x400001 } : Params).XsSizeOk := by decide

theorem test_refuses_small_outMem : ¬ ({ Params.default with outMemSize := 0x3FFFFF } : Params).OutSizeOk := by
  decide

theorem test_refuses_outMem_below_image :
    ¬ ({ Params.default with inMemSize := 1, xsSize := 1, outMemSize := 1474559 } : Params).OutSizeOk := by decide

theorem test_refuses_large_outMem : ¬ ({ Params.default with outMemSize := 0x1000001 } : Params).OutSizeOk := by
  decide

theorem test_refuses_short_alphabet :
    ¬ ({ Params.default with alphabet := Params.defaultAlphabet.tail } : Params).AlphabetOk := by decide +kernel

theorem test_refuses_repeated_alphabet :
    ¬ ({ Params.default with alphabet := List.replicate 64 0x21 } : Params).AlphabetOk := by decide +kernel

theorem test_refuses_whitespace_alphabet :
    ¬ ({ Params.default with alphabet := 0x20 :: Params.defaultAlphabet.tail } : Params).AlphabetOk := by decide +kernel

theorem test_refuses_colon_alphabet :
    ¬ ({ Params.default with alphabet := 0x3A :: Params.defaultAlphabet.tail } : Params).AlphabetOk := by decide +kernel

theorem test_refuses_flags_offset : ¬ ({ Params.default with mbFlagsHiOff := 0x80 } : Params).FlagsOffOk := by
  decide

theorem default_legal : Params.default.Legal := by decide +kernel

/-! ## Decoding: words written out from 30_encoding.md R110, R114 and 10_state.md R19, R21 -/

theorem test_decode_ops :
    decode .cmdOp 0b0000 = .ok .reservedOp0 ∧ decode .cmdOp 0b0001 = .ok .sixbit ∧
    decode .cmdOp 0b0010 = .ok .rle ∧ decode .cmdOp 0b0011 = .ok .binhex ∧
    decode .cmdOp 0b0100 = .ok .macbin ∧ decode .cmdOp 0b0101 = .ok .dsk ∧
    decode .cmdOp 0b0110 = .ok .binhexDsk ∧ decode .cmdOp 0b0111 = .ok .macbinDsk := by decide

theorem test_decode_reserved_ops :
    decode .cmdOp 0b1000 = .ok .reservedOp8 ∧ decode .cmdOp 0b1001 = .ok .reservedOp9 ∧
    decode .cmdOp 0b1010 = .ok .reservedOpA ∧ decode .cmdOp 0b1011 = .ok .reservedOpB ∧
    decode .cmdOp 0b1100 = .ok .reservedOpC ∧ decode .cmdOp 0b1101 = .ok .reservedOpD ∧
    decode .cmdOp 0b1110 = .ok .reservedOpE ∧ decode .cmdOp 0b1111 = .ok .reservedOpF := by decide

theorem test_decode_ctrl :
    decode .ctrlWrite 0b001 = .ok (.ctrlStart false) ∧ decode .ctrlWrite 0b011 = .ok (.ctrlStart true) ∧
    decode .ctrlWrite 0b100 = .ok (.ctrlSrst false false) ∧ decode .ctrlWrite 0b111 = .ok (.ctrlSrst true true) ∧
    decode .ctrlWrite 0b010 = .error .plainCtrlWrite ∧ decode .ctrlWrite 0b000 = .error .plainCtrlWrite := by
  decide

theorem test_decode_status :
    decode .statusWrite 0b00010 = .ok (.statusW1C true false false) ∧
    decode .statusWrite 0b01000 = .ok (.statusW1C false true false) ∧
    decode .statusWrite 0b10000 = .ok (.statusW1C false false true) ∧
    decode .statusWrite 0xFFFFFFFF = .ok (.statusW1C true true true) := by decide

theorem test_table_words :
    decodeTableWord 8 0x1 = some .sixbit ∧ decodeTableWord 8 0xF = some .reservedOpF ∧
    decodeTableWord 32 0x1A = some (.statusW1C true true true) := by decide

/-- The next step after withFetchWord runs the word: here RESERVED OP 0x9 (30_encoding.md R112). -/
theorem test_fetch_word_runs :
    (State.reset.withFetchWord 8 0x9).action = .run .reservedOp9 ∧
      (State.reset.withFetchWord 32 0x1A).action = .run (.statusW1C true true true) := by decide

/-! ## One operation, one vector (95_test_vectors.md) -/

/-- SB-12: "B@*M" demodulates to "abc" and padding. -/
theorem test_sixbit_SB12 :
    (ran .sixbit (withInput 1 [0x42, 0x40, 0x2A, 0x4D])).outMem.bytes = [0x61, 0x62, 0x63, 0, 0, 0] ∧
      (ran .sixbit (withInput 1 [0x42, 0x40, 0x2A, 0x4D])).res.outLen = 6 := by decide +kernel

/-- SB-14: the position counts the whitespace that was skipped. -/
theorem test_sixbit_SB14 :
    (ran .sixbit (withInput 1 [0x21, 0x21, 0x0D, 0x0A, 0x21, 0x37])).err = ⟨0x03, 5, 0x37, 2⟩ := by decide +kernel

/-- RL-6: an escaped literal becomes the byte that the next run repeats. -/
theorem test_rle_RL6 :
    (ran .rle (withInput 2 [0x41, 0x90, 0x00, 0x90, 0x04])).outMem.bytes = [0x41, 0x90, 0x90, 0x90, 0x90] := by
  decide +kernel

/-- RL-15: an escape byte at the end, after an escaped literal. -/
theorem test_rle_RL15 : (ran .rle (withInput 2 [0x41, 0x90, 0x00, 0x90])).err = ⟨0x05, 3, 0, 3⟩ := by
  decide +kernel

/-- T1 of BH-1 in its three parts: the 40 payload characters. -/
def t1Payload : Bytes :=
  [0x21, 0x38, 0x25, 0x21, 0x39, 0x25, 0x39, 0x42, 0x39, 0x28, 0x34, 0x64, 0x48, 0x28, 0x33, 0x22,
   0x21, 0x21, 0x21, 0x21, 0x21, 0x21, 0x33, 0x21, 0x21, 0x21, 0x21, 0x21, 0x25, 0x4D, 0x34, 0x22,
   0x4E, 0x21, 0x34, 0x40, 0x48, 0x2A, 0x55, 0x6D]

/-- T1 of BH-1. -/
def t1 : Bytes := binhexSignature ++ [0x0D, 0x0A, 0x3A] ++ t1Payload ++ [0x3A, 0x0D, 0x0A]

/-- BH-1: the registers of the record. -/
theorem test_binhex_BH1 :
    (fun r : ResultRegs => (r.recKind, r.outLen, r.nameLen, r.ftype, r.fcreator, r.fflags, r.hcrc, r.dcrc, r.rcrc))
        (ran .binhex (withInput 3 t1)).res =
      (1, 4, 1, 0x54455854, 0x74747874, 0x0100, 0x1234, 0x5678, 0x9ABC) := by decide +kernel

/-- BH-8: an empty payload. -/
theorem test_binhex_BH8 :
    (ran .binhex (withInput 3 (binhexSignature ++ [0x3A, 0x3A]))).err = ⟨0x07, 0, 0, 4⟩ := by decide +kernel

/-- H1 of 95_test_vectors.md section 2.4 with fork lengths d and r, as P3 lists its bytes. -/
def macHeader (d r : Byte) : Bytes :=
  [0x00, 0x01, 0x41] ++ List.replicate 62 0 ++ [0x54, 0x45, 0x58, 0x54, 0x74, 0x74, 0x78, 0x74] ++
    List.replicate 10 0 ++ [0, 0, 0, d] ++ [0, 0, 0, r] ++ List.replicate 37 0

/-- MB-1's input. -/
def mb1 : Bytes :=
  macHeader 5 3 ++ [0x48, 0x45, 0x4C, 0x4C, 0x4F] ++ List.replicate 123 0 ++ [0x58, 0x59, 0x5A]

/-- MB-1: the forks and the registers. -/
theorem test_macbin_MB1 :
    (ran .macbin (withInput 4 mb1)).outMem.bytes = [0x48, 0x45, 0x4C, 0x4C, 0x4F, 0x58, 0x59, 0x5A] ∧
      (fun r : ResultRegs => (r.recKind, r.dforkLen, r.rforkLen, r.nameLen, r.ftype, r.fcreator))
          (ran .macbin (withInput 4 mb1)).res = (2, 5, 3, 1, 0x54455854, 0x74747874) := by decide +kernel

/-- MB-5: a name length of 64. -/
theorem test_macbin_MB5 :
    (ran .macbin (withInput 4 ((macHeader 0 0).set 1 0x40))).err = ⟨0x06, 1, 0x12, 5⟩ := by decide +kernel

/-- A DSK input that is too small (DC-5's check on a short input): the position is its length. -/
theorem test_dsk_small : (ran .dsk (withInput 5 [1, 2, 3])).err = ⟨0x08, 3, 0, 6⟩ := by decide +kernel

/-- PL-2: a record whose data fork is too small for an image; nothing of the record is reported. -/
theorem test_binhexDsk_PL2 :
    (ran .binhexDsk (withInput 6 t1)).err = ⟨0x08, 4, 0, 6⟩ ∧
      (ran .binhexDsk (withInput 6 t1)).res = ResultRegs.zero := by decide +kernel

/-- PL-6: the same over a MacBinary file. -/
theorem test_macbinDsk_PL6 : (ran .macbinDsk (withInput 7 mb1)).err = ⟨0x08, 5, 0, 6⟩ := by decide +kernel

/-- CC-2 and CC-3: BadCommand carries the OP and comes before BadLength. -/
theorem test_reserved :
    (ran .reservedOp0 (withInput 0 [])).err = ⟨0x10, 0, 0, 0⟩ ∧
      (ran .reservedOpF { withInput 15 [] with latchLen := 0x7FFFFFFF }).err = ⟨0x10, 0, 0x0F, 0⟩ := by
  decide +kernel

/-- CC-4: an IN_LEN one byte above IN_MEM_SIZE. -/
theorem test_badLength :
    (ran .rle { withInput 2 [] with latchLen := 0x400001 }).err = ⟨0x11, 0x400001, 0, 0⟩ := by decide +kernel

/-- P2's START with IE = 1 latches CMD and IN_LEN. -/
theorem test_start :
    (fun s : State => (s.phase, s.ie, s.latchOp, s.latchLen))
        (ran (.ctrlStart true) { State.reset with cmdOp := 3, inLen := 91 }) = (.busy, true, 3, 91) := by decide

/-- CC-14: SRST and START together are a soft reset alone. -/
theorem test_srst_with_start : (ran (.ctrlSrst true false) State.reset).statusWord = 0 := by decide

/-- CC-15: acknowledging everything leaves ERR, which is a view of ERR_CODE. -/
theorem test_ack :
    (ran (.statusW1C true true true)
      { State.reset with done := true, err := ⟨4, 0, 0, 3⟩ }).statusWord = 0x04 := by decide

/-- CC-9: a word written to IN_MEM lies there with its low byte first. -/
theorem test_lanes :
    (hostAccess (.w32 0x01000000 0x69685428) State.reset).inMem.bytes = [0x28, 0x54, 0x68, 0x69] := by
  decide +kernel

/-- CC-6, CC-7, CC-8: illegal accesses set ACC_ERR. -/
theorem test_illegal :
    (hostAccess (.r8 0x14) State.reset).statusWord = 0x08 ∧
      (hostAccess (.w32 0x01000002 0x12345678) State.reset).statusWord = 0x08 ∧
      (hostAccess (.w32 0x200 1) State.reset).statusWord = 0x08 := by decide +kernel

/-! ## Witnesses: states and operands that meet the hypotheses of a statement, clause by clause -/

theorem witness_DecodeAndEncodeAgree : decode .ctrlWrite 0xFFFFFFFB = .ok (.ctrlStart true) := by decide

theorem witness_ControlWritesAndReservedBits :
    (0x00000001 : Word) &&& writeMask .ctrl = 0xFFFFFFF9 &&& writeMask .ctrl ∧
    (0x0000000F : Word) &&& writeMask .cmd = 0xFFFFFFFF &&& writeMask .cmd ∧
    (0x00000000 : Word) &&& writeMask .id = 0xFFFFFFFF &&& writeMask .id := by decide

theorem witness_StepRunsDecodedOperation :
    ((queuedBusy []).phase = .busy ∧ (queuedBusy []).agenda = []) ∧
    ((queuedBusy [.engine]).phase = .busy ∧ (queuedBusy [.engine]).agenda.head? = some .engine) ∧
    ((queued []).phase = .idle ∧ (queued []).agenda = []) ∧
    ((queued [.engine]).phase = .idle ∧ (queued [.engine]).agenda.head? = some .engine) ∧
    ((queued [.host (.w32 0x14 0x1)]).agenda = .host (.w32 0x14 0x1) :: [] ∧
      decode .ctrlWrite 0x1 = .ok (.ctrlStart false)) ∧
    ((queued [.host (.w32 0x14 0x4)]).agenda = .host (.w32 0x14 0x4) :: [] ∧
      decode .ctrlWrite 0x4 = .ok (.ctrlSrst false false)) ∧
    ((queued [.host (.w32 0x20 0x2)]).agenda = .host (.w32 0x20 0x2) :: [] ∧
      decode .statusWrite 0x2 = .ok (.statusW1C true false false)) := by decide

theorem witness_StepRunsEveryBusAccess :
    (queued [.host (.r32 0x20), .engine]).agenda = .host (.r32 0x20) :: [.engine] := by decide

theorem witness_AcceptedCommandEnds :
    (queuedBusy []).phase = .busy ∧ (queuedBusy [.host (.r32 0x20), .hardReset]).phase = .busy := by decide

theorem witness_StartAcceptedOnlyWhenIdle :
    (queued [.host (.w32 0x14 0x3)]).agenda = .host (.w32 0x14 0x3) :: [] ∧ (0x3 : Word).getLsbD 0 = true ∧
      (0x3 : Word).getLsbD 2 = false ∧ (queued [.host (.w32 0x14 0x3)]).phase = .idle ∧
      (queuedBusy [.host (.w32 0x14 0x3)]).agenda = .host (.w32 0x14 0x3) :: [] ∧
      (queuedBusy [.host (.w32 0x14 0x3)]).phase = .busy := by decide

theorem witness_StartNotAcceptedWhenBusy :
    (queuedBusy [.host (.w32 0x14 0x1)]).agenda = .host (.w32 0x14 0x1) :: [] ∧
      (0x1 : Word).getLsbD 0 = true ∧ (0x1 : Word).getLsbD 2 = false ∧
      (queuedBusy [.host (.w32 0x14 0x1)]).phase = .busy := by decide

theorem witness_SoftResetEffect : (queued []).phase = .idle ∧ (queuedBusy []).phase = .busy := by decide

theorem witness_CtrlRegister :
    ((queued [.host (.w32 0x14 0x7)]).agenda = .host (.w32 0x14 0x7) :: [] ∧ (0x7 : Word).getLsbD 2 = true) ∧
    ((queued [.host (.w32 0x14 0x3)]).agenda = .host (.w32 0x14 0x3) :: [] ∧
      (0x3 : Word).getLsbD 2 = false ∧ (0x3 : Word).getLsbD 0 = true) ∧
    ((queued [.host (.w32 0x14 0xFFFFFFFA)]).agenda = .host (.w32 0x14 0xFFFFFFFA) :: [] ∧
      (0xFFFFFFFA : Word).getLsbD 2 = false ∧ (0xFFFFFFFA : Word).getLsbD 0 = false) := by decide

theorem witness_DoneRisesOnlyAtCompletion :
    ∃ t, step (queuedBusy []) = .next t ∧ (queuedBusy []).done = false ∧ t.done = true :=
  ⟨_, rfl, rfl, rfl⟩

theorem witness_HardResetLeavesResetState :
    (queued [.hardReset, .engine]).agenda = .hardReset :: [.engine] := by decide

theorem witness_LegalAccesses : Params.default.Legal := default_legal

/-- The first and last legal places of every region. -/
theorem test_legal_boundaries :
    legalAccess Params.default .word 0x0 = true ∧ legalAccess Params.default .word 0xFC = true ∧
    legalAccess Params.default .byte 0x100 = true ∧ legalAccess Params.default .byte 0x1FF = true ∧
    legalAccess Params.default .word 0x1FC = true ∧
    legalAccess Params.default .byte 0x13FFFFF = true ∧ legalAccess Params.default .word 0x13FFFFC = true ∧
    legalAccess Params.default .byte 0x23FFFFF = true ∧ legalAccess Params.default .word 0x23FFFFC = true ∧
    legalAccess Params.default .byte 0xFF = false ∧ legalAccess Params.default .word 0x200 = false ∧
    legalAccess Params.default .byte 0x1400000 = false ∧ legalAccess Params.default .byte 0x2400000 = false ∧
    legalAccess Params.default .byte 0xFFFFFF = false ∧ legalAccess Params.default .word 0x13FFFFE = false := by
  decide +kernel

theorem witness_IllegalAccessOnlySetsAccErr :
    ∀ x ∈ [HostAccess.r8 0x14, .r32 0x1400000, .w8 0x200 1, .w32 0x1000002 1],
      (queued [.host x]).params.Legal ∧ (queued [.host x]).agenda = .host x :: [] ∧
        ¬ SpecLegal Params.default (hostWidth x) (hostAddr x) := by
  intro x h
  refine ⟨default_legal, rfl, ?_⟩
  revert x
  unfold SpecLegal
  decide +kernel

/-- ACC_ERR cleared by a STATUS write, by a soft reset and by a hard reset. -/
theorem witness_IllegalAccessOnlySetsAccErr_cleared :
    (∃ t, step { queued [.host (.w32 0x20 0x8)] with accErr := true } = .next t ∧ t.accErr = false) ∧
    (∃ t, step { queued [.host (.w32 0x14 0x4)] with accErr := true } = .next t ∧ t.accErr = false) ∧
    ∃ t, step { queued [.hardReset] with accErr := true } = .next t ∧ t.accErr = false :=
  ⟨⟨_, rfl, by decide⟩, ⟨_, rfl, by decide⟩, ⟨_, rfl, by decide⟩⟩

theorem witness_InMemHostAccess :
    (queued []).params.Legal ∧
    ((queued [.host (.r8 0x13FFFFF)]).agenda = .host (.r8 0x13FFFFF) :: [] ∧
      (0x13FFFFF : Word).toNat = 0x1000000 + 0x3FFFFF ∧ 0x3FFFFF < Params.default.inMemSize) ∧
    ((queued [.host (.r32 0x13FFFFC)]).agenda = .host (.r32 0x13FFFFC) :: [] ∧
      (0x13FFFFC : Word).toNat = 0x1000000 + 0x3FFFFC ∧ 0x3FFFFC % 4 = 0 ∧
      0x3FFFFC + 4 ≤ Params.default.inMemSize) ∧
    ((queued [.host (.w8 0x1000000 7)]).agenda = .host (.w8 0x1000000 7) :: [] ∧
      (0x1000000 : Word).toNat = 0x1000000 + 0 ∧ 0 < Params.default.inMemSize ∧
      (queued [.host (.w8 0x1000000 7)]).phase = .idle) ∧
    ((queuedBusy [.host (.w8 0x1000000 7)]).agenda = .host (.w8 0x1000000 7) :: [] ∧
      (queuedBusy [.host (.w8 0x1000000 7)]).phase = .busy) ∧
    ((queued [.host (.w32 0x13FFFFC 7)]).agenda = .host (.w32 0x13FFFFC 7) :: [] ∧
      (queued [.host (.w32 0x13FFFFC 7)]).phase = .idle) ∧
    ((queuedBusy [.host (.w32 0x13FFFFC 7)]).agenda = .host (.w32 0x13FFFFC 7) :: [] ∧
      (queuedBusy [.host (.w32 0x13FFFFC 7)]).phase = .busy) :=
  ⟨default_legal, by decide +kernel⟩

/-- An output of two bytes, its last byte, and the first byte beyond it. -/
theorem witness_OutMemHostAccess_afterResult :
    1 < ([7, 8] : Bytes).length ∧ ([7, 8] : Bytes).length ≤ 2 := by decide

theorem witness_OutMemHostAccess :
    (queued []).params.Legal ∧
    ((queued [.host (.r8 0x23FFFFF)]).agenda = .host (.r8 0x23FFFFF) :: [] ∧
      (0x23FFFFF : Word).toNat = 0x2000000 + 0x3FFFFF ∧ 0x3FFFFF < Params.default.outMemSize ∧
      (queued [.host (.r8 0x23FFFFF)]).phase = .idle) ∧
    ((queuedBusy [.host (.r8 0x2000000)]).agenda = .host (.r8 0x2000000) :: [] ∧
      (0x2000000 : Word).toNat = 0x2000000 + 0 ∧ (queuedBusy [.host (.r8 0x2000000)]).phase = .busy) ∧
    ((queued [.host (.r32 0x23FFFFC)]).agenda = .host (.r32 0x23FFFFC) :: [] ∧
      (0x23FFFFC : Word).toNat = 0x2000000 + 0x3FFFFC ∧ 0x3FFFFC % 4 = 0 ∧
      0x3FFFFC + 4 ≤ Params.default.outMemSize) ∧
    ((queuedBusy [.host (.r32 0x23FFFFC)]).agenda = .host (.r32 0x23FFFFC) :: [] ∧
      (queuedBusy [.host (.r32 0x23FFFFC)]).phase = .busy) ∧
    (queued [.host (.w8 0x2000000 1)]).agenda = .host (.w8 0x2000000 1) :: [] ∧
    (queued [.host (.w32 0x2000000 1)]).agenda = .host (.w32 0x2000000 1) :: [] :=
  ⟨default_legal, by decide +kernel⟩

/-- The first and last address of each window, and each kind of access. -/
theorem witness_WindowHostAccess :
    (∀ a ∈ [(0x100 : Word), 0x13F, 0x140, 0x193, 0x194, 0x1FF], 0x100 ≤ a.toNat ∧ a.toNat < 0x200 ∧
      (queued [.host (.r8 a)]).agenda = .host (.r8 a) :: [] ∧
      (queued [.host (.w8 a 1)]).agenda = .host (.w8 a 1) :: []) ∧
    (∀ a ∈ [(0x100 : Word), 0x13C, 0x140, 0x190, 0x194, 0x1FC], 0x100 ≤ a.toNat ∧ a.toNat < 0x200 ∧
      a.toNat % 4 = 0 ∧ (queued [.host (.r32 a)]).agenda = .host (.r32 a) :: [] ∧
      (queued [.host (.w32 a 1)]).agenda = .host (.w32 a 1) :: []) ∧
    (0x194 ≤ 0x194 ∧ 0x194 < 0x200) := by
  refine ⟨?_, ?_, by decide⟩
  · intro a h
    simp only [List.mem_cons, List.not_mem_nil, or_false] at h
    rcases h with rfl | rfl | rfl | rfl | rfl | rfl <;> exact ⟨by decide, by decide, rfl, rfl⟩
  · intro a h
    simp only [List.mem_cons, List.not_mem_nil, or_false] at h
    rcases h with rfl | rfl | rfl | rfl | rfl | rfl <;> exact ⟨by decide, by decide, by decide, rfl, rfl⟩

theorem witness_ReservedRegistersRazWi :
    ∀ a ∈ [(0x60 : Word), 0xFC], 0x60 ≤ a.toNat ∧ a.toNat ≤ 0xFC ∧ a.toNat % 4 = 0 ∧
      (queued [.host (.r32 a)]).agenda = .host (.r32 a) :: [] ∧
      (queued [.host (.w32 a 1)]).agenda = .host (.w32 a 1) :: [] := by
  intro a h
  simp only [List.mem_cons, List.not_mem_nil, or_false] at h
  rcases h with rfl | rfl <;> exact ⟨by decide, by decide, by decide, rfl, rfl⟩

theorem witness_ConstantRegisters :
    ((0x010 : Word), BitVec.ofNat 32 (queued [.host (.r32 0x010)]).params.xsSize) ∈
      [((0x000 : Word), (0x42485844 : Word)), (0x004, 0x00000001),
        (0x008, BitVec.ofNat 32 Params.default.inMemSize), (0x00C, BitVec.ofNat 32 Params.default.outMemSize),
        (0x010, BitVec.ofNat 32 Params.default.xsSize)] ∧
    (queued [.host (.r32 0x010)]).agenda = .host (.r32 0x010) :: [] ∧
    (queued [.host (.w32 0x000 5)]).agenda = .host (.w32 0x000 5) :: [] := by decide

/-- Both ends of each range of RegisterReadsAndReadOnlyWrites. -/
theorem witness_RegisterReadsAndReadOnlyWrites :
    (queued [.host (.r32 0x000)]).agenda = .host (.r32 0x000) :: [] ∧
    (queued [.host (.r32 0x05C)]).agenda = .host (.r32 0x05C) :: [] ∧
    (queued [.host (.w32 0x010 1)]).agenda = .host (.w32 0x010 1) :: [] ∧ (0x010 : Word).toNat < 0x014 ∧
    (queued [.host (.w32 0x024 1)]).agenda = .host (.w32 0x024 1) :: [] ∧ 0x024 ≤ (0x024 : Word).toNat ∧
    (queued [.host (.w32 0x05C 1)]).agenda = .host (.w32 0x05C 1) :: [] ∧ (0x05C : Word).toNat < 0x060 ∧
    (0x05C : Word).toNat % 4 = 0 := by decide

/-- 10_state.md R24: ERR_INFO with STAGE = 5 and DETAIL = 0x11 reads 0x511. -/
theorem test_errInfo_layout :
    ∃ t, step { queued [.host (.r32 0x02C)] with err := ⟨0x06, 0, 0x11, 5⟩ } = .next t ∧ t.readData = 0x511 :=
  ⟨_, rfl, by decide⟩

/-- 10_state.md R25: RESULT with REC = 2 and IMG = 1 reads 6. -/
theorem test_result_layout :
    ∃ t, step { queued [.host (.r32 0x030)] with res := { ResultRegs.zero with recKind := 2, img := true } } =
      .next t ∧ t.readData = 6 :=
  ⟨_, rfl, by decide⟩

theorem witness_CmdAndInLenWrites :
    ((queued [.host (.w32 0x18 0xFFFFFFFF)]).agenda = .host (.w32 0x18 0xFFFFFFFF) :: [] ∧
      (queued [.host (.w32 0x18 0xFFFFFFFF)]).phase = .idle) ∧
    ((queued [.host (.w32 0x1C 0xFFFFFFFF)]).agenda = .host (.w32 0x1C 0xFFFFFFFF) :: [] ∧
      (queued [.host (.w32 0x1C 0xFFFFFFFF)]).phase = .idle) := by decide

theorem witness_BusyWritesDropped :
    (queuedBusy []).params.Legal ∧ (∀ es, (queuedBusy es).phase = .busy) ∧
    ((queuedBusy [.host (.w8 0x13FFFFF 1)]).agenda = .host (.w8 0x13FFFFF 1) :: [] ∧
      0x1000000 ≤ (0x13FFFFF : Word).toNat ∧ (0x13FFFFF : Word).toNat < 0x1000000 + Params.default.inMemSize) ∧
    ((queuedBusy [.host (.w32 0x13FFFFC 1)]).agenda = .host (.w32 0x13FFFFC 1) :: [] ∧
      0x1000000 ≤ (0x13FFFFC : Word).toNat ∧ (0x13FFFFC : Word).toNat % 4 = 0 ∧
      (0x13FFFFC : Word).toNat + 4 ≤ 0x1000000 + Params.default.inMemSize) ∧
    (queuedBusy [.host (.w32 0x18 1)]).agenda = .host (.w32 0x18 1) :: [] ∧
    (queuedBusy [.host (.w32 0x1C 1)]).agenda = .host (.w32 0x1C 1) :: [] ∧
    ((queuedBusy [.host (.w32 0x14 2)]).agenda = .host (.w32 0x14 2) :: [] ∧
      (0x2 : Word).getLsbD 0 = false ∧ (0x2 : Word).getLsbD 2 = false) ∧
    ((queuedBusy [.host (.w32 0x14 7)]).agenda = .host (.w32 0x14 7) :: [] ∧ (0x7 : Word).getLsbD 2 = true) ∧
    (queuedBusy [.host (.w32 0x20 0x1A)]).agenda = .host (.w32 0x20 0x1A) :: [] :=
  ⟨default_legal, fun _ => rfl, by decide⟩

theorem witness_HostAccessNeverDisturbsCommand :
    (queuedBusy [.host (.w32 0x14 2)]).agenda = .host (.w32 0x14 2) :: [] ∧
    (∀ v : Word, HostAccess.w32 0x14 2 = .w32 0x14 v → v.getLsbD 0 = false ∧ v.getLsbD 2 = false) ∧
    ∃ t, step (queuedBusy [.host (.w32 0x14 2)]) = .next t := by
  refine ⟨rfl, ?_, _, rfl⟩
  intro v h
  cases h
  decide

/-- A legal read while IDLE, an illegal one, and a read of OUT_MEM while BUSY. -/
theorem witness_ReadsHaveNoSideEffect :
    ((queued [.host (.r32 0x20)]).agenda = .host (.r32 0x20) :: [] ∧ isHostRead (.r32 0x20) = true ∧
      (∃ t, step (queued [.host (.r32 0x20)]) = .next t) ∧
      legalAccess Params.default (hostWidth (.r32 0x20)) (hostAddr (.r32 0x20)) = true ∧
      (queued [.host (.r32 0x20)]).phase = .idle) ∧
    ((queued [.host (.r8 0x20)]).agenda = .host (.r8 0x20) :: [] ∧ isHostRead (.r8 0x20) = true ∧
      (∃ t, step (queued [.host (.r8 0x20)]) = .next t) ∧
      legalAccess Params.default (hostWidth (.r8 0x20)) (hostAddr (.r8 0x20)) = false) ∧
    ((queuedBusy [.host (.r8 0x2000000)]).agenda = .host (.r8 0x2000000) :: [] ∧
      (queuedBusy [.host (.r8 0x2000000)]).phase = .busy ∧
      (∃ t, step (queuedBusy [.host (.r8 0x2000000)]) = .next t) ∧ 0x2000000 ≤ hostAddr (.r8 0x2000000) ∧
      legalAccess Params.default (hostWidth (.r8 0x2000000)) (hostAddr (.r8 0x2000000)) = true) ∧
    Params.default.Legal :=
  ⟨⟨rfl, rfl, ⟨_, rfl⟩, by decide, rfl⟩, ⟨rfl, rfl, ⟨_, rfl⟩, by decide⟩,
    ⟨rfl, rfl, ⟨_, rfl⟩, by decide, by decide⟩, default_legal⟩

/-- The OPs at both ends of each range, and an IN_LEN one byte too long. -/
theorem witness_CommandChecks :
    (∀ op ∈ [(0x0 : BitVec 4), 0x8, 0xF], (withInput op []).phase = .busy ∧ (withInput op []).agenda = [] ∧
      ¬ (1 ≤ (withInput op []).latchOp.toNat ∧ (withInput op []).latchOp.toNat ≤ 7)) ∧
    ∀ op ∈ [(0x1 : BitVec 4), 0x7],
      1 ≤ op.toNat ∧ op.toNat ≤ 7 ∧ Params.default.inMemSize < (0x400001 : Word).toNat ∧
      { withInput op [] with latchLen := 0x400001 }.phase = .busy ∧
      { withInput op [] with latchLen := 0x400001 }.agenda = [] := by decide

theorem witness_CommandFrame :
    (∃ t, exec (decodeOp 0x2) (withInput 2 []) = .next t) ∧ (0x2 : BitVec 4) ≠ 3 ∧ (0x2 : BitVec 4) ≠ 6 :=
  ⟨⟨_, rfl⟩, by decide, by decide⟩

theorem witness_SixbitDemodulates :
    ∀ bs ∈ [[], [(0x21 : Byte)], List.replicate 8 0x72, [0x20, 0x0D, 0x0A]],
      (BitVec.ofNat 32 bs.length).toNat ≤ Params.default.inMemSize ∧ (withInput 1 bs).input = bs ∧
      TextValid Params.default bs := by
  intro bs h
  have hl : bs.length < 2 ^ 32 := by
    revert bs
    decide
  refine ⟨?_, input_withInput 1 hl, ?_⟩
  · revert bs
    decide
  · revert bs
    unfold TextValid
    decide

theorem witness_SixbitInvalidCharacter :
    (withInput 1 [0x21, 0x37]).input = [0x21] ++ 0x37 :: [] ∧
      (withInput 1 [0x21, 0x37]).latchLen.toNat ≤ (withInput 1 [0x21, 0x37]).params.inMemSize ∧
      TextValid Params.default [0x21] ∧ (0x37 : Byte) ∉ Params.default.whitespace ∧
      (0x37 : Byte) ∉ Params.default.alphabet :=
  ⟨input_withInput 1 (by decide), by decide, by unfold TextValid; decide, by decide, by decide⟩

theorem witness_SixbitOutputLength :
    sixBit Params.default [0x21] 0 = .ok [0, 0, 0, 0, 0, 0] ∧ Params.default.Legal ∧
      ([0x21] : Bytes).length ≤ Params.default.inMemSize := by
  refine ⟨?_, default_legal, by decide⟩
  rw [sixBit_valid (by unfold TextValid; decide)]
  exact congrArg Except.ok (by decide +kernel)

/-- RL-3 as tokens: a literal, then a run. -/
theorem witness_RleExpandsTokens :
    TokensOk [.literal 0x41, .run 3] ∧ (withInput 2 [0x41, 0x90, 3]).input = tokenBytes [.literal 0x41, .run 3] ∧
      (withInput 2 [0x41, 0x90, 3]).latchLen.toNat ≤ Params.default.inMemSize ∧
      (expandTokens [.literal 0x41, .run 3]).length ≤ Params.default.outMemSize := by
  refine ⟨⟨?_, ?_⟩, input_withInput 2 (by decide), by decide, by decide⟩
  · intro t ht
    simp only [List.mem_cons, List.not_mem_nil, or_false] at ht
    rcases ht with rfl | rfl
    · exact (by decide : (0x41 : Byte) ≠ 0x90)
    · exact (by decide : (3 : Byte) ≠ 0)
  · intro n
    decide +revert

theorem witness_RleIdentityWithoutEscapes :
    (0x90 : Byte) ∉ ([0x41, 0x42, 0x43] : Bytes) ∧ ([0x41, 0x42, 0x43] : Bytes).length ≤ 3 := by decide

theorem tokensOk_nil : TokensOk [] := ⟨by simp, by simp⟩

theorem tokensOk_literal : TokensOk [.literal 0x41] := by
  refine ⟨?_, by simp⟩
  intro t ht
  simp only [List.mem_cons, List.not_mem_nil, or_false] at ht
  subst ht
  exact (by decide : (0x41 : Byte) ≠ 0x90)

theorem tokensOk_literal_run : TokensOk [.literal 0x41, .run 5] := by
  refine ⟨?_, by simp⟩
  intro t ht
  simp only [List.mem_cons, List.not_mem_nil, or_false] at ht
  rcases ht with rfl | rfl
  · exact (by decide : (0x41 : Byte) ≠ 0x90)
  · exact (by decide : (5 : Byte) ≠ 0)

/-- RL-13: an escape byte at the end. -/
theorem witness_RleErrors_truncated :
    TokensOk [.literal 0x41] ∧ (withInput 2 [0x41, 0x90]).input = tokenBytes [.literal 0x41] ++ [0x90] ∧
      (withInput 2 [0x41, 0x90]).latchLen.toNat ≤ Params.default.inMemSize ∧
      (expandTokens [.literal 0x41]).length ≤ Params.default.outMemSize :=
  ⟨tokensOk_literal, input_withInput 2 (by decide), by decide, by decide⟩

/-- RL-11 and RL-12: a run first, with the least and a larger count. -/
theorem witness_RleErrors_malformed :
    TokensOk [] ∧ (∀ n ∈ [(1 : Byte), 5], (withInput 2 [0x90, n]).input = 0x90 :: n :: [] ∧ n ≠ 0) ∧
      (expandTokens []).length ≤ Params.default.outMemSize :=
  ⟨tokensOk_nil, fun n hn => ⟨input_withInput 2 (Nat.lt_of_sub_pos (by simp)), by revert n; decide⟩, by decide⟩

/-- RL-18: OUT_MEM of 4 bytes, and a run that needs a fifth. -/
theorem witness_RleErrors_capacity :
    { withInput 2 [0x41, 0x90, 5] with params := { Params.default with outMemSize := 4 } }.input =
      tokenBytes ([.literal 0x41] ++ [.run 5]) ++ [] ∧
    TokensOk [.literal 0x41] ∧ TokensOk ([.literal 0x41] ++ [.run 5]) ∧
    (expandTokens [.literal 0x41]).length ≤ 4 ∧ 4 < (expandTokens ([.literal 0x41] ++ [.run 5])).length :=
  ⟨input_withInput 2 (bs := [0x41, 0x90, 5]) (by decide), tokensOk_literal, tokensOk_literal_run, by decide, by decide⟩

/-- RL-11: the right side of MalformedRunIsFirstToken. -/
theorem witness_MalformedRunIsFirstToken : rle 4 [0x90, 5] = .error ⟨.malformedRun, 0, .rle, 0⟩ := by
  rw [rle, rleGo_malformed (by decide)]

/-! ### BinHex texts -/

theorem not_sig_short {t : Bytes} (h : t.length < 45) (j : Nat) : ¬ SigAt t j := by
  intro hs
  have h1 := hs.length_le
  have h2 : binhexSignature.length = 45 := rfl
  rw [List.length_drop] at h1
  omega

/-- BH-3: an input with no signature. -/
theorem witness_BinhexSignatureSearch :
    (withInput 3 [0x68, 0x3A, 0x3A]).latchLen.toNat ≤ Params.default.inMemSize ∧
      ∀ j, ¬ SigAt (withInput 3 [0x68, 0x3A, 0x3A]).input j := by
  refine ⟨by decide, ?_⟩
  rw [input_withInput 3 (by decide)]
  exact not_sig_short (by decide)

/-- BH-4 and BH-5: no colon, one colon. -/
theorem witness_BinhexMissingDelimiter :
    ((withInput 3 (binhexSignature ++ [0x0D, 0x0A])).input = [] ++ binhexSignature ++ [0x0D, 0x0A] ∧
      (withInput 3 (binhexSignature ++ [0x0D, 0x0A])).latchLen.toNat ≤ Params.default.inMemSize) ∧
    ((withInput 3 (binhexSignature ++ [0x0D, 0x0A] ++ [0x3A] ++ [0x21, 0x21])).input =
        [] ++ binhexSignature ++ [0x0D, 0x0A] ++ [0x3A] ++ [0x21, 0x21] ∧
      (withInput 3 (binhexSignature ++ [0x0D, 0x0A] ++ [0x3A] ++ [0x21, 0x21])).latchLen.toNat ≤
        Params.default.inMemSize) ∧
    (0x3A : Byte) ∉ ([0x0D, 0x0A] : Bytes) ∧ (0x3A : Byte) ∉ ([0x21, 0x21] : Bytes) ∧
    ∀ t : Bytes, ∀ j < ([] : Bytes).length, ¬ SigAt t j :=
  ⟨⟨input_withInput 3 (by decide), by decide⟩, ⟨input_withInput 3 (by decide), by decide⟩, by decide, by decide,
    fun t j hj => absurd hj (Nat.not_lt_zero j)⟩

/-- A text whose payload is given, with nothing else around it. -/
def textOf (payload : Bytes) : Bytes := [] ++ binhexSignature ++ [] ++ [0x3A] ++ payload ++ [0x3A] ++ []

theorem isBinhexText_textOf (op : BitVec 4) {payload : Bytes} (h : (textOf payload).length < 2 ^ 32)
    (hc : (0x3A : Byte) ∉ payload) : IsBinhexText (withInput op (textOf payload)).input [] [] payload [] :=
  ⟨input_withInput op h, fun j hj => absurd hj (Nat.not_lt_zero j), List.not_mem_nil, hc⟩

/-- An invalid byte in the payload of a BinHex text. -/
theorem witness_SixbitInvalidCharacter_binhex :
    (withInput 3 (textOf ([0x21] ++ 0x37 :: []))).latchLen.toNat ≤ Params.default.inMemSize ∧
      IsBinhexText (withInput 3 (textOf ([0x21] ++ 0x37 :: []))).input [] [] ([0x21] ++ 0x37 :: []) [] :=
  ⟨by decide, isBinhexText_textOf 3 (by decide) (by decide)⟩

/-- A payload that demodulates to 90 01 00 00 00 00, a run with nothing before it. -/
theorem witness_RleErrors_binhex :
    (withInput 3 (textOf [0x4E, 0x21, 0x25])).latchLen.toNat ≤ Params.default.inMemSize ∧
      IsBinhexText (withInput 3 (textOf [0x4E, 0x21, 0x25])).input [] [] [0x4E, 0x21, 0x25] [] ∧
      TextValid Params.default [0x4E, 0x21, 0x25] ∧
      rle Params.default.xsSize (demodulated (textValues Params.default [0x4E, 0x21, 0x25])) =
        .error ⟨.malformedRun, 0, .rle, 0⟩ := by
  refine ⟨by decide, isBinhexText_textOf 3 (by decide) (by decide), by unfold TextValid; decide, ?_⟩
  have h : demodulated (textValues Params.default [0x4E, 0x21, 0x25]) = [0x90, 0x01, 0, 0, 0, 0] := by
    decide +kernel
  rw [h, rle, rleGo_malformed (by decide)]

/-- The empty payload of 44_binhex.md R215: an empty stream and TruncatedInput at 0. -/
theorem witness_BinhexRecordChecks_binhex :
    (withInput 3 (textOf [])).latchLen.toNat ≤ Params.default.inMemSize ∧
      IsBinhexText (withInput 3 (textOf [])).input [] [] [] [] ∧ TextValid Params.default [] ∧
      demodulated (textValues Params.default []) = tokenBytes [] ∧ TokensOk [] ∧
      (expandTokens []).length ≤ Params.default.xsSize ∧
      parseBinhex Params.default (expandTokens []) = .error ⟨.truncatedInput, 0, .bhParse, 0⟩ :=
  ⟨by decide, isBinhexText_textOf 3 (by decide) (by decide), by unfold TextValid; decide, rfl, tokensOk_nil,
    by decide, rfl⟩

/-- The record of BH-1. -/
def t1Record : BinhexFields where
  name := [0x41]
  t0 := 0x54
  t1 := 0x45
  t2 := 0x58
  t3 := 0x54
  c0 := 0x74
  c1 := 0x74
  c2 := 0x78
  c3 := 0x74
  flags := 0x0100
  hcrc := 0x1234
  data := [0x41, 0x41, 0x41, 0x41]
  dcrc := 0x5678
  rsrc := []
  rcrc := 0x9ABC

/-- The tokens of BH-1's stream C. -/
def t1Tokens : List RleToken :=
  ([0x01, 0x41, 0x00, 0x54, 0x45, 0x58, 0x54, 0x74, 0x74, 0x78, 0x74, 0x01, 0x00, 0x00, 0x00, 0x00, 0x04, 0x00,
    0x00, 0x00, 0x00, 0x12, 0x34, 0x41] : Bytes).map .literal ++ [.run 4] ++
  ([0x56, 0x78, 0x9A, 0xBC] : Bytes).map .literal

theorem tokensOk_t1 : TokensOk t1Tokens := by
  refine ⟨?_, ?_⟩
  · intro t ht
    simp only [t1Tokens, List.mem_append, List.mem_map, List.mem_singleton] at ht
    rcases ht with (⟨b, hb, rfl⟩ | rfl) | ⟨b, hb, rfl⟩
    · exact (by revert b; decide : b ≠ 0x90)
    · exact (by decide : (4 : Byte) ≠ 0)
    · exact (by revert b; decide : b ≠ 0x90)
  · intro n
    simp [t1Tokens]

/-- BH-1's text carries its record. -/
theorem carries_t1 (op : BitVec 4) :
    CarriesRecord (withInput op t1) [] [0x0D, 0x0A] t1Payload [0x0D, 0x0A] t1Tokens t1Record [] := by
  refine ⟨?_, ?_, ?_, tokensOk_t1, ?_, ?_, ?_⟩
  · rw [input_withInput op (by decide)]
    exact ⟨by decide +kernel, fun j hj => absurd hj (Nat.not_lt_zero j), by decide, by decide⟩
  · show TextValid Params.default t1Payload
    unfold TextValid
    decide +kernel
  · show demodulated (textValues Params.default t1Payload) = tokenBytes t1Tokens
    decide +kernel
  · decide +kernel
  · show (expandTokens t1Tokens).length ≤ Params.default.xsSize
    decide +kernel
  · show t1Record.Fits Params.default
    unfold BinhexFields.Fits
    decide

theorem witness_BinhexDecodesRecord :
    (withInput 3 t1).latchLen.toNat ≤ (withInput 3 t1).params.inMemSize ∧
      CarriesRecord (withInput 3 t1) [] [0x0D, 0x0A] t1Payload [0x0D, 0x0A] t1Tokens t1Record [] :=
  ⟨by decide, carries_t1 3⟩

/-- PL-2: a record whose data fork is no image. -/
theorem witness_BinhexDskDecodesImage_error :
    (withInput 6 t1).latchLen.toNat ≤ (withInput 6 t1).params.inMemSize ∧
      CarriesRecord (withInput 6 t1) [] [0x0D, 0x0A] t1Payload [0x0D, 0x0A] t1Tokens t1Record [] ∧
      diskError t1Record.data = some (0x08, 4) :=
  ⟨by decide, carries_t1 6, by decide⟩

/-- A stream with name length n, sentinel z and fork lengths d and r, m bytes after the CRC of the header. -/
def record (n : Nat) (z : Byte) (d r : Word) (m : Nat) : Bytes :=
  [BitVec.ofNat 8 n] ++ List.replicate n 0x41 ++ [z] ++ List.replicate 10 0 ++ be32Bytes d ++ be32Bytes r ++
    [0, 0] ++ List.replicate m 0

/-- What the parse of a stream reports: the error's code, position and detail, or none. -/
def parseReport (x : Bytes) : Option (BitVec 8 × Nat × BitVec 8) :=
  match parseBinhex Params.default x with
  | .error e => some (e.name.code, e.pos, e.detail)
  | .ok _ => none

/-- The first and last length at which each read of BinhexRecordChecks is truncated, for a record with N = 1,
D = 2 and R = 1 (BH-18 among them), and the whole record. -/
theorem witness_BinhexRecordChecks_truncated :
    (∀ q ∈ [(0, 0), (1, 1), (2, 2), (3, 3), (6, 3), (7, 7), (10, 7), (11, 11), (12, 11), (13, 13), (16, 13),
        (17, 17), (20, 17), (21, 21), (22, 21), (23, 23), (24, 23), (25, 25), (26, 25), (27, 27), (28, 28),
        (29, 28)],
      parseReport ((record 1 0 2 1 7).take q.1) = some (0x07, q.2, 0)) ∧
    parseReport (record 1 0 2 1 7) = none := by decide +kernel

/-- Each malformed field and each truncated fork of BinhexRecordChecks at the ends of its ranges. -/
theorem witness_BinhexRecordChecks :
    (∀ n ∈ [0, 64, 255], n = (byteAt (record n 0 0 0 0) 0).toNat ∧ 1 ≤ (record n 0 0 0 0).length ∧
      Params.default.bhNameCheck = true ∧ (n < 1 ∨ 63 < n)) ∧
    (∀ n ∈ [1, 63], n = (byteAt (record n 1 0 0 0) 0).toNat ∧ 1 ≤ n ∧ n ≤ 63 ∧
      2 + n ≤ (record n 1 0 0 0).length ∧ byteAt (record n 1 0 0 0) (1 + n) ≠ 0) ∧
    (∀ n ∈ [1, 63], n = (byteAt (record n 0 0x80000000 0 0) 0).toNat ∧
      byteAt (record n 0 0x80000000 0 0) (1 + n) = 0 ∧ 16 + n ≤ (record n 0 0x80000000 0 0).length ∧
      2 ^ 31 ≤ be32At (record n 0 0x80000000 0 0) (12 + n)) ∧
    (∀ n ∈ [1, 63], n = (byteAt (record n 0 0x7FFFFFFF 0x80000000 0) 0).toNat ∧
      byteAt (record n 0 0x7FFFFFFF 0x80000000 0) (1 + n) = 0 ∧
      20 + n ≤ (record n 0 0x7FFFFFFF 0x80000000 0).length ∧
      be32At (record n 0 0x7FFFFFFF 0x80000000 0) (12 + n) < 2 ^ 31 ∧
      2 ^ 31 ≤ be32At (record n 0 0x7FFFFFFF 0x80000000 0) (16 + n)) ∧
    (∀ n ∈ [1, 63], n = (byteAt (record n 0 2 0 1) 0).toNat ∧ byteAt (record n 0 2 0 1) (1 + n) = 0 ∧
      22 + n ≤ (record n 0 2 0 1).length ∧ be32At (record n 0 2 0 1) (12 + n) < 2 ^ 31 ∧
      be32At (record n 0 2 0 1) (16 + n) < 2 ^ 31 ∧
      (record n 0 2 0 1).length < 22 + n + be32At (record n 0 2 0 1) (12 + n)) ∧
    (∀ n ∈ [1, 63], n = (byteAt (record n 0 1 1 3) 0).toNat ∧ byteAt (record n 0 1 1 3) (1 + n) = 0 ∧
      22 + n ≤ (record n 0 1 1 3).length ∧ be32At (record n 0 1 1 3) (12 + n) < 2 ^ 31 ∧
      be32At (record n 0 1 1 3) (16 + n) < 2 ^ 31 ∧
      24 + n + be32At (record n 0 1 1 3) (12 + n) ≤ (record n 0 1 1 3).length ∧
      (record n 0 1 1 3).length <
        24 + n + be32At (record n 0 1 1 3) (12 + n) + be32At (record n 0 1 1 3) (16 + n)) := by decide +kernel

/-! ### MacBinary files -/

/-- MB-15 and MB-1: the shortest file, and one with both forks. -/
theorem witness_MacbinDecodesRecord :
    ∀ b ∈ [macHeader 0 0, mb1], (BitVec.ofNat 32 b.length).toNat ≤ Params.default.inMemSize ∧
      (withInput 4 b).input = b ∧ MacFileOk Params.default b := by
  intro b h
  have hl : b.length < 2 ^ 32 := by
    revert b
    decide +kernel
  refine ⟨?_, input_withInput 4 hl, ?_⟩
  · revert b
    decide +kernel
  · revert b
    unfold MacFileOk MacHeaderOk
    decide +kernel

/-- MB-11, then MB-6, MB-4, MB-5, MB-7, MB-8, MB-9, MB-10 and H1 itself: each branch of MacbinHeaderChecks. -/
theorem witness_MacbinHeaderChecks :
    (List.replicate 127 (0 : Byte)).length < 128 ∧ (macHeader 0 0).length = 128 ∧
    byteAt ((macHeader 0 0).set 0 1) 0 ≠ 0 ∧
    (byteAt ((macHeader 0 0).set 1 0) 1).toNat < 1 ∧ 63 < (byteAt ((macHeader 0 0).set 1 0x40) 1).toNat ∧
    byteAt ((macHeader 0 0).set 0x4A 1) 0x4A ≠ 0 ∧ byteAt ((macHeader 0 0).set 0x52 1) 0x52 ≠ 0 ∧
    0x7FFFFF < be32At ((macHeader 0 0).set 0x54 0x80) 0x53 ∧
    0x7FFFFF < be32At ((macHeader 0 0).set 0x57 0xFF) 0x57 ∧ MacHeaderOk (macHeader 0 0) := by
  unfold MacHeaderOk
  decide +kernel

theorem witness_MacbinHeaderChecks_inputs :
    ∀ b ∈ [List.replicate 127 (0 : Byte), (macHeader 0 0).set 0 1, (macHeader 0 0).set 1 0,
        (macHeader 0 0).set 1 0x40, (macHeader 0 0).set 0x4A 1, (macHeader 0 0).set 0x52 1,
        (macHeader 0 0).set 0x54 0x80, (macHeader 0 0).set 0x57 0xFF, macHeader 0 0],
      (withInput 4 b).input = b ∧ (withInput 4 b).latchLen.toNat ≤ (withInput 4 b).params.inMemSize := by
  intro b h
  have hl : b.length < 2 ^ 32 := by
    revert b
    decide +kernel
  refine ⟨input_withInput 4 hl, ?_⟩
  revert b
  decide +kernel

/-- MB-12, MB-13 and MB-14: a data fork, a padding and a resource fork one byte short. -/
theorem witness_MacbinTruncatedForks :
    (MacHeaderOk (macHeader 5 0 ++ List.replicate 4 0) ∧
      be32At (macHeader 5 0 ++ List.replicate 4 0) 0x53 = 5 ∧
      (macHeader 5 0 ++ List.replicate 4 0).length < 0x80 + 5) ∧
    (MacHeaderOk (macHeader 5 0 ++ List.replicate 127 0) ∧
      be32At (macHeader 5 0 ++ List.replicate 127 0) 0x53 = 5 ∧ specPadding Params.default 5 = 123 ∧
      0x80 + 5 ≤ (macHeader 5 0 ++ List.replicate 127 0).length ∧
      (macHeader 5 0 ++ List.replicate 127 0).length < 0x80 + 5 + 123) ∧
    (MacHeaderOk (macHeader 5 3 ++ List.replicate 130 0) ∧
      be32At (macHeader 5 3 ++ List.replicate 130 0) 0x53 = 5 ∧
      be32At (macHeader 5 3 ++ List.replicate 130 0) 0x57 = 3 ∧
      0x80 + 5 + 123 ≤ (macHeader 5 3 ++ List.replicate 130 0).length ∧
      (macHeader 5 3 ++ List.replicate 130 0).length < 0x80 + 5 + 123 + 3) := by
  unfold MacHeaderOk
  decide +kernel

theorem witness_MacbinTruncatedForks_inputs :
    ∀ b ∈ [macHeader 5 0 ++ List.replicate 4 0, macHeader 5 0 ++ List.replicate 127 0,
        macHeader 5 3 ++ List.replicate 130 0],
      (withInput 4 b).input = b ∧ (withInput 4 b).latchLen.toNat ≤ (withInput 4 b).params.inMemSize := by
  intro b h
  have hl : b.length < 2 ^ 32 := by
    revert b
    decide +kernel
  refine ⟨input_withInput 4 hl, ?_⟩
  revert b
  decide +kernel

/-- PL-6: a whole MacBinary file whose data fork is no image. -/
theorem witness_MacbinDskImageErrors :
    (withInput 7 mb1).input = mb1 ∧ (withInput 7 mb1).latchLen.toNat ≤ (withInput 7 mb1).params.inMemSize ∧
      MacFileOk Params.default mb1 ∧ diskError (macData mb1) = some (0x08, 5) := by
  refine ⟨input_withInput 7 (by decide +kernel), by decide +kernel, ?_, by decide +kernel⟩
  unfold MacFileOk MacHeaderOk
  decide +kernel

/-! ### Images: inputs too long to write out, whose bytes beyond the header are unspecified -/

/-- An input of n bytes whose first bytes are bs. -/
def longInput (op : BitVec 4) (bs : Bytes) (n : Word) : State :=
  { State.reset with phase := .busy, latchOp := op, latchLen := n, inMem := Memory.ofBytes bs }

theorem length_longInput (op : BitVec 4) (bs : Bytes) (n : Word) : (longInput op bs n).input.length = n.toNat :=
  length_window _ _ _ _

theorem byteAt_longInput (op : BitVec 4) {bs : Bytes} {n : Word} {i : Nat} (hi : i < bs.length) (hn : i < n.toNat) :
    byteAt (longInput op bs n).input i = byteAt bs i := by
  have h : (longInput op bs n).input[i]? = some ((Memory.ofBytes bs).read (Config.unspecInByte 0) (0 + i)) := by
    show ((Memory.ofBytes bs).window _ 0 n.toNat)[i]? = _
    rw [getElem?_window, if_pos hn]
    rfl
  simp only [byteAt, List.getD_eq_getElem?_getD, h, Memory.read, Nat.zero_add, find_ofBytes,
    List.getElem?_eq_getElem hi, Option.getD_some]

theorem be32At_longInput (op : BitVec 4) {bs : Bytes} {n : Word} {i : Nat} (hi : i + 3 < bs.length)
    (hn : i + 3 < n.toNat) : be32At (longInput op bs n).input i = be32At bs i := by
  unfold be32At
  rw [byteAt_longInput op (by omega) (by omega), byteAt_longInput op (by omega) (by omega),
    byteAt_longInput op (by omega) (by omega), byteAt_longInput op hi hn]

/-- H(ds) of 95_test_vectors.md section 2.5, its magic bytes m0 and m1. -/
def diskHeader (ds : Word) (m0 m1 : Byte) : Bytes :=
  List.replicate 64 0 ++ be32Bytes ds ++ List.replicate 14 0 ++ [m0, m1]

/-- DC-1: a whole image. -/
theorem witness_DskExtractsSectors :
    (longInput 5 (diskHeader 409600 1 0) 409684).latchLen.toNat ≤ Params.default.inMemSize ∧
      DiskCopyOk (longInput 5 (diskHeader 409600 1 0) 409684).input := by
  have hb : be32At (longInput 5 (diskHeader 409600 1 0) 409684).input 0x40 = 409600 := by
    rw [be32At_longInput 5 (by decide) (by decide)]
    decide
  refine ⟨by decide, ?_, ?_, ?_, .inl hb, ?_⟩
  · rw [length_longInput]
    decide
  · rw [byteAt_longInput 5 (by decide) (by decide)]
    decide
  · rw [byteAt_longInput 5 (by decide) (by decide)]
    decide
  · rw [hb, length_longInput]
    decide

/-- DC-5, DC-12, DC-8, DC-6, DC-10 and DC-1: each branch of DskChecks. -/
theorem witness_DskChecks :
    (longInput 5 [] 409599).input.length < 409600 ∧
    (409600 ≤ (longInput 5 (diskHeader 409600 0 0) 409600).input.length ∧
      byteAt (longInput 5 (diskHeader 409600 0 0) 409600).input 0x52 ≠ 1) ∧
    (byteAt (longInput 5 (diskHeader 409600 1 1) 409684).input 0x52 = 1 ∧
      byteAt (longInput 5 (diskHeader 409600 1 1) 409684).input 0x53 ≠ 0) ∧
    be32At (longInput 5 (diskHeader 512000 1 0) 409684).input 0x40 ∉ [409600, 819200, 1474560] ∧
    (longInput 5 (diskHeader 409600 1 0) 409600).input.length <
      0x54 + be32At (longInput 5 (diskHeader 409600 1 0) 409600).input 0x40 := by
  refine ⟨?_, ⟨?_, ?_⟩, ⟨?_, ?_⟩, ?_, ?_⟩
  · rw [length_longInput]
    decide
  · rw [length_longInput]
    decide
  · rw [byteAt_longInput 5 (by decide) (by decide)]
    decide
  · rw [byteAt_longInput 5 (by decide) (by decide)]
    decide
  · rw [byteAt_longInput 5 (by decide) (by decide)]
    decide
  · rw [be32At_longInput 5 (by decide) (by decide)]
    decide
  · rw [length_longInput, be32At_longInput 5 (by decide) (by decide)]
    decide

theorem byteAt_macData {b : Bytes} {i : Nat} (h : i < be32At b 0x53) : byteAt (macData b) i = byteAt b (0x80 + i) := by
  simp only [byteAt, macData, List.getD_eq_getElem?_getD]
  rw [List.getElem?_take_of_lt h, List.getElem?_drop]

/-- PL-3's header with its data fork of 409684 bytes, and the image's header. -/
def macImage : Bytes :=
  [0x00, 0x04, 0x44, 0x69, 0x73, 0x6B] ++ List.replicate 59 0 ++ [0x64, 0x49, 0x6D, 0x67, 0x64, 0x43, 0x70, 0x79] ++
    List.replicate 10 0 ++ be32Bytes 409684 ++ be32Bytes 0 ++ List.replicate 37 0 ++ diskHeader 409600 1 0

/-- PL-3: a MacBinary file whose data fork is a whole image. -/
theorem witness_MacbinDskDecodesImage :
    (longInput 7 macImage 409856).latchLen.toNat ≤ Params.default.inMemSize ∧
      MacFileOk Params.default (longInput 7 macImage 409856).input ∧
      DiskCopyOk (macData (longInput 7 macImage 409856).input) := by
  have hd : be32At (longInput 7 macImage 409856).input 0x53 = 409684 := by
    rw [be32At_longInput 7 (by decide +kernel) (by decide)]
    decide +kernel
  have hr : be32At (longInput 7 macImage 409856).input 0x57 = 0 := by
    rw [be32At_longInput 7 (by decide +kernel) (by decide)]
    decide +kernel
  have hl : (longInput 7 macImage 409856).input.length = 409856 := length_longInput 7 macImage 409856
  have hm : (macData (longInput 7 macImage 409856).input).length = 409684 := by
    simp only [macData, List.length_take, List.length_drop, hd, hl]
    decide
  have hb : ∀ i, i < 84 → byteAt (macData (longInput 7 macImage 409856).input) i = byteAt macImage (0x80 + i) := by
    intro i hi
    rw [byteAt_macData (by omega), byteAt_longInput 7]
    · show 0x80 + i < 212
      omega
    · show 0x80 + i < 409856
      omega
  have hi : be32At (macData (longInput 7 macImage 409856).input) 0x40 = 409600 := by
    unfold be32At
    rw [hb _ (by decide), hb _ (by decide), hb _ (by decide), hb _ (by decide)]
    decide +kernel
  refine ⟨by decide, ⟨⟨by omega, ?_, ?_, ?_, ?_, ?_, by omega, by omega⟩, ?_⟩, by omega, ?_, ?_, .inl hi, by omega⟩
  · rw [byteAt_longInput 7 (by decide +kernel) (by decide)]
    decide +kernel
  · rw [byteAt_longInput 7 (by decide +kernel) (by decide)]
    decide +kernel
  · rw [byteAt_longInput 7 (by decide +kernel) (by decide)]
    decide +kernel
  · rw [byteAt_longInput 7 (by decide +kernel) (by decide)]
    decide +kernel
  · rw [byteAt_longInput 7 (by decide +kernel) (by decide)]
    decide +kernel
  · rw [hd, hr, hl]
    decide
  · rw [hb _ (by decide)]
    decide +kernel
  · rw [hb _ (by decide)]
    decide +kernel

/-! ### A BinHex text that carries an image: its stream is written with literals alone -/

theorem tokenBytes_literals (bs : Bytes) : tokenBytes (bs.map .literal) = bs := by
  simp [tokenBytes, List.flatMap_map, RleToken.bytes]

theorem expandTokens_literals (bs : Bytes) : expandTokens (bs.map .literal) = bs := by
  have h : ∀ out : Bytes, (bs.map RleToken.literal).foldl RleToken.emitTo out = out ++ bs := by
    induction bs with
    | nil => simp
    | cons b bs ih => intro out; simp [RleToken.emitTo, ih]
  simpa [expandTokens] using h []

theorem tokensOk_literals {bs : Bytes} (h : (0x90 : Byte) ∉ bs) : TokensOk (bs.map .literal) := by
  refine ⟨?_, fun n => by cases bs <;> simp⟩
  intro t ht
  obtain ⟨b, hb, rfl⟩ := List.mem_map.mp ht
  exact fun he => h (he ▸ hb)

/-- Groups of zero values demodulate to zero bytes. -/
theorem demodulated_zeros (m : Nat) : demodulated (List.replicate (8 * m) 0) = List.replicate (6 * m) 0 := by
  induction m with
  | zero => rfl
  | succ m ih =>
    have h : List.replicate (8 * (m + 1)) 0 = List.replicate 8 0 ++ List.replicate (8 * m) 0 := by
      rw [List.replicate_append_replicate]
      congr 1
      omega
    have h6 : List.replicate (6 * (m + 1)) (0 : Byte) = List.replicate 6 0 ++ List.replicate (6 * m) 0 := by
      rw [List.replicate_append_replicate]
      congr 1
      omega
    have hg : groupBytes (BitVec.ofNat 48 (groupWord (List.replicate 8 0))) = List.replicate 6 0 := by decide +kernel
    rw [h, h6, demodulated_full _ (by simp), ih, hg]

/-- Whole groups demodulate apart from what follows them. -/
theorem demodulated_append (rest : List Nat) : ∀ (m : Nat) (us : List Nat), us.length = 8 * m →
    demodulated (us ++ rest) = demodulated us ++ demodulated rest := by
  intro m
  induction m with
  | zero =>
    intro us h
    have : us = [] := List.length_eq_zero_iff.mp (by omega)
    subst this
    rfl
  | succ m ih =>
    intro us h
    have h8 : (us.take 8).length = 8 := by
      rw [List.length_take]
      omega
    have hd : (us.drop 8).length = 8 * m := by
      rw [List.length_drop]
      omega
    have hs : us = us.take 8 ++ us.drop 8 := (List.take_append_drop 8 us).symm
    rw [hs, List.append_assoc, demodulated_full _ h8, ih _ hd, demodulated_full _ h8, List.append_assoc]

/-- The first 108 bytes of the stream: a record named "D" up to its data fork, the image's header and one byte
of its sectors. -/
def imageHead : Bytes :=
  [0x01, 0x44, 0x00, 0x64, 0x49, 0x6D, 0x67, 0x64, 0x43, 0x70, 0x79, 0x00, 0x00, 0x00, 0x06, 0x40, 0x54, 0x00, 0x00,
    0x00, 0x00, 0x00, 0x00] ++ diskHeader 409600 1 0 ++ [0x00]

/-- The six-bit text of imageHead. -/
def imageHeadText : Bytes :=
  [0x21, 0x38, 0x33, 0x21, 0x43, 0x25, 0x50, 0x59, 0x43, 0x66, 0x34, 0x24, 0x46, 0x28, 0x4E, 0x21, 0x21, 0x21,
   0x21, 0x27, 0x33, 0x26, 0x33, 0x21, 0x21, 0x21, 0x21, 0x21, 0x21, 0x21, 0x21, 0x21, 0x21, 0x21, 0x21, 0x21,
   0x21, 0x21, 0x21, 0x21, 0x21, 0x21, 0x21, 0x21, 0x21, 0x21, 0x21, 0x21, 0x21, 0x21, 0x21, 0x21, 0x21, 0x21,
   0x21, 0x21, 0x21, 0x21, 0x21, 0x21, 0x21, 0x21, 0x21, 0x21, 0x21, 0x21, 0x21, 0x21, 0x21, 0x21, 0x21, 0x21,
   0x21, 0x21, 0x21, 0x21, 0x21, 0x21, 0x21, 0x21, 0x21, 0x21, 0x21, 0x21, 0x21, 0x21, 0x21, 0x21, 0x21, 0x21,
   0x21, 0x21, 0x21, 0x21, 0x21, 0x21, 0x21, 0x21, 0x21, 0x21, 0x21, 0x21, 0x21, 0x21, 0x21, 0x21, 0x21, 0x21,
   0x21, 0x21, 0x21, 0x21, 0x21, 0x21, 0x21, 0x21, 0x21, 0x21, 0x43, 0x21, 0x21, 0x21, 0x21, 0x21, 0x21, 0x21,
   0x21, 0x21, 0x21, 0x21, 0x21, 0x21, 0x21, 0x21, 0x21, 0x21, 0x21, 0x21, 0x21, 0x21, 0x21, 0x33, 0x21, 0x21]

/-- The payload: imageHead's text, then m groups of the character for 0. -/
def imagePayload (m : Nat) : Bytes := imageHeadText ++ List.replicate (8 * m) 0x21

/-- The record, its image with z zero bytes. -/
def imageRecord (z : Nat) : BinhexFields where
  name := [0x44]
  t0 := 0x64
  t1 := 0x49
  t2 := 0x6D
  t3 := 0x67
  c0 := 0x64
  c1 := 0x43
  c2 := 0x70
  c3 := 0x79
  flags := 0
  hcrc := 0
  data := diskHeader 409600 1 0 ++ List.replicate z 0
  dcrc := 0
  rsrc := []
  rcrc := 0

/-- The text. -/
def imageText (m : Nat) : Bytes := [] ++ binhexSignature ++ [] ++ [0x3A] ++ imagePayload m ++ [0x3A] ++ []

theorem length_imageText (m : Nat) : (imageText m).length = 191 + 8 * m := by
  have h : imageHeadText.length = 144 := rfl
  have h2 : binhexSignature.length = 45 := rfl
  simp only [imageText, imagePayload, List.length_append, List.length_replicate, h, h2, List.length_nil,
    List.length_singleton]
  omega

theorem length_imageData (z : Nat) : (imageRecord z).data.length = 84 + z := by
  have h : (diskHeader 409600 1 0).length = 84 := rfl
  simp only [imageRecord, List.length_append, List.length_replicate, h]

theorem imageRecord_bytes {z m : Nat} (hz : z = 409600) (hm : z + 8 = 6 * m) :
    (imageRecord z).bytes ++ List.replicate 5 0 = imageHead ++ List.replicate (6 * m) 0 := by
  have hl : be32Bytes (BitVec.ofNat 32 (84 + z)) = [0x00, 0x06, 0x40, 0x54] := by
    rw [hz]
    decide
  have hb : (imageRecord z).bytes =
      [0x01, 0x44, 0x00, 0x64, 0x49, 0x6D, 0x67, 0x64, 0x43, 0x70, 0x79, 0x00, 0x00, 0x00, 0x06, 0x40, 0x54,
        0x00, 0x00, 0x00, 0x00, 0x00, 0x00] ++ (diskHeader 409600 1 0 ++ List.replicate z 0) ++ [0, 0] ++ [] ++
        [0, 0] := by
    have hA : ([BitVec.ofNat 8 ([0x44] : Bytes).length] ++ [0x44] ++ [0x00] ++ [0x64, 0x49, 0x6D, 0x67] ++
        [0x64, 0x43, 0x70, 0x79] ++ be16Bytes 0 ++ [0x00, 0x06, 0x40, 0x54] ++
        be32Bytes (BitVec.ofNat 32 ([] : Bytes).length) ++ be16Bytes 0 : Bytes) =
          [0x01, 0x44, 0x00, 0x64, 0x49, 0x6D, 0x67, 0x64, 0x43, 0x70, 0x79, 0x00, 0x00, 0x00, 0x06, 0x40, 0x54,
            0x00, 0x00, 0x00, 0x00, 0x00, 0x00] := by decide
    have h0 : be16Bytes 0 = [0, 0] := by decide
    unfold BinhexFields.bytes
    rw [length_imageData, hl]
    simp only [imageRecord]
    rw [hA, h0]
  obtain ⟨y, hy⟩ : ∃ y, z = 1 + y := ⟨z - 1, by omega⟩
  have h1 : List.replicate z (0 : Byte) = [0] ++ List.replicate y 0 := by
    rw [hy, List.replicate_add]
    rfl
  have h2 : List.replicate (6 * m) (0 : Byte) =
      List.replicate y 0 ++ ([0, 0] ++ ([0, 0] ++ List.replicate 5 0)) := by
    rw [← hm, hy, show 1 + y + 8 = y + 9 by omega, List.replicate_add]
    rfl
  rw [hb, h1, h2, imageHead]
  simp only [List.append_assoc, List.nil_append]

theorem textValues_bangs (k : Nat) : textValues Params.default (List.replicate k 0x21) = List.replicate k 0 := by
  unfold textValues
  rw [List.filter_replicate_of_pos (by decide), List.map_replicate]
  rfl

theorem imagePayload_values (m : Nat) :
    textValues Params.default (imagePayload m) =
      textValues Params.default imageHeadText ++ List.replicate (8 * m) 0 := by
  rw [← textValues_bangs, imagePayload]
  unfold textValues
  rw [List.filter_append, List.map_append]

theorem carries_image {z m : Nat} (hz : z = 409600) (hm : z + 8 = 6 * m) (op : BitVec 4) :
    CarriesRecord (withInput op (imageText m)) [] [] (imagePayload m) []
      ((imageHead ++ List.replicate (6 * m) 0).map .literal) (imageRecord z) (List.replicate 5 0) := by
  have no : ∀ c : Byte, c ∉ imageHeadText → c ≠ 0x21 → c ∉ imagePayload m := by
    intro c h1 h2 h
    rcases List.mem_append.mp h with h | h
    · exact h1 h
    · exact h2 (List.eq_of_mem_replicate h)
  refine ⟨⟨?_, fun j hj => absurd hj (Nat.not_lt_zero j), by decide, no _ (by decide +kernel) (by decide)⟩,
    ?_, ?_, ?_, ?_, ?_, ?_⟩
  · exact input_withInput op (by rw [length_imageText]; omega)
  · intro c hc
    right
    rcases List.mem_append.mp hc with hc | hc
    · exact (by decide +kernel : ∀ c ∈ imageHeadText, c ∈ Params.default.alphabet) c hc
    · rw [List.eq_of_mem_replicate hc]
      exact (by decide : (0x21 : Byte) ∈ Params.default.alphabet)
  · have hh : demodulated (textValues Params.default imageHeadText) = imageHead := by decide +kernel
    have h18 : (textValues Params.default imageHeadText).length = 8 * 18 := by decide +kernel
    rw [tokenBytes_literals]
    show demodulated (textValues Params.default (imagePayload m)) = _
    rw [imagePayload_values, demodulated_append _ 18 _ h18, demodulated_zeros, hh]
  · apply tokensOk_literals
    intro h
    rcases List.mem_append.mp h with h | h
    · exact absurd h (by decide +kernel)
    · exact absurd (List.eq_of_mem_replicate h) (by decide)
  · rw [expandTokens_literals, imageRecord_bytes hz hm]
  · have hl : imageHead.length = 108 := rfl
    rw [expandTokens_literals, List.length_append, List.length_replicate, hl]
    show 108 + 6 * m ≤ 0x400000
    omega
  · refine ⟨?_, fun _ => ⟨?_, ?_⟩, ?_, ?_⟩
    · show 1 ≤ 255
      decide
    · show 1 ≤ 1
      decide
    · show 1 ≤ 63
      decide
    · rw [length_imageData]
      omega
    · show 0 < 2 ^ 31
      decide

theorem imageRecord_ok {z : Nat} (hz : z = 409600) : DiskCopyOk (imageRecord z).data := by
  have hl := length_imageData z
  have hb : ∀ i, i < 84 → byteAt (imageRecord z).data i = byteAt (diskHeader 409600 1 0) i := by
    intro i hi
    simp only [byteAt, imageRecord, List.getD_eq_getElem?_getD]
    rw [List.getElem?_append_left hi]
  have hi : be32At (imageRecord z).data 0x40 = 409600 := by
    unfold be32At
    rw [hb _ (by decide), hb _ (by decide), hb _ (by decide), hb _ (by decide)]
    decide +kernel
  refine ⟨by omega, ?_, ?_, .inl hi, by omega⟩
  · rw [hb _ (by decide)]
    decide +kernel
  · rw [hb _ (by decide)]
    decide +kernel

theorem length_ok_image {m : Nat} (h : m ≤ 68268) (op : BitVec 4) :
    (withInput op (imageText m)).latchLen.toNat ≤ (withInput op (imageText m)).params.inMemSize := by
  show (BitVec.ofNat 32 (imageText m).length).toNat ≤ 0x400000
  rw [length_imageText, BitVec.toNat_ofNat]
  omega

/-- PL-1's kind: a text whose record's data fork is a whole image of 409600 zero bytes. -/
theorem witness_BinhexDskDecodesImage :
    (withInput 6 (imageText 68268)).latchLen.toNat ≤ (withInput 6 (imageText 68268)).params.inMemSize ∧
      CarriesRecord (withInput 6 (imageText 68268)) [] [] (imagePayload 68268) []
        ((imageHead ++ List.replicate (6 * 68268) 0).map .literal) (imageRecord 409600) (List.replicate 5 0) ∧
      DiskCopyOk (imageRecord 409600).data :=
  ⟨length_ok_image (by decide) 6, carries_image rfl (by decide) 6, imageRecord_ok rfl⟩

/-! ### Invariants: a BUSY state about to complete meets each of them -/

theorem witness_MemoriesStayCanonical :
    (withInput 2 [0x41, 0x90]).MemoriesCanonical ∧ ∃ t, step (withInput 2 [0x41, 0x90]) = .next t :=
  ⟨⟨wf_ofBytes _, wf_empty, wf_empty, wf_empty⟩, _, rfl⟩

theorem witness_BusyRegistersStayClear :
    (withInput 2 [0x41, 0x90]).BusyClear ∧ ∃ t, step (withInput 2 [0x41, 0x90]) = .next t :=
  ⟨fun _ => ⟨rfl, rfl, rfl⟩, _, rfl⟩

theorem witness_ErrorsExcludeResults :
    (withInput 2 [0x41, 0x90]).BusyClear ∧ (withInput 2 [0x41, 0x90]).ErrorExcludesResult ∧
      (withInput 2 [0x41, 0x90]).err.Named ∧ ∃ t, step (withInput 2 [0x41, 0x90]) = .next t :=
  ⟨fun _ => ⟨rfl, rfl, rfl⟩, ⟨fun _ => rfl, fun _ => rfl⟩, by unfold ErrRegs.Named; decide, _, rfl⟩

theorem witness_CompletionsStayReported :
    (withInput 2 [0x41]).BusyClear ∧ (withInput 2 [0x41]).CompletionReported ∧
      ∃ t, step (withInput 2 [0x41]) = .next t :=
  ⟨fun _ => ⟨rfl, rfl, rfl⟩, fun h => absurd h Bool.false_ne_true, _, rfl⟩

theorem witness_ResultRegistersStayShaped :
    (withInput 3 t1).BusyClear ∧ (withInput 3 t1).res.Shaped ∧ ∃ t, step (withInput 3 t1) = .next t :=
  ⟨fun _ => ⟨rfl, rfl, rfl⟩, by unfold ResultRegs.Shaped; decide, _, rfl⟩

theorem witness_OutputStaysWithinMemory :
    (withInput 2 [0x41, 0x90]).params.Legal ∧ (withInput 2 [0x41, 0x90]).WithinMemories ∧
      ∃ t, step (withInput 2 [0x41, 0x90]) = .next t :=
  ⟨default_legal, by unfold State.WithinMemories; decide, _, rfl⟩

/-- A host write of a byte that holds 1 to 2. -/
theorem witness_InMemChangesOnlyByIdleHostWrite :
    ∃ t, step { queued [.host (.w8 0x1000000 2)] with inMem := Memory.ofBytes [1] } = .next t ∧
      t.inByte 0 ≠ State.inByte { queued [.host (.w8 0x1000000 2)] with inMem := Memory.ofBytes [1] } 0 :=
  ⟨_, rfl, by decide +kernel⟩

/-- A START that latches CMD = 3. -/
theorem witness_LatchesChangeOnlyAtStartOrReset :
    ∃ t, step { queued [.host (.w32 0x14 1)] with cmdOp := 3 } = .next t ∧
      (t.latchOp ≠ State.latchOp { queued [.host (.w32 0x14 1)] with cmdOp := 3 } ∨
        t.latchLen ≠ State.latchLen { queued [.host (.w32 0x14 1)] with cmdOp := 3 }) :=
  ⟨_, rfl, .inl (by decide +kernel)⟩

/-- Two BUSY states that differ in CMD, IN_LEN, the flags and a byte of IN_MEM beyond the input. -/
theorem witness_OutcomeDependsOnInputAlone :
    (withInput 2 [0x41]).params =
        State.params { withInput 2 [0x41] with cmdOp := 9, inLen := 7, wrBusy := true, inMem := Memory.ofBytes [0x41, 5] } ∧
      (∀ k < (withInput 2 [0x41]).latchLen.toNat, (withInput 2 [0x41]).inByte k =
        State.inByte
          { withInput 2 [0x41] with cmdOp := 9, inLen := 7, wrBusy := true, inMem := Memory.ofBytes [0x41, 5] } k) ∧
      (withInput 2 [0x41]).BusyClear ∧
      (∃ t, exec (decodeOp 2) (withInput 2 [0x41]) = .next t) ∧
      ∃ t, exec (decodeOp 2)
        { withInput 2 [0x41] with cmdOp := 9, inLen := 7, wrBusy := true, inMem := Memory.ofBytes [0x41, 5] } =
          .next t := by
  refine ⟨rfl, ?_, fun _ => ⟨rfl, rfl, rfl⟩, ⟨_, rfl⟩, _, rfl⟩
  intro k hk
  have : k = 0 := by
    have h1 : (withInput 2 [0x41]).latchLen.toNat = 1 := rfl
    omega
  subst this
  decide +kernel

end Sys2Proof.Tests
end

section
/-! The host's turn at the register block (20_memory.md R81, R82, 10_state.md section 3): a step whose event is a
host transaction, the registers' addresses, and what an aligned word read or write of REG does. -/

namespace Sys2Proof.Machine

open Sys2Proof

/-! ## The event taken off the agenda -/

theorem advance_of_agenda {s : State} {e : Event} {rest : List Event} (h : s.agenda = e :: rest) :
    s.advance = { s with agenda := rest } := by
  simp only [State.advance, h, List.tail_cons]

/-- A transaction that is a row of the table runs through exec. -/
theorem step_of_busOperation {s : State} {x : HostAccess} {i : Instr} {rest : List Event}
    (h : s.agenda = .host x :: rest) (hx : busOperation x = some i) :
    step s = exec i { s with agenda := rest } := by
  simp only [step, State.action, h, hx, advance_of_agenda h]

/-- Every other transaction is an ordinary host access. -/
theorem step_of_access {s : State} {x : HostAccess} {rest : List Event}
    (h : s.agenda = .host x :: rest) (hx : busOperation x = none) :
    step s = .next (hostAccess x { s with agenda := rest }) := by
  simp only [step, State.action, h, hx, advance_of_agenda h]

/-! ## Register addresses -/

theorem region_reg (p : Params) {a : Nat} (h : a < 0x100) : region p a = .reg a := if_pos h

theorem legalAccess_word_reg (p : Params) {a : Nat} (h : a < 0x100) (h4 : a % 4 = 0) :
    legalAccess p .word a = true := by
  simp [legalAccess, region_reg p h, alignedFor, h4]

/-- The named registers stand at aligned offsets below the reserved ones (10_state.md R16). -/
theorem regAt_some {a : Nat} {r : RegName} (h : regAt a = some r) : a < 0x60 ∧ a % 4 = 0 := by
  unfold regAt at h
  split at h <;> simp at h ⊢

/-- No register is named from 0x060 on (10_state.md R33). -/
theorem regAt_reserved {a : Nat} (h : 0x60 ≤ a) : regAt a = none := by
  cases hr : regAt a with
  | none => rfl
  | some r =>
    obtain ⟨hlt, -⟩ := regAt_some hr
    omega

/-! ## Word accesses of the register block -/

/-- A register's value does not depend on what the agents do next. -/
@[simp] theorem readReg_agenda (r : RegName) (s : State) (es : List Event) :
    readReg r { s with agenda := es } = readReg r s := by
  cases r <;> rfl

/-- An aligned word read of REG changes the read data alone (20_memory.md R94). -/
theorem hostAccess_r32_reg (s : State) {a : Word} (h : a.toNat < 0x100) (h4 : a.toNat % 4 = 0) :
    hostAccess (.r32 a) s = { s with readData := busValue s .word a.toNat } := by
  simp only [hostAccess, legalAccess_word_reg s.params h h4, if_true, busRead, region_reg s.params h]

theorem hostAccess_w32_reg (s : State) {a v : Word} (h : a.toNat < 0x100) (h4 : a.toNat % 4 = 0) :
    hostAccess (.w32 a v) s = busWrite a.toNat (laneBytes v) v s := by
  simp only [hostAccess, legalAccess_word_reg s.params h h4, if_true]

theorem busValue_register (s : State) (w : Width) {a : Nat} {r : RegName} (h : regAt a = some r) :
    busValue s w a = readReg r s := by
  obtain ⟨hlt, -⟩ := regAt_some h
  simp only [busValue, region_reg s.params (show a < 0x100 by omega), h]

theorem busValue_reserved (s : State) (w : Width) {a : Nat} (h : 0x60 ≤ a) (hlt : a < 0x100) :
    busValue s w a = 0 := by
  simp only [busValue, region_reg s.params hlt, regAt_reserved h]

theorem busWrite_register (s : State) (bs : Bytes) (v : Word) {a : Nat} {r : RegName} (h : regAt a = some r) :
    busWrite a bs v s = writeReg r v s := by
  obtain ⟨hlt, -⟩ := regAt_some h
  simp only [busWrite, region_reg s.params (show a < 0x100 by omega), h]

theorem busWrite_reserved (s : State) (bs : Bytes) (v : Word) {a : Nat} (h : 0x60 ≤ a) (hlt : a < 0x100) :
    busWrite a bs v s = s := by
  simp only [busWrite, region_reg s.params hlt, regAt_reserved h]

/-! ## Steps at a register -/

/-- A step that reads a named register returns its value and changes nothing else. -/
theorem step_read_register {s : State} {a : Word} {r : RegName} {rest : List Event}
    (h : s.agenda = .host (.r32 a) :: rest) (hr : regAt a.toNat = some r) :
    step s = .next { s with agenda := rest, readData := readReg r s } := by
  obtain ⟨hlt, h4⟩ := regAt_some hr
  rw [step_of_access h rfl, hostAccess_r32_reg _ (by omega) h4, busValue_register _ _ hr, readReg_agenda]

/-- A register write that is a row of the table does what the register does with the written word. -/
theorem exec_busOperation_w32 {a v : Word} {r : RegName} {i : Instr} (hr : regAt a.toNat = some r)
    (h : busOperation (.w32 a v) = some i) (s : State) : exec i s = .next (writeReg r v s) := by
  simp only [busOperation, hr] at h
  cases r with
  | ctrl =>
    simp only [decode, decodeCtrl] at h
    simp only [writeReg, writeCtrl]
    split_ifs at h ⊢ <;> cases h <;> rfl
  | status => cases h; rfl
  | _ => cases h

/-- A step that writes a named register, on either path (30_encoding.md R114). -/
theorem step_write_register {s : State} {a v : Word} {r : RegName} {rest : List Event}
    (h : s.agenda = .host (.w32 a v) :: rest) (hr : regAt a.toNat = some r) :
    step s = .next (writeReg r v { s with agenda := rest }) := by
  cases hx : busOperation (.w32 a v) with
  | some i => rw [step_of_busOperation h hx, exec_busOperation_w32 hr hx]
  | none =>
    obtain ⟨hlt, h4⟩ := regAt_some hr
    rw [step_of_access h hx, hostAccess_w32_reg _ (by omega) h4, busWrite_register _ _ _ hr]

/-! ## CTRL -/

/-- CTRL reads IE in bit 1 and 0 elsewhere (10_state.md R19). -/
theorem getLsbD_ctrlWord (s : State) (k : Nat) : s.ctrlWord.getLsbD k = (decide (k = 1) && s.ie) := by
  unfold State.ctrlWord
  rw [BitVec.getLsbD_setWidth, BitVec.getLsbD_append]
  match k with
  | 0 => simp
  | 1 => simp
  | k + 2 => simp

theorem writeCtrl_srst {v : Word} (h2 : v.getLsbD 2 = true) (s : State) : writeCtrl v s = softReset s := by
  simp only [writeCtrl, h2, if_true]

theorem writeCtrl_start {v : Word} (h2 : v.getLsbD 2 = false) (h0 : v.getLsbD 0 = true) (s : State) :
    writeCtrl v s = startCommand (v.getLsbD 1) s := by
  simp only [writeCtrl, h2, h0, if_true, Bool.false_eq_true, if_false]

theorem writeCtrl_ie {v : Word} (h2 : v.getLsbD 2 = false) (h0 : v.getLsbD 0 = false) (s : State) :
    writeCtrl v s = { s with ie := v.getLsbD 1 } := by
  simp only [writeCtrl, h2, h0, Bool.false_eq_true, if_false]

/-- A step that writes CTRL, at 0x14 (10_state.md R16). -/
theorem step_write_ctrl {s : State} {v : Word} {rest : List Event} (h : s.agenda = .host (.w32 0x14 v) :: rest) :
    step s = .next (writeCtrl v { s with agenda := rest }) :=
  step_write_register (r := .ctrl) h rfl

/-- Settles O13: the three cases of a CTRL write, SRST before START before IE alone. -/
theorem ctrlRegister : Obligations.CtrlRegister := by
  refine ⟨fun s v rest h => ⟨fun h2 => ?srst, fun h2 h0 => ?start, fun h2 h0 => ?ieAlone⟩,
    getLsbD_ctrlWord, by decide, fun _ => rfl⟩
  case srst => rw [step_write_ctrl h, writeCtrl_srst h2]; rfl
  case start =>
    have hs : step s = .next (startCommand (v.getLsbD 1) { s with agenda := rest }) := by
      rw [step_write_ctrl h, writeCtrl_start h2 h0]
    exact ⟨hs, _, hs, startCommand_ie _ _⟩
  case ieAlone => rw [step_write_ctrl h, writeCtrl_ie h2 h0]

/-! ## The reserved offsets and the constants -/

/-- Settles O22: from 0x060 to 0x0FC REG has no register, so a word access there is legal and empty. -/
theorem reservedRegistersRazWi : Obligations.ReservedRegistersRazWi := by
  intro s a rest hlo hhi h4
  have hlt : a.toNat < 0x100 := by omega
  refine ⟨fun h => ?read, fun v h => ?write⟩
  case read => rw [step_of_access h rfl, hostAccess_r32_reg _ hlt h4, busValue_reserved _ _ hlo hlt]
  case write =>
    have hx : busOperation (.w32 a v) = none := by simp only [busOperation, regAt_reserved hlo]
    rw [step_of_access h hx, hostAccess_w32_reg _ hlt h4, busWrite_reserved _ _ _ hlo hlt]

/-- Settles O23: each listed address names a register that reads the listed constant and keeps no write. -/
theorem constantRegisters : Obligations.ConstantRegisters := by
  intro s a c rest hac
  have hconst : ∃ r, regAt a.toNat = some r ∧ readReg r s = c ∧ ∀ v t, writeReg r v t = t := by
    simp only [List.mem_cons, List.not_mem_nil, or_false, Prod.mk.injEq] at hac
    obtain ⟨rfl, rfl⟩ | ⟨rfl, rfl⟩ | ⟨rfl, rfl⟩ | ⟨rfl, rfl⟩ | ⟨rfl, rfl⟩ := hac
    · exact ⟨.id, rfl, rfl, fun _ _ => rfl⟩
    · exact ⟨.version, rfl, rfl, fun _ _ => rfl⟩
    · exact ⟨.capIn, rfl, rfl, fun _ _ => rfl⟩
    · exact ⟨.capOut, rfl, rfl, fun _ _ => rfl⟩
    · exact ⟨.capXs, rfl, rfl, fun _ _ => rfl⟩
  obtain ⟨r, hr, hread, hwrite⟩ := hconst
  refine ⟨fun h => ?read, fun v h => ?write⟩
  case read => rw [step_read_register h hr, hread]
  case write => rw [step_write_register h hr, hwrite]

end Sys2Proof.Machine
end

section
/-! The host's turn at the windows and the memories (20_memory.md R81 to R87): every transaction as one host access,
the legal accesses region by region, what an illegal one does, and what the byte regions read and keep. -/

namespace Sys2Proof.Machine

open Sys2Proof

/-! ## Every transaction is a host access -/

/-- A table operation (30_encoding.md R114) does what its bus access does, so a step at any transaction is the
access. -/
theorem step_of_host {s : State} {x : HostAccess} {rest : List Event} (h : s.agenda = .host x :: rest) :
    step s = .next (hostAccess x { s with agenda := rest }) := by
  cases x with
  | w32 a v =>
    cases hr : regAt a.toNat with
    | none => exact step_of_access h (by simp only [busOperation, hr])
    | some r =>
      obtain ⟨hlt, h4⟩ := regAt_some hr
      rw [step_write_register h hr, hostAccess_w32_reg _ (by omega) h4, busWrite_register _ _ _ hr]
  | _ => exact step_of_access h rfl

/-! ## The address map and the legal accesses -/

/-- What lies at a host address (20_memory.md R81). -/
theorem region_cases (p : Params) (a : Nat) :
    (a < 0x100 ∧ region p a = .reg a) ∨ (0x100 ≤ a ∧ a < 0x200) ∨
      (∃ k, a = 0x1000000 + k ∧ k < p.inMemSize ∧ region p a = .inMem k) ∨
      (∃ k, a = 0x2000000 + k ∧ k < p.outMemSize ∧ region p a = .outMem k) ∨ region p a = .unmapped := by
  by_cases hreg : a < 0x100
  · exact .inl ⟨hreg, region_reg p hreg⟩
  by_cases hwin : a < 0x200
  · exact .inr (.inl ⟨by omega, hwin⟩)
  by_cases hin : inBase ≤ a ∧ a < inBase + p.inMemSize
  · have ha : a = 0x1000000 + (a - inBase) := by unfold inBase at *; omega
    have hk : a - inBase < p.inMemSize := by omega
    exact .inr (.inr (.inl ⟨_, ha, hk, region_inMem ha hk⟩))
  have hrest : region p a =
      if outBase ≤ a ∧ a < outBase + p.outMemSize then .outMem (a - outBase) else .unmapped := by
    unfold region
    rw [if_neg hreg, if_neg (by omega), if_neg (by omega), if_neg hwin, if_neg hin]
  by_cases hout : outBase ≤ a ∧ a < outBase + p.outMemSize
  · have ha : a = 0x2000000 + (a - outBase) := by unfold outBase at *; omega
    exact .inr (.inr (.inr (.inl ⟨_, ha, by omega, hrest.trans (if_pos hout)⟩)))
  · exact .inr (.inr (.inr (.inr (hrest.trans (if_neg hout)))))

/-- From 0x100 on no address is in REG (20_memory.md R81). -/
theorem region_ne_reg (p : Params) {a : Nat} (h : 0x100 ≤ a) (off : Nat) : region p a ≠ .reg off := by
  unfold region
  rw [if_neg (by omega)]
  split_ifs <;> exact Region.noConfusion

/-- Below 0x200 no address is in OUT (20_memory.md R81). -/
theorem region_window_ne_outMem (p : Params) {a : Nat} (h1 : 0x100 ≤ a) (h2 : a < 0x200) (k : Nat) :
    region p a ≠ .outMem k := by
  rcases region_window p h1 h2 with ⟨_, hr⟩ | ⟨_, _, hr⟩ | ⟨_, hr⟩ <;> simp [hr]

/-- Only a word needs alignment (20_memory.md R92). -/
theorem alignedFor_iff (w : Width) (a : Nat) : alignedFor w a = true ↔ w = .byte ∨ a % 4 = 0 := by
  cases w <;> simp [alignedFor]

theorem legalAccess_reg (p : Params) (w : Width) {a : Nat} (h : a < 0x100) :
    legalAccess p w a = true ↔ w = .word ∧ a % 4 = 0 := by
  cases w <;> simp [legalAccess, region_reg p h, alignedFor]

theorem legalAccess_window (p : Params) (w : Width) {a : Nat} (h1 : 0x100 ≤ a) (h2 : a < 0x200) :
    legalAccess p w a = true ↔ w = .byte ∨ a % 4 = 0 := by
  rcases region_window p h1 h2 with ⟨_, hr⟩ | ⟨_, _, hr⟩ | ⟨_, hr⟩ <;>
    simp only [legalAccess, hr, alignedFor_iff]

theorem legalAccess_inMem {p : Params} {a k : Nat} (h : region p a = .inMem k) (w : Width) :
    legalAccess p w a = true ↔ w = .byte ∨ (a % 4 = 0 ∧ k + 4 ≤ p.inMemSize) := by
  cases w <;> simp [legalAccess, h, alignedFor]

theorem legalAccess_outMem {p : Params} {a k : Nat} (h : region p a = .outMem k) (w : Width) :
    legalAccess p w a = true ↔ w = .byte ∨ (a % 4 = 0 ∧ k + 4 ≤ p.outMemSize) := by
  cases w <;> simp [legalAccess, h, alignedFor]

/-- The model allows no access that the table of 20_memory.md R81, R82 does not. -/
theorem specLegal_of_legalAccess {p : Params} {w : Width} {a : Nat} (h : legalAccess p w a = true) :
    SpecLegal p w a := by
  unfold SpecLegal
  rcases region_cases p a with ⟨hlt, -⟩ | ⟨hlo, hhi⟩ | ⟨k, ha, hk, hr⟩ | ⟨k, ha, hk, hr⟩ | hr
  · obtain ⟨hw, h4⟩ := (legalAccess_reg p w hlt).mp h
    exact .inl ⟨hlt, hw, h4⟩
  · exact .inr (.inl ⟨hlo, hhi, (legalAccess_window p w hlo hhi).mp h⟩)
  · cases w with
    | byte => exact .inr (.inr (.inl ⟨by omega, rfl, by omega⟩))
    | word =>
      obtain ⟨h4, hfit⟩ := ((legalAccess_inMem hr .word).mp h).resolve_left Width.noConfusion
      exact .inr (.inr (.inr (.inl ⟨by omega, rfl, h4, by omega⟩)))
  · cases w with
    | byte => exact .inr (.inr (.inr (.inr (.inl ⟨by omega, rfl, by omega⟩))))
    | word =>
      obtain ⟨h4, hfit⟩ := ((legalAccess_outMem hr .word).mp h).resolve_left Width.noConfusion
      exact .inr (.inr (.inr (.inr (.inr ⟨by omega, rfl, h4, by omega⟩))))
  · simp only [legalAccess, hr, Bool.false_eq_true] at h

/-- The windows ignore writes (20_memory.md R82). -/
theorem busWrite_window (s : State) (bs : Bytes) (v : Word) {a : Nat} (h1 : 0x100 ≤ a) (h2 : a < 0x200) :
    busWrite a bs v s = s := by
  rcases region_window s.params h1 h2 with ⟨_, hr⟩ | ⟨_, _, hr⟩ | ⟨_, hr⟩ <;> simp only [busWrite, hr]

/-! ## Illegal accesses and ACC_ERR -/

theorem hostAccess_of_illegal {x : HostAccess} {s : State}
    (h : legalAccess s.params (hostWidth x) (hostAddr x) = false) :
    hostAccess x s = illegalAccess (isHostRead x) s := by
  cases x <;> simp only [hostWidth, hostAddr] at h <;>
    simp only [hostAccess, h, Bool.false_eq_true, if_false, isHostRead]

/-- A drop sets WR_BUSY and not ACC_ERR, so it keeps what the write keeps (70_reset_and_hazards.md R346). -/
theorem unlessBusy_accErr {write : State → State} {s : State} (h : (write s).accErr = s.accErr) :
    (unlessBusy write s).accErr = s.accErr := by
  unfold unlessBusy
  split
  · rfl
  · exact h

/-- A register write takes ACC_ERR from 1 to 0 only as STATUS.W1C or CTRL.SRST (10_state.md R19, R21). -/
theorem writeReg_clears_accErr {r : RegName} {v : Word} {s : State}
    (h0 : (writeReg r v s).accErr = false) (h1 : s.accErr = true) :
    (r = .status ∧ v.getLsbD 3 = true) ∨ (r = .ctrl ∧ v.getLsbD 2 = true) := by
  cases r with
  | status =>
    simp only [writeReg, clearStatus_accErr, h1, Bool.true_and, Bool.not_eq_false'] at h0
    exact .inl ⟨rfl, h0⟩
  | ctrl =>
    simp only [writeReg, writeCtrl] at h0
    split_ifs at h0 with h2
    · exact .inr ⟨rfl, h2⟩
    · rw [startCommand_accErr, h1] at h0
      cases h0
    · exact absurd (h1.symm.trans h0) Bool.noConfusion
  | cmd | inLen =>
    rw [writeReg, unlessBusy_accErr rfl, h1] at h0
    cases h0
  | _ => exact absurd (h1.symm.trans h0) Bool.noConfusion

/-- A write outside the named registers leaves ACC_ERR. -/
theorem busWrite_accErr (s : State) (bs : Bytes) (v : Word) {a : Nat} (h : regAt a = none) :
    (busWrite a bs v s).accErr = s.accErr := by
  rcases region_cases s.params a with ⟨-, hr⟩ | ⟨hlo, hhi⟩ | ⟨k, -, -, hr⟩ | ⟨k, -, -, hr⟩ | hr
  · simp only [busWrite, hr, h]
  · rw [busWrite_window s bs v hlo hhi]
  · simp only [busWrite, hr]
    exact unlessBusy_accErr rfl
  · simp only [busWrite, hr]
  · simp only [busWrite, hr]

/-- A legal byte access is at no named register (20_memory.md R82). -/
theorem regAt_of_legal_byte {p : Params} {a : Nat} (h : legalAccess p .byte a = true) : regAt a = none := by
  refine regAt_reserved (Nat.le_of_not_lt fun hlt => ?_)
  exact absurd ((legalAccess_reg p .byte (by omega)).mp h).1 Width.noConfusion

/-- A host access takes ACC_ERR from 1 to 0 only as a write of a register that does. -/
theorem hostAccess_clears_accErr {x : HostAccess} {s : State} (h0 : (hostAccess x s).accErr = false)
    (h1 : s.accErr = true) :
    ∃ a v r, x = .w32 a v ∧ regAt a.toNat = some r ∧ (writeReg r v s).accErr = false := by
  have kept : ∀ {t : State}, t.accErr = s.accErr → t.accErr ≠ false := fun h => by simp [h, h1]
  cases hl : legalAccess s.params (hostWidth x) (hostAddr x) with
  | false =>
    rw [hostAccess_of_illegal hl, illegalAccess_accErr] at h0
    cases h0
  | true =>
    cases x with
    | w32 a v =>
      simp only [hostWidth, hostAddr] at hl
      simp only [hostAccess, hl, if_true] at h0
      cases hr : regAt a.toNat with
      | none => exact absurd h0 (kept (busWrite_accErr _ _ _ hr))
      | some r => exact ⟨a, v, r, rfl, hr, busWrite_register s _ v hr ▸ h0⟩
    | w8 a v =>
      simp only [hostWidth, hostAddr] at hl
      simp only [hostAccess, hl, if_true] at h0
      exact absurd h0 (kept (busWrite_accErr _ _ _ (regAt_of_legal_byte hl)))
    | r8 a | r32 a =>
      simp only [hostWidth, hostAddr] at hl
      simp only [hostAccess, hl, if_true] at h0
      exact absurd h0 (kept rfl)

/-- CTRL and STATUS stand at 0x14 and 0x20 alone (10_state.md R16). -/
theorem regAt_eq_status {a : Word} (h : regAt a.toNat = some .status) : a = 0x20 := by
  apply BitVec.eq_of_toNat_eq
  unfold regAt at h
  split at h <;> simp_all

theorem regAt_eq_ctrl {a : Word} (h : regAt a.toNat = some .ctrl) : a = 0x14 := by
  apply BitVec.eq_of_toNat_eq
  unfold regAt at h
  split at h <;> simp_all

/-- Settles O18: the illegal access by its one equation, and ACC_ERR's fall by the cases of a step. -/
theorem illegalAccessOnlySetsAccErr : Obligations.IllegalAccessOnlySetsAccErr := by
  refine ⟨fun s x rest _ h hspec => ?illegal, fun s t hstep h1 h0 => ?sticky⟩
  case illegal =>
    have hl : legalAccess s.params (hostWidth x) (hostAddr x) = false :=
      Bool.eq_false_iff.mpr fun hl => hspec (specLegal_of_legalAccess hl)
    exact (step_of_host h).trans (congrArg _ (hostAccess_of_illegal (s := { s with agenda := rest }) hl))
  case sticky =>
    rcases step_cases hstep with ⟨-, -, hexec⟩ | ⟨-, -, rfl⟩ | ⟨hhead, -⟩ | ⟨⟨x, hhead⟩, -⟩
    · obtain ⟨o, u, hend, hu⟩ := exec_decodeOp s.latchOp s.advance
      have ht : complete o u = t := by rw [hu] at hexec; exact Host.Outcome.next.inj hexec
      have hkeep : u.accErr = s.advance.accErr := by rw [hend.frame]
      rw [← ht, complete_accErr, hkeep, advance_accErr, h1] at h0
      cases h0
    · rw [advance_accErr, h1] at h0
      cases h0
    · exact .inl hhead
    · obtain ⟨rest, hag⟩ := List.head?_eq_some_iff.mp hhead
      rw [step_of_host hag] at hstep
      cases hstep
      obtain ⟨a, v, r, rfl, hr, hw⟩ := hostAccess_clears_accErr h0 h1
      rcases writeReg_clears_accErr hw h1 with ⟨rfl, h3⟩ | ⟨rfl, h2⟩
      · exact .inr (.inl ⟨v, regAt_eq_status hr ▸ hhead, h3⟩)
      · exact .inr (.inr ⟨v, regAt_eq_ctrl hr ▸ hhead, h2⟩)

/-! ## Byte regions: the rules -/

/-- What a byte reads as does not depend on what the agents do next. -/
@[simp] theorem byteSeen_agenda (s : State) (es : List Event) (a : Nat) :
    byteSeen { s with agenda := es } a = byteSeen s a := rfl

theorem busValue_byte (s : State) {a : Nat} (h : 0x100 ≤ a) :
    busValue s .byte a = (byteSeen s a).setWidth 32 := by
  unfold busValue
  split
  · exact absurd ‹_› (region_ne_reg _ h _)
  · rfl

theorem busValue_word (s : State) {a : Nat} (h : 0x100 ≤ a) :
    busValue s .word a =
      lanes (byteSeen s a) (byteSeen s (a + 1)) (byteSeen s (a + 2)) (byteSeen s (a + 3)) := by
  unfold busValue
  split
  · exact absurd ‹_› (region_ne_reg _ h _)
  · rfl

/-- A read changes the read data alone, but in OUT (20_memory.md R94). -/
theorem busRead_of_ne_outMem {s : State} {a : Nat} (h : ∀ k, region s.params a ≠ .outMem k) (w : Width) :
    busRead w a s = { s with readData := busValue s w a } := by
  unfold busRead
  split
  · exact absurd ‹_› (h _)
  · rfl

theorem step_read_byte {s : State} {a : Word} {rest : List Event} (h : s.agenda = .host (.r8 a) :: rest)
    (ha : 0x100 ≤ a.toNat) (hl : legalAccess s.params .byte a.toNat = true)
    (hout : ∀ k, region s.params a.toNat ≠ .outMem k) :
    step s = .next { s with agenda := rest, readData := (byteSeen s a.toNat).setWidth 32 } := by
  simp only [step_of_host h, hostAccess, hl, if_true,
    busRead_of_ne_outMem (s := { s with agenda := rest }) hout, busValue_byte _ ha, byteSeen_agenda]

theorem step_read_word {s : State} {a : Word} {rest : List Event} (h : s.agenda = .host (.r32 a) :: rest)
    (ha : 0x100 ≤ a.toNat) (hl : legalAccess s.params .word a.toNat = true)
    (hout : ∀ k, region s.params a.toNat ≠ .outMem k) :
    step s = .next { s with
      agenda := rest
      readData := lanes (byteSeen s a.toNat) (byteSeen s (a.toNat + 1)) (byteSeen s (a.toNat + 2))
        (byteSeen s (a.toNat + 3)) } := by
  simp only [step_of_host h, hostAccess, hl, if_true,
    busRead_of_ne_outMem (s := { s with agenda := rest }) hout, busValue_word _ ha, byteSeen_agenda]

theorem step_write_byte {s : State} {a : Word} {v : Byte} {rest : List Event}
    (h : s.agenda = .host (.w8 a v) :: rest) (hl : legalAccess s.params .byte a.toNat = true) :
    step s = .next (busWrite a.toNat [v] (v.setWidth 32) { s with agenda := rest }) := by
  simp only [step_of_host h, hostAccess, hl, if_true]

theorem step_write_word {s : State} {a v : Word} {rest : List Event}
    (h : s.agenda = .host (.w32 a v) :: rest) (hl : legalAccess s.params .word a.toNat = true) :
    step s = .next (busWrite a.toNat (laneBytes v) v { s with agenda := rest }) := by
  simp only [step_of_host h, hostAccess, hl, if_true]

/-! ## The windows -/

/-- NAME, HDR and the reserved window hold their bytes (20_memory.md R87). -/
theorem byteSeen_name (s : State) (i : Fin 64) : byteSeen s (0x100 + i.val) = s.res.name[i.val] := by
  have hr : region s.params (0x100 + i.val) = .nameWin i.val := by
    rw [region, if_neg (by omega), if_pos (by omega), Nat.add_sub_cancel_left]
  simp [byteSeen, hr]

theorem byteSeen_hdr (s : State) (i : Fin 84) : byteSeen s (0x140 + i.val) = s.res.hdr[i.val] := by
  have hr : region s.params (0x140 + i.val) = .hdrWin i.val := by
    rw [region, if_neg (by omega), if_neg (by omega), if_pos (by omega), Nat.add_sub_cancel_left]
  simp [byteSeen, hr]

theorem byteSeen_reservedWin (s : State) {a : Nat} (h1 : 0x194 ≤ a) (h2 : a < 0x200) : byteSeen s a = 0 := by
  have hr : region s.params a = .reservedWin := by
    rw [region, if_neg (by omega), if_neg (by omega), if_neg (by omega), if_pos h2]
  simp only [byteSeen, hr]

/-- Settles O21: the windows' bytes, and an access there by the rules of the byte regions. -/
theorem windowHostAccess : Obligations.WindowHostAccess := by
  intro s a rest hlo hhi
  have hout := region_window_ne_outMem s.params hlo hhi
  have hbyte : legalAccess s.params .byte a.toNat = true := (legalAccess_window _ _ hlo hhi).mpr (.inl rfl)
  have hword (h4 : a.toNat % 4 = 0) : legalAccess s.params .word a.toNat = true :=
    (legalAccess_window _ _ hlo hhi).mpr (.inr h4)
  refine ⟨byteSeen_name s, byteSeen_hdr s, fun o h1 h2 => byteSeen_reservedWin s h1 h2,
    fun h => step_read_byte h hlo hbyte hout,
    fun h h4 => ⟨_, step_read_word h hlo (hword h4) hout, rfl, toNat_lanes _ _ _ _⟩,
    fun v h => ?writeByte, fun v h h4 => ?writeWord⟩
  case writeByte => rw [step_write_byte h hbyte, busWrite_window _ _ _ hlo hhi]
  case writeWord => rw [step_write_word h (hword h4), busWrite_window _ _ _ hlo hhi]

/-! ## IN_MEM -/

theorem byteSeen_inMem (s : State) {a k : Nat} (ha : a = 0x1000000 + k) (hk : k < s.params.inMemSize) :
    byteSeen s a = s.inByte k := by
  simp only [byteSeen, region_inMem ha hk]

/-- IN_MEM after a write: the written bytes from offset k upward, every other byte as before. -/
theorem inByte_writeBytes (s : State) (k : Nat) (bs : Bytes) (es : List Event) (j : Nat) :
    State.inByte { s with agenda := es, inMem := s.inMem.writeBytes k bs } j =
      if k ≤ j ∧ j < k + bs.length then bs.getD (j - k) 0 else s.inByte j :=
  Memory.read_writeBytes _ _ _ _ _

/-- A write of IN_MEM while BUSY is dropped (70_reset_and_hazards.md R346). -/
theorem busWrite_inMem_busy {s : State} {a k : Nat} (hr : region s.params a = .inMem k) (hp : s.phase = .busy)
    (bs : Bytes) (v : Word) (es : List Event) :
    busWrite a bs v { s with agenda := es } = { s with agenda := es, wrBusy := true } := by
  simp only [busWrite, hr, unlessBusy, hp]

theorem busWrite_inMem_idle {s : State} {a k : Nat} (hr : region s.params a = .inMem k) (hp : s.phase = .idle)
    (bs : Bytes) (v : Word) (es : List Event) :
    busWrite a bs v { s with agenda := es } = { s with agenda := es, inMem := s.inMem.writeBytes k bs } := by
  simp only [busWrite, hr, unlessBusy, hp]

/-- Settles O19: reads by the rules of the byte regions, writes by the bytes they put into IN_MEM. -/
theorem inMemHostAccess : Obligations.InMemHostAccess := by
  intro s a k rest _ ha
  have hlo : 0x100 ≤ a.toNat := by omega
  have hout (hk : k < s.params.inMemSize) (j : Nat) : region s.params a.toNat ≠ .outMem j := by
    rw [region_inMem ha hk]
    exact Region.noConfusion
  have hbyte (hk : k < s.params.inMemSize) : legalAccess s.params .byte a.toNat = true :=
    (legalAccess_inMem (region_inMem ha hk) .byte).mpr (.inl rfl)
  have hword (h4 : k % 4 = 0) (hk : k + 4 ≤ s.params.inMemSize) :
      legalAccess s.params .word a.toNat = true :=
    (legalAccess_inMem (region_inMem ha (by omega)) .word).mpr (.inr ⟨by omega, hk⟩)
  refine ⟨fun h hk => ?readByte, fun h h4 hk => ?readWord,
    fun v h hk => ⟨fun hp => ?busyByte, fun hp => ?idleByte⟩,
    fun v h h4 hk => ⟨fun hp => ?busyWord, fun hp => ?idleWord⟩⟩
  case readByte => rw [step_read_byte h hlo (hbyte hk) (hout hk), byteSeen_inMem s ha hk]
  case readWord =>
    refine ⟨_, step_read_word h hlo (hword h4 hk) (hout (by omega)), rfl, ?_⟩
    rw [toNat_lanes, byteSeen_inMem s ha (by omega),
      byteSeen_inMem s (a := a.toNat + 1) (k := k + 1) (by omega) (by omega),
      byteSeen_inMem s (a := a.toNat + 2) (k := k + 2) (by omega) (by omega),
      byteSeen_inMem s (a := a.toNat + 3) (k := k + 3) (by omega) (by omega)]
  case busyByte => rw [step_write_byte h (hbyte hk), busWrite_inMem_busy (region_inMem ha hk) hp]
  case busyWord => rw [step_write_word h (hword h4 hk), busWrite_inMem_busy (region_inMem ha (by omega)) hp]
  case idleByte =>
    rw [step_write_byte h (hbyte hk), busWrite_inMem_idle (region_inMem ha hk) hp]
    refine ⟨_, rfl, rfl, ?_, fun j hj => ?_⟩
    · simp [inByte_writeBytes]
    · rw [inByte_writeBytes, if_neg (by simp only [List.length_singleton]; omega)]
  case idleWord =>
    rw [step_write_word h (hword h4 hk), busWrite_inMem_idle (region_inMem ha (by omega)) hp]
    refine ⟨_, rfl, rfl, ?_, fun j hj => ?_⟩
    · rw [← leNat_laneBytes v]
      simp [inByte_writeBytes, laneBytes]
    · rw [inByte_writeBytes, if_neg (by simp only [laneBytes, List.length_cons, List.length_nil]; omega)]

end Sys2Proof.Machine
end

section
/-! The operations that a CTRL or STATUS write is (30_encoding.md R114), and the bits of a written word that a
register sees (10_state.md R19 to R21, R38). -/

namespace Sys2Proof.Machine

open Sys2Proof

/-! ## The decoder of register writes -/

/-- SRST is looked at before START (10_state.md R19). -/
theorem decode_ctrl_srst {w : Word} (h2 : w.getLsbD 2 = true) :
    decode .ctrlWrite w = .ok (.ctrlSrst (w.getLsbD 0) (w.getLsbD 1)) := by
  simp only [decode, decodeCtrl, h2, if_true]

theorem decode_ctrl_start {w : Word} (h2 : w.getLsbD 2 = false) (h0 : w.getLsbD 0 = true) :
    decode .ctrlWrite w = .ok (.ctrlStart (w.getLsbD 1)) := by
  simp only [decode, decodeCtrl, h2, h0, if_true, Bool.false_eq_true, if_false]

/-- A CTRL write with neither bit is no row of the table (log entry 22). -/
theorem decode_ctrl_plain {w : Word} (h2 : w.getLsbD 2 = false) (h0 : w.getLsbD 0 = false) :
    decode .ctrlWrite w = .error .plainCtrlWrite := by
  simp only [decode, decodeCtrl, h2, h0, Bool.false_eq_true, if_false]

/-- The operations a CTRL write can be: SRST by bit 2 alone, START by bit 0 when bit 2 is 0. -/
theorem decode_ctrl_eq_ok_iff (w : Word) (i : Instr) :
    decode .ctrlWrite w = .ok i ↔
      (w.getLsbD 2 = true ∧ .ctrlSrst (w.getLsbD 0) (w.getLsbD 1) = i) ∨
        (w.getLsbD 2 = false ∧ w.getLsbD 0 = true ∧ .ctrlStart (w.getLsbD 1) = i) := by
  cases h2 : w.getLsbD 2 with
  | true => simp [decode_ctrl_srst h2]
  | false =>
    cases h0 : w.getLsbD 0 with
    | true => simp [decode_ctrl_start h2 h0]
    | false => simp [decode_ctrl_plain h2 h0]

theorem decode_ctrl_eq_start_iff (w : Word) (ie : Bool) :
    decode .ctrlWrite w = .ok (.ctrlStart ie) ↔
      w.getLsbD 0 = true ∧ w.getLsbD 2 = false ∧ w.getLsbD 1 = ie := by
  simp only [decode_ctrl_eq_ok_iff, reduceCtorEq, and_false, false_or, Instr.ctrlStart.injEq, and_left_comm]

theorem decode_ctrl_eq_srst_iff (w : Word) (st ie : Bool) :
    decode .ctrlWrite w = .ok (.ctrlSrst st ie) ↔
      w.getLsbD 2 = true ∧ w.getLsbD 0 = st ∧ w.getLsbD 1 = ie := by
  simp only [decode_ctrl_eq_ok_iff, reduceCtorEq, and_false, or_false, Instr.ctrlSrst.injEq]

/-- Every STATUS write is an acknowledge, of no bit at the least (10_state.md R21). -/
theorem decode_status (w : Word) :
    decode .statusWrite w = .ok (.statusW1C (w.getLsbD 1) (w.getLsbD 3) (w.getLsbD 4)) := rfl

theorem decode_status_eq_iff (w : Word) (d a b : Bool) :
    decode .statusWrite w = .ok (.statusW1C d a b) ↔
      w.getLsbD 1 = d ∧ w.getLsbD 3 = a ∧ w.getLsbD 4 = b := by
  rw [decode_status, Except.ok.injEq, Instr.statusW1C.injEq]

/-! ## The bits a write can affect -/

/-- Two words that agree under a mask agree on each bit of the mask. -/
theorem getLsbD_eq_of_and_eq {n : Nat} {v v' m : BitVec n} (h : v &&& m = v' &&& m) {k : Nat}
    (hk : m.getLsbD k = true) : v.getLsbD k = v'.getLsbD k := by
  have hbit := congrArg (BitVec.getLsbD · k) h
  simpa only [BitVec.getLsbD_and, hk, Bool.and_true] using hbit

/-- CMD keeps the four bits of OP, which are those of its mask (10_state.md R20). -/
theorem extractLsb'_and_cmdMask (v : Word) : (v &&& writeMask .cmd).extractLsb' 0 4 = v.extractLsb' 0 4 := by
  have hmask : (writeMask .cmd).extractLsb' 0 4 = BitVec.allOnes 4 := by decide
  rw [BitVec.extractLsb'_and, hmask, BitVec.and_allOnes]

/-- IN_LEN has no reserved bit (10_state.md R38). -/
theorem and_inLenMask (v : Word) : v &&& writeMask .inLen = v := BitVec.and_allOnes

/-- A register sees no bit of a written word outside its mask. -/
theorem writeReg_eq_of_and_writeMask_eq {r : RegName} {v v' : Word}
    (h : v &&& writeMask r = v' &&& writeMask r) (s : State) : writeReg r v s = writeReg r v' s := by
  cases r with
  | ctrl =>
    have h0 : v.getLsbD 0 = v'.getLsbD 0 := getLsbD_eq_of_and_eq h (by decide)
    have h1 : v.getLsbD 1 = v'.getLsbD 1 := getLsbD_eq_of_and_eq h (by decide)
    have h2 : v.getLsbD 2 = v'.getLsbD 2 := getLsbD_eq_of_and_eq h (by decide)
    simp only [writeReg, writeCtrl, h0, h1, h2]
  | cmd =>
    have hop : v.extractLsb' 0 4 = v'.extractLsb' 0 4 := by
      rw [← extractLsb'_and_cmdMask v, h, extractLsb'_and_cmdMask]
    simp only [writeReg, hop]
  | inLen =>
    rw [and_inLenMask, and_inLenMask] at h
    rw [h]
  | status =>
    have h1 : v.getLsbD 1 = v'.getLsbD 1 := getLsbD_eq_of_and_eq h (by decide)
    have h3 : v.getLsbD 3 = v'.getLsbD 3 := getLsbD_eq_of_and_eq h (by decide)
    have h4 : v.getLsbD 4 = v'.getLsbD 4 := getLsbD_eq_of_and_eq h (by decide)
    simp only [writeReg, h1, h3, h4]
  | _ => rfl

/-- Settles O3: each kind of write by its decoding, the reserved bits by the registers' masks. -/
theorem controlWritesAndReservedBits : Obligations.ControlWritesAndReservedBits :=
  ⟨decode_ctrl_eq_start_iff, decode_ctrl_eq_srst_iff, decode_status_eq_iff,
    fun _ _ _ s h => writeReg_eq_of_and_writeMask_eq h s⟩

end Sys2Proof.Machine
end

section
/-! The command cycle (40_command_cycle.md): what an accepted START leaves, and the checks that end a command before
its first stage. -/

namespace Sys2Proof.Machine

open Sys2Proof

/-! ## START -/

/-- The whole effect of an accepted START (40_command_cycle.md R160). -/
theorem startCommand_idle {s : State} (h : s.phase = .idle) (ie : Bool) :
    startCommand ie s = { s with
      ie := ie, latchOp := s.cmdOp, latchLen := s.inLen
      err := ErrRegs.zero, res := ResultRegs.zero, done := false, phase := .busy } := by
  simp only [startCommand, h]

/-- A START while BUSY sets WR_BUSY and takes IE (70_reset_and_hazards.md R347). -/
theorem startCommand_busy {s : State} (h : s.phase = .busy) (ie : Bool) :
    startCommand ie s = { s with ie := ie, wrBusy := true } := by
  simp only [startCommand, h]

theorem exec_ctrlStart (ie : Bool) (s : State) : exec (.ctrlStart ie) s = .next (startCommand ie s) := rfl

/-- A step whose event is a START request, whatever the phase (30_encoding.md R114). -/
theorem step_write_start {s : State} {v : Word} {rest : List Event} (h : s.agenda = .host (.w32 0x14 v) :: rest)
    (h0 : v.getLsbD 0 = true) (h2 : v.getLsbD 2 = false) :
    step s = .next (startCommand (v.getLsbD 1) { s with agenda := rest }) := by
  rw [step_write_ctrl h, writeCtrl_start h2 h0]

/-- The registers that show a command's outcome, its error or its result (10_state.md R22 to R32). -/
def outcomeRegs : List RegName :=
  [.errCode, .errPos, .errInfo, .result, .outLen, .dforkLen, .rforkLen, .nameLen, .ftype, .fcreator, .fflags,
    .hcrc, .dcrc, .rcrc, .imgSize]

/-- They read the error and result registers and nothing else of the state. -/
theorem readReg_outcomeRegs {r : RegName} (h : r ∈ outcomeRegs) {s t : State} (he : t.err = s.err)
    (hr : t.res = s.res) : readReg r t = readReg r s := by
  cases r with
  | id | version | capIn | capOut | capXs | ctrl | cmd | inLen | status => exact absurd h (by decide)
  | _ => simp only [readReg, he, hr]

theorem readReg_outcomeRegs_zero {r : RegName} (h : r ∈ outcomeRegs) {t : State} (he : t.err = ErrRegs.zero)
    (hr : t.res = ResultRegs.zero) : readReg r t = 0 := by
  have hreset : ∀ q ∈ outcomeRegs, readReg q State.reset = 0 := by decide
  rw [readReg_outcomeRegs h (s := State.reset) he hr, hreset r h]

/-- Settles O8: the two phases of a START request, and what the cleared registers and windows then read. -/
theorem startAcceptedOnlyWhenIdle : Obligations.StartAcceptedOnlyWhenIdle := by
  intro s v rest hag h0 h2
  have hstep := step_write_start hag h0 h2
  refine ⟨fun hp => ?idle, fun hp => ?busy⟩
  case idle =>
    refine ⟨_, hstep, exec_ctrlStart _ _, ?_⟩
    rw [startCommand_idle (s := { s with agenda := rest }) hp]
    exact ⟨rfl, rfl, rfl, fun r hr => readReg_outcomeRegs_zero hr rfl rfl, fun a h1 h2 => byteSeen_zero rfl h1 h2⟩
  case busy =>
    rw [startCommand_busy (s := { s with agenda := rest }) hp] at hstep
    exact ⟨_, hstep, hp, rfl, rfl, rfl, rfl, rfl⟩

/-! ## The commands that keep S1 and XS -/

theorem exec_sixbit_of {s : State} {o : Except CmdError CmdResult} (h : sixbitOutcome s = o) :
    exec .sixbit s = .next (complete o s) := by
  simp only [exec, execSixbit, h]

theorem exec_rle_of {s : State} {o : Except CmdError CmdResult} (h : rleOutcome s = o) :
    exec .rle s = .next (complete o s) := by
  simp only [exec, execRle, h]

theorem exec_macbin_of {s : State} {o : Except CmdError FileResult} (h : macbinDecode s = o) :
    exec .macbin s = .next (complete (o.map .record) s) := by
  simp only [exec, execMacbin, h]

theorem exec_dsk_of {s : State} {o : Except CmdError CmdResult} (h : dskOutcome s = o) :
    exec .dsk s = .next (complete o s) := by
  simp only [exec, execDsk, h]

theorem exec_macbinDsk_of {s : State} {o : Except CmdError FileResult} (h : macbinDecode s = o) :
    exec .macbinDsk s = .next (complete (thenDiskCopy o) s) := by
  simp only [exec, execMacbinDsk, h]

/-! ## The command checks -/

/-- The OPs of the seven commands (30_encoding.md R110). -/
theorem commandOp_cases {op : BitVec 4} (h1 : 1 ≤ op.toNat) (h7 : op.toNat ≤ 7) :
    op = 1 ∨ op = 2 ∨ op = 3 ∨ op = 4 ∨ op = 5 ∨ op = 6 ∨ op = 7 := by
  revert op
  decide

/-- The reserved OPs (30_encoding.md R112). -/
theorem reservedOp_cases {op : BitVec 4} (h : ¬ (1 ≤ op.toNat ∧ op.toNat ≤ 7)) :
    op = 0 ∨ op = 8 ∨ op = 9 ∨ op = 10 ∨ op = 11 ∨ op = 12 ∨ op = 13 ∨ op = 14 ∨ op = 15 := by
  revert op
  decide

/-- The first check: a reserved OP ends with BadCommand, its input not looked at (40_command_cycle.md R161). -/
theorem exec_decodeOp_reserved {op : BitVec 4} (h : ¬ (1 ≤ op.toNat ∧ op.toNat ≤ 7)) (s : State) :
    exec (decodeOp op) s = .next (complete (.error (badCommand op)) s) := by
  rcases reservedOp_cases h with rfl | rfl | rfl | rfl | rfl | rfl | rfl | rfl | rfl <;> rfl

/-- The second check: each of the seven commands ends with BadLength when the latched length exceeds IN_MEM_SIZE,
before a stage writes a buffer (40_command_cycle.md R161). -/
theorem exec_decodeOp_badLength {op : BitVec 4} (h1 : 1 ≤ op.toNat) (h7 : op.toNat ≤ 7) {s : State}
    (hlen : s.params.inMemSize < s.latchLen.toNat) :
    exec (decodeOp op) s = .next (complete (.error ⟨.badLength, s.latchLen.toNat, .checks, 0⟩) s) := by
  rcases commandOp_cases h1 h7 with rfl | rfl | rfl | rfl | rfl | rfl | rfl
  · exact exec_sixbit_of (sixbitOutcome_badLength hlen)
  · exact exec_rle_of (rleOutcome_badLength hlen)
  · exact exec_binhex_of (binhexDecode_badLength hlen)
  · exact exec_macbin_of (macbinDecode_badLength hlen)
  · exact exec_dsk_of (dskOutcome_badLength hlen)
  · exact exec_binhexDsk_of (binhexDecode_badLength hlen)
  · exact exec_macbinDsk_of (macbinDecode_badLength hlen)

/-- Settles O29: the engine's turn runs the latched command, which the checks end in their order. -/
theorem commandChecks : Obligations.CommandChecks := by
  intro s hp hturn
  have hstep : step s = exec (decodeOp s.latchOp) s.advance := step_of_busy hturn hp
  refine ⟨fun hop => ?badCommand, fun h1 h7 hlen => ?badLength⟩
  case badCommand => rw [hstep, exec_decodeOp_reserved hop, complete_error]; rfl
  case badLength => rw [hstep, exec_decodeOp_badLength (s := s.advance) h1 h7 hlen, complete_error]; rfl

end Sys2Proof.Machine
end

section
/-! The RLE stage and command RLE (42_rle.md): what a token stream expands to, and when a run is malformed. -/

namespace Sys2Proof.Machine

open Sys2Proof

/-! ## The expansion -/

/-- The outcome of command RLE on a token stream whose expansion fits OUT_MEM (42_rle.md R193). -/
theorem rleOutcome_tokens {s : State} {ts : List RleToken} (hlen : s.latchLen.toNat ≤ s.params.inMemSize)
    (hts : TokensOk ts) (hin : s.input = tokenBytes ts)
    (hcap : (expandTokens ts).length ≤ s.params.outMemSize) :
    rleOutcome s = .ok (.stream (expandTokens ts)) := by
  rw [rleOutcome_ok hlen, hin, rle_tokens hts hcap]
  rfl

/-- Settles O35: the command completes with the outcome the stage has on a token stream. -/
theorem rleExpandsTokens : Obligations.RleExpandsTokens := by
  intro s ts hlen hts hin hcap
  rw [exec_rle_of (rleOutcome_tokens hlen hts hin hcap), complete_ok]
  rfl

/-! ## Malformed runs -/

/-- A MalformedRun of a scan that emits and goes on is raised by what follows: emitting can only find the buffer full
(42_rle.md R191). -/
theorem rleEmit_bind_malformed_inv {cap pos n len : Nat} {x : Byte} {out : Bytes} {e : CmdError}
    {next : Bytes × Nat → Except CmdError Bytes} (h : (rleEmit cap pos n x out len).bind next = .error e)
    (he : e.name = .malformedRun) : ∃ o, o.1 = List.replicate n x ++ out ∧ next o = .error e := by
  by_cases hfit : len + n ≤ cap
  · rw [rleEmit_ok pos x out hfit] at h
    exact ⟨_, rfl, h⟩
  · rw [rleEmit_full pos x out (by omega)] at h
    cases h
    cases he

/-- A scan raises MalformedRun only at a run it begins with, and only with nothing emitted before: each token that it
passes leaves a byte for the runs after it (42_rle.md R190). -/
theorem rleGo_malformed_inv {cap : Nat} {e : CmdError} {input : Bytes} {i : Nat} {out : Bytes} {len : Nat}
    (h : rleGo cap input i out len = .error e) (he : e.name = .malformedRun) :
    out = [] ∧ ∃ n rest, input = 0x90 :: n :: rest ∧ n ≠ 0 := by
  induction input, i, out, len using rleGo.induct with
  | case1 i out len =>
    rw [rleGo_nil] at h
    cases h
  | case2 i out len b rest hb ih =>
    rw [rleGo_literal hb] at h
    obtain ⟨o, ho, hnext⟩ := rleEmit_bind_malformed_inv h he
    simp [(ih o hnext).1] at ho
  | case3 b i out len hb =>
    obtain rfl : b = 0x90 := not_not.mp hb
    rw [rleGo_truncated] at h
    cases h
    cases he
  | case4 b i out len hb rest ih =>
    obtain rfl : b = 0x90 := not_not.mp hb
    rw [rleGo_escaped] at h
    obtain ⟨o, ho, hnext⟩ := rleEmit_bind_malformed_inv h he
    simp [(ih o hnext).1] at ho
  | case5 b i len hb n rest hn =>
    obtain rfl : b = 0x90 := not_not.mp hb
    exact ⟨rfl, n, rest, rfl, hn⟩
  | case6 b i len hb n rest hn x out ih =>
    obtain rfl : b = 0x90 := not_not.mp hb
    rw [rleGo_run hn] at h
    obtain ⟨o, ho, hnext⟩ := rleEmit_bind_malformed_inv h he
    simp [(ih o hnext).1] at ho

/-- A stream that begins with a run is malformed, whatever the run's count and the capacity (42_rle.md R190). -/
theorem rle_malformed {n : Byte} (hn : n ≠ 0) (cap : Nat) (rest : Bytes) :
    rle cap (0x90 :: n :: rest) = .error ⟨.malformedRun, 0, .rle, 0⟩ :=
  rleGo_malformed hn cap 0 rest 0

/-- Settles O38: a run at the start fails at once, and the scan raises MalformedRun nowhere else. -/
theorem malformedRunIsFirstToken : Obligations.MalformedRunIsFirstToken := by
  intro cap input pos detail
  constructor
  · intro h
    obtain ⟨-, n, rest, rfl, hn⟩ := rleGo_malformed_inv h rfl
    rw [rle_malformed hn] at h
    cases h
    exact ⟨rfl, rfl, n, rest, rfl, hn⟩
  · rintro ⟨rfl, rfl, n, rest, rfl, hn⟩
    exact rle_malformed hn cap rest

end Sys2Proof.Machine
end

section
/-! The six-bit stage (43_sixbit.md): what a run that succeeds answers, and how long its output is. -/

namespace Sys2Proof.Machine

open Sys2Proof

/-- A success of the stage is the demodulation of the text's values: only a valid text succeeds, and a valid text has
that one answer (43_sixbit.md R195 to R198, R200). -/
theorem sixBit_ok_inv {p : Params} {text out : Bytes} {base : Nat} (h : sixBit p text base = .ok out) :
    out = demodulated (textValues p text) := by
  have hvalid : TextValid p text := textValid_of_sixBitGo h
  rw [sixBit_valid hvalid] at h
  exact (Except.ok.inj h).symm

/-- A text has one value for each byte that is not whitespace (43_sixbit.md R196, R197). -/
theorem length_textValues (p : Params) (text : Bytes) :
    (textValues p text).length = (text.filter fun c => c ∉ p.whitespace).length := by
  unfold textValues
  exact List.length_map _

/-- Settles O34: a success is a demodulation, whose length grows with the text's and so stays below what a full
IN_MEM gives, the size of S1; a legal OUT_MEM is at least as large (00_scope.md R7, 10_state.md R37). -/
theorem sixbitOutputLength : Obligations.SixbitOutputLength := by
  intro p text out base h
  have hlen : out.length = 6 * (((text.filter fun c => c ∉ p.whitespace).length + 7) / 8) := by
    rw [sixBit_ok_inv h, length_demodulated, length_textValues]
  have hbound : out.length ≤ 6 * ((text.length + 7) / 8) :=
    hlen.trans_le (by gcongr; exact List.length_filter_le _ _)
  refine ⟨hlen, hbound, ?_⟩
  rintro ⟨-, -, ⟨-, -, hfits, -, -⟩, -, -⟩ hin
  have hs1 : out.length ≤ 6 * ((p.inMemSize + 7) / 8) := hbound.trans (by gcongr)
  exact ⟨hs1, hs1.trans hfits⟩

end Sys2Proof.Machine
end

section
/-! The MacBinary decoder's errors (45_macbinary.md R220 to R223): the header checks in their order, and the forks and
the padding that run past the input. -/

namespace Sys2Proof.Machine

open Sys2Proof

/-! ## What both MacBinary commands report -/

/-- MACBIN and MACBIN_DSK end with the parse's error, the DiskCopy stage not reached (45_macbinary.md R224,
47_pipelines.md R241). -/
theorem exec_macbinary_error {s : State} {i : Instr} (hi : i = .macbin ∨ i = .macbinDsk)
    (hlen : s.latchLen.toNat ≤ s.params.inMemSize) {e : CmdError}
    (h : parseMacbinary s.params s.input = .error e) :
    exec i s = .next (s.afterError e.name.code e.pos e.detail e.stage.code) := by
  have hdec : macbinDecode s = .error e := (macbinDecode_ok hlen).trans h
  rcases hi with rfl | rfl
  · exact exec_macbin_of hdec
  · exact exec_macbinDsk_of hdec

/-! ## The header -/

theorem parseMacbinary_short {b : Bytes} (h : b.length < 128) (p : Params) :
    parseMacbinary p b = .error ⟨.truncatedInput, 0, .mbParse, 0⟩ :=
  if_pos h

/-- One check of a parse: it ends the parse with its error, or the parse goes on below it. -/
theorem check_cases {α : Type} {c : Prop} [Decidable c] {e : CmdError} {k : PUnit → Except CmdError α}
    {o : Except CmdError α} {failed passed : Prop} (h : (if c then (throw e >>= k) else k ⟨⟩) = o)
    (hfail : o = .error e → failed) (hpass : ¬ c → k ⟨⟩ = o → passed) : if c then failed else passed := by
  by_cases hc : c
  · rw [if_pos hc] at h ⊢
    exact hfail h.symm
  · rw [if_neg hc] at h ⊢
    exact hpass hc h

/-- Settles O45: the parse's checks in their order, each reported by both commands; the two lengths lie inside the
header, so their reads succeed. -/
theorem macbinHeaderChecks : Obligations.MacbinHeaderChecks := by
  intro s i hi hlen
  refine ⟨fun hshort => exec_macbinary_error hi hlen (parseMacbinary_short hshort _), fun h128 => ?_⟩
  have report {e : CmdError} := exec_macbinary_error (e := e) hi hlen
  generalize ho : parseMacbinary s.params s.input = o at report
  unfold parseMacbinary at ho
  rw [if_neg (by omega)] at ho
  refine check_cases ho report fun h00 ho => ?_
  refine check_cases ho report fun hname ho => ?_
  refine check_cases ho report fun h4A ho => ?_
  refine check_cases ho report fun h52 ho => ?_
  rw [readBE32_ok _ (by omega), ok_bind] at ho
  refine check_cases ho report fun hdata ho => ?_
  rw [readBE32_ok _ (by omega), ok_bind] at ho
  refine check_cases ho report fun hrsrc _ => ?_
  exact ⟨h128, not_not.mp h00, by omega, by omega, not_not.mp h4A, not_not.mp h52, by omega, by omega⟩

/-! ## The forks -/

/-- The padding that the parse skips is that of 30_encoding.md R151. -/
theorem macPadding_eq_specPadding (p : Params) (d : Nat) : macPadding p.mbPadMode d = specPadding p d := by
  unfold specPadding
  cases p.mbPadMode <;> rfl

section
variable {p : Params} {b : Bytes} {d r : Nat} (hok : MacHeaderOk b) (hd : d = be32At b 0x53)
include hok hd

theorem parseMacbinary_dataTruncated (h : b.length < 0x80 + d) :
    parseMacbinary p b = .error ⟨.truncatedInput, 0x80, .mbParse, 0⟩ := by
  rw [parseMacbinary_head hok hd rfl, readBytes_error _ h, error_bind]

/-- The padding is skipped before the resource fork's length matters (45_macbinary.md R223). -/
theorem parseMacbinary_paddingTruncated (hdata : 0x80 + d ≤ b.length)
    (h : b.length < 0x80 + d + specPadding p d) :
    parseMacbinary p b = .error ⟨.truncatedInput, 0x80 + d, .mbParse, 0⟩ := by
  rw [parseMacbinary_head hok hd rfl, readBytes_ok _ hdata, ok_bind, macPadding_eq_specPadding,
    skipBytes_error _ h, error_bind]

theorem parseMacbinary_rsrcTruncated (hr : r = be32At b 0x57) (hpad : 0x80 + d + specPadding p d ≤ b.length)
    (h : b.length < 0x80 + d + specPadding p d + r) :
    parseMacbinary p b = .error ⟨.truncatedInput, 0x80 + d + specPadding p d, .mbParse, 0⟩ := by
  rw [parseMacbinary_head hok hd hr, readBytes_ok _ (by omega), ok_bind, macPadding_eq_specPadding,
    skipBytes_ok _ hpad, ok_bind, readBytes_error _ h, error_bind]

end

/-- Settles O46: each of the three reads fails at its own start once the ones before it are inside the input. -/
theorem macbinTruncatedForks : Obligations.MacbinTruncatedForks := by
  rintro s i d pad r hi hlen hok hd rfl hr
  refine ⟨fun h => ?dataFork, fun hdata h => ?padding, fun hpad h => ?rsrcFork⟩
  case dataFork => exact exec_macbinary_error hi hlen (parseMacbinary_dataTruncated hok hd h)
  case padding => exact exec_macbinary_error hi hlen (parseMacbinary_paddingTruncated hok hd hdata h)
  case rsrcFork => exact exec_macbinary_error hi hlen (parseMacbinary_rsrcTruncated hok hd hr hpad h)

end Sys2Proof.Machine
end

section
/-! The DiskCopy stage's checks (46_diskcopy.md R230 to R236), and the error that command DSK reports for each. -/

namespace Sys2Proof.Machine

open Sys2Proof

/-- DSK ends with the error of the DiskCopy stage over its input (46_diskcopy.md R237). -/
theorem exec_dsk_error {s : State} (hlen : s.latchLen.toNat ≤ s.params.inMemSize) {e : CmdError}
    (h : diskCopy s.input = .error e) :
    exec .dsk s = .next (s.afterError e.name.code e.pos e.detail e.stage.code) := by
  have hout : dskOutcome s = .error e := by
    rw [dskOutcome_ok hlen, h]
    rfl
  rw [exec_dsk_of hout, complete_error]

/-- Settles O49: the stage's checks in their order, each reported by DSK; the size field lies inside a buffer that is
not too small, so its read succeeds, and the last check is the read of the sectors (46_diskcopy.md R236). -/
theorem dskChecks : Obligations.DskChecks := by
  intro s hlen
  have report {e : CmdError} := exec_dsk_error (e := e) hlen
  generalize ho : diskCopy s.input = o at report
  unfold diskCopy at ho
  refine check_cases ho report fun hsmall ho => ?_
  refine check_cases ho report fun h52 ho => ?_
  refine check_cases ho report fun h53 ho => ?_
  rw [readBE32_ok _ (by omega), ok_bind] at ho
  refine check_cases ho report fun hsize ho => ?_
  split_ifs with htrunc
  · rw [readBytes_error _ htrunc, error_bind] at ho
    exact report ho.symm
  · exact ⟨not_lt.mp hsmall, not_not.mp h52, not_not.mp h53, by simpa using not_not.mp hsize, not_lt.mp htrunc⟩

end Sys2Proof.Machine
end

section
/-! The host's writes while the engine is BUSY (70_reset_and_hazards.md R346, R347): which are dropped, and what a
CTRL or STATUS write still does. -/

namespace Sys2Proof.Machine

open Sys2Proof

/-- The registers whose writes are dropped while BUSY (70_reset_and_hazards.md R346). -/
theorem writeReg_dropped {r : RegName} (hr : r = .cmd ∨ r = .inLen) {s : State} (hp : s.phase = .busy) (v : Word) :
    writeReg r v s = { s with wrBusy := true } := by
  obtain rfl | rfl := hr <;> simp only [writeReg, unlessBusy, hp]

/-- The dropped registers stand at 0x18 and 0x1C (10_state.md R16). -/
theorem step_write_dropped {s : State} {a v : Word} {rest : List Event} (h : s.agenda = .host (.w32 a v) :: rest)
    (ha : a = 0x18 ∨ a = 0x1C) (hp : s.phase = .busy) :
    step s = .next { s with agenda := rest, wrBusy := true } := by
  obtain ⟨r, hr, hreg⟩ : ∃ r, regAt a.toNat = some r ∧ (r = .cmd ∨ r = .inLen) := by
    obtain rfl | rfl := ha
    · exact ⟨.cmd, rfl, .inl rfl⟩
    · exact ⟨.inLen, rfl, .inr rfl⟩
  rw [step_write_register h hr, writeReg_dropped hreg (s := { s with agenda := rest }) hp]

/-- Short of a reset every CTRL write takes IE, with START or without (10_state.md R19). -/
theorem ie_writeCtrl {v : Word} (h2 : v.getLsbD 2 = false) (s : State) : (writeCtrl v s).ie = v.getLsbD 1 := by
  cases h0 : v.getLsbD 0 with
  | true => rw [writeCtrl_start h2 h0, startCommand_ie]
  | false => rw [writeCtrl_ie h2 h0]

/-- Settles O9: the step is the START, which a BUSY engine does not accept. -/
theorem startNotAcceptedWhenBusy : Obligations.StartNotAcceptedWhenBusy := by
  intro s v rest h h0 h2 hp
  rw [step_write_start h h0 h2, startCommand_busy (s := { s with agenda := rest }) hp]

/-- Settles O26: IN_MEM by the BUSY clauses of its host accesses, CMD and IN_LEN by their drop, CTRL and STATUS by
what the written register does in either phase. -/
theorem busyWritesDropped : Obligations.BusyWritesDropped := by
  intro s rest hlegal hp
  refine ⟨fun a v h hlo hhi => ?inMemByte, fun a v h hlo h4 hhi => ?inMemWord,
    fun a v h ha => step_write_dropped h ha hp,
    fun v h => ⟨fun h0 h2 => ?ieAlone, fun h2 => ?ieTaken, fun h2 => ?srst⟩,
    fun v h => step_of_busOperation h rfl⟩
  case inMemByte =>
    obtain ⟨k, hk⟩ := Nat.exists_eq_add_of_le hlo
    obtain ⟨-, -, writeByte, -⟩ := inMemHostAccess s a k rest hlegal hk
    exact (writeByte v h (by omega)).1 hp
  case inMemWord =>
    obtain ⟨k, hk⟩ := Nat.exists_eq_add_of_le hlo
    obtain ⟨-, -, -, writeWord⟩ := inMemHostAccess s a k rest hlegal hk
    exact (writeWord v h (by omega) (by omega)).1 hp
  case ieAlone => rw [step_write_ctrl h, writeCtrl_ie h2 h0]
  case ieTaken => exact ⟨_, step_write_ctrl h, ie_writeCtrl h2 _⟩
  case srst => exact ⟨_, step_write_ctrl h, by rw [writeCtrl_srst h2, softReset_phase]⟩

end Sys2Proof.Machine
end

section
/-! Decoding and encoding (30_encoding.md R110, R111, R114): an operation's word is its operand bits, and a word that
decodes is its operation's but for the reserved bits. -/

namespace Sys2Proof.Machine

open Sys2Proof

/-! ## Commands -/

/-- A command's word is its OP (30_encoding.md R110). -/
theorem encode_decodeOp (op : BitVec 4) : encode (decodeOp op) = (.cmdOp, op.setWidth 32) := by
  rcases op_cases op with rfl | rfl | rfl | rfl | rfl | rfl | rfl | rfl | rfl | rfl | rfl | rfl | rfl | rfl | rfl |
    rfl <;> rfl

/-- OP is what the mask of a CMD word keeps (10_state.md R20). -/
theorem setWidth_extractOp (w : Word) : (w.extractLsb' 0 4).setWidth 32 = w &&& formatMask .cmdOp := by
  have hmask : formatMask .cmdOp = 2 ^ 4 - 1 := by decide
  apply BitVec.eq_of_toNat_eq
  rw [hmask, BitVec.toNat_setWidth, BitVec.extractLsb'_toNat, BitVec.toNat_and, Nat.shiftRight_zero]
  exact (Nat.mod_eq_of_lt (by omega)).trans (Nat.and_two_pow_sub_one_eq_mod w.toNat 4).symm

/-! ## Register writes -/

/-- Bit k of a word, encoded at its place, is what the mask of that bit keeps. -/
theorem bitAt_getLsbD (w : Word) (k : Nat) : bitAt k (w.getLsbD k) = w &&& BitVec.twoPow 32 k := by
  have hpow : BitVec.ofNat 32 (2 ^ k) = BitVec.twoPow 32 k := by
    apply BitVec.eq_of_toNat_eq
    rw [BitVec.toNat_ofNat, BitVec.toNat_twoPow]
  rw [BitVec.and_twoPow, bitAt, hpow]
  rfl

/-- The masks of the two register formats are the bits of their fields (10_state.md R19, R21). -/
theorem and_ctrlMask (w : Word) :
    w &&& formatMask .ctrlWrite = bitAt 0 (w.getLsbD 0) ||| bitAt 1 (w.getLsbD 1) ||| bitAt 2 (w.getLsbD 2) := by
  have hmask : formatMask .ctrlWrite = BitVec.twoPow 32 0 ||| BitVec.twoPow 32 1 ||| BitVec.twoPow 32 2 := by
    decide
  rw [hmask, BitVec.and_or_distrib_left, BitVec.and_or_distrib_left, bitAt_getLsbD, bitAt_getLsbD, bitAt_getLsbD]

theorem and_statusMask (w : Word) :
    w &&& formatMask .statusWrite = bitAt 1 (w.getLsbD 1) ||| bitAt 3 (w.getLsbD 3) ||| bitAt 4 (w.getLsbD 4) := by
  have hmask : formatMask .statusWrite = BitVec.twoPow 32 1 ||| BitVec.twoPow 32 3 ||| BitVec.twoPow 32 4 := by
    decide
  rw [hmask, BitVec.and_or_distrib_left, BitVec.and_or_distrib_left, bitAt_getLsbD, bitAt_getLsbD, bitAt_getLsbD]

/-! ## Both directions -/

/-- The bits of an encoded register write are the operation's operands. -/
theorem decode_encode (i : Instr) : decode (encode i).1 (encode i).2 = .ok i := by
  cases i with
  | ctrlStart ie => cases ie <;> decide
  | ctrlSrst start ie => cases start <;> cases ie <;> decide
  | statusW1C d a w => cases d <;> cases a <;> cases w <;> decide
  | _ => rfl

/-- An operation that a word decodes to is encoded in the word's format, with the bits that the format's mask
keeps. -/
theorem encode_of_decode {f : Format} {w : Word} {i : Instr} (h : decode f w = .ok i) :
    encode i = (f, w &&& formatMask f) := by
  cases f with
  | cmdOp =>
    cases h
    rw [encode_decodeOp, setWidth_extractOp]
  | ctrlWrite =>
    rw [and_ctrlMask]
    rcases (decode_ctrl_eq_ok_iff w i).mp h with ⟨h2, rfl⟩ | ⟨h2, h0, rfl⟩
    · rw [h2]
      rfl
    · have hsrst : bitAt 2 false = 0#32 := rfl
      rw [h2, h0, hsrst, BitVec.or_zero]
      rfl
  | statusWrite =>
    cases h
    rw [and_statusMask]
    rfl

/-- Settles O1: the operations case by case, and a decoded word format by format. -/
theorem decodeAndEncodeAgree : Obligations.DecodeAndEncodeAgree :=
  ⟨decode_encode, fun _ _ _ h => encode_of_decode h⟩

/-- Settles O2: every listed word is decoded, first the OPs and then the sample CTRL and STATUS words. -/
theorem tableWordsDecode : Obligations.TableWordsDecode := by
  refine ⟨(Prod.forall (p := fun q => q ∈ _ → decode .cmdOp q.1 = .ok q.2)).mp ?ops, by decide⟩
  case ops => decide

end Sys2Proof.Machine
end

section
/-! What a step is and what it does to the agenda (40_command_cycle.md R162, R163, 70_reset_and_hazards.md R343,
R350): its four cases, that it always answers, and that a BUSY engine is IDLE again. -/

namespace Sys2Proof.Machine

open Sys2Proof

/-! ## The cases of a step -/

/-- A step is a completion, an idle turn of the engine, a hard reset or a host transaction; a completion is given by
the end of its command. -/
theorem step_inv {s t : State} (h : step s = .next t) :
    (∃ o u, s.EngineTurn ∧ s.phase = .busy ∧ CommandEnd s.advance o u ∧ t = complete o u) ∨
      (s.phase = .idle ∧ t = s.advance) ∨
      (s.agenda.head? = some .hardReset ∧ t = hardReset s.advance) ∨
      ((∃ x, s.agenda.head? = some (.host x)) ∧ BusEffect s.advance t) := by
  rcases step_cases h with ⟨hturn, hp, hexec⟩ | ⟨-, hp, rfl⟩ | hreset | hhost
  · obtain ⟨o, u, hend, hu⟩ := exec_decodeOp s.latchOp s.advance
    rw [hu] at hexec
    exact .inl ⟨o, u, hturn, hp, hend, (Host.Outcome.next.inj hexec).symm⟩
  · exact .inr (.inl ⟨hp, rfl⟩)
  · exact .inr (.inr (.inl hreset))
  · exact .inr (.inr (.inr hhost))

/-- A bus access leaves the agenda to the agents (log entry 3). -/
theorem BusEffect.agenda {s t : State} (h : BusEffect s t) : t.agenda = s.agenda := by
  cases h with
  | start b => exact startCommand_agenda b s
  | softReset => exact softReset_agenda s
  | _ => rfl

/-- A step takes one event off the agenda. -/
theorem step_agenda {s t : State} (h : step s = .next t) : t.agenda = s.agenda.tail := by
  rcases step_inv h with ⟨o, u, -, -, hend, rfl⟩ | ⟨-, rfl⟩ | ⟨-, rfl⟩ | ⟨-, heff⟩
  · rw [complete_agenda, hend.frame]
    rfl
  · rfl
  · rfl
  · exact heff.agenda

/-! ## Which operation runs, and that one always does -/

/-- Settles O4: the engine's turn by its two phases, a register write by the row of the table that it is. -/
theorem stepRunsDecodedOperation : Obligations.StepRunsDecodedOperation := by
  refine ⟨fun s hp hturn => step_of_busy hturn hp, fun s hp hturn => step_of_idle hturn hp,
    fun s v i rest h hdec => ?ctrl, fun s v i rest h hdec => ?status⟩
  case ctrl =>
    have hop : busOperation (.w32 0x14 v) = (decode .ctrlWrite v).toOption := rfl
    exact step_of_busOperation h (by rw [hop, hdec]; rfl)
  case status =>
    have hop : busOperation (.w32 0x20 v) = (decode .statusWrite v).toOption := rfl
    exact step_of_busOperation h (by rw [hop, hdec]; rfl)

/-- Settles O5: a table operation does what its bus access does, and every other transaction runs as one. -/
theorem stepRunsEveryBusAccess : Obligations.StepRunsEveryBusAccess :=
  fun _ _ _ h => step_of_host h

/-- The engine's turn answers in both phases. -/
theorem step_of_turn {s : State} (h : s.EngineTurn) : ∃ t, step s = .next t ∧ t.phase = .idle := by
  cases hp : s.phase with
  | idle => exact ⟨_, step_of_idle h hp, hp⟩
  | busy =>
    obtain ⟨o, u, -, hu⟩ := exec_decodeOp s.latchOp s.advance
    exact ⟨_, (step_of_busy h hp).trans hu, complete_phase o u⟩

/-- Settles O6: each event has its answer, and an exhausted agenda is the engine's turn. -/
theorem stepNeverStops : Obligations.StepNeverStops := by
  intro s
  match ha : s.agenda with
  | [] => exact (step_of_turn (.inl ha)).imp fun _ h => h.1
  | .engine :: _ => exact (step_of_turn (.inr (by rw [ha]; rfl))).imp fun _ h => h.1
  | .hardReset :: _ => exact ⟨_, step_of_hardReset ha⟩
  | .host _ :: _ => exact ⟨_, step_of_host ha⟩

/-! ## The end of a command -/

theorem run_succ_of_step {s t : State} (h : step s = .next t) (k : Nat) :
    Sys2Proof.core.run (k + 1) s = Sys2Proof.core.run k t := by
  have hcore : Sys2Proof.core.step s = .next t := h
  simp only [Host.Core.run, hcore]

/-- From every state the engine is IDLE after at most one step for each event of the agenda, and one more: an event
of the host leaves a shorter agenda, and an exhausted one is the engine's turn (log entry 4). -/
theorem run_reaches_idle (es : List Event) : ∀ s : State, s.agenda = es →
    ∃ k ≤ es.length + 1, ∃ t : State, Sys2Proof.core.run k s = .next t ∧ t.phase = .idle := by
  have oneStep {s t : State} {n : Nat} (h : step s = .next t) (ht : t.phase = .idle) :
      ∃ k ≤ n + 1, ∃ t : State, Sys2Proof.core.run k s = .next t ∧ t.phase = .idle :=
    ⟨1, by omega, t, run_succ_of_step h 0, ht⟩
  induction es with
  | nil =>
    intro s ha
    obtain ⟨t, ht, hidle⟩ := step_of_turn (.inl ha)
    exact oneStep ht hidle
  | cons e es ih =>
    intro s ha
    cases e with
    | engine =>
      obtain ⟨t, ht, hidle⟩ := step_of_turn (s := s) (.inr (by rw [ha]; rfl))
      exact oneStep ht hidle
    | hardReset => exact oneStep (step_of_hardReset ha) rfl
    | host x =>
      have hstep := step_of_host ha
      obtain ⟨k, hk, t, hrun, hidle⟩ := ih _ (by rw [step_agenda hstep, ha]; rfl)
      exact ⟨k + 1, by simpa using hk, t, (run_succ_of_step hstep k).trans hrun, hidle⟩

/-- Settles O7: the agenda of the BUSY state bounds the steps to its completion or abort. -/
theorem acceptedCommandEnds : Obligations.AcceptedCommandEnds :=
  fun s _ => run_reaches_idle s.agenda s rfl

end Sys2Proof.Machine
end

section
/-! What every step keeps: the memories' canonical form, and what the error and result registers can show together
(40_command_cycle.md R160 to R166, 20_memory.md R86, 60_exceptions.md R308). -/

namespace Sys2Proof.Machine

open Sys2Proof

/-! ## The canonical form of the memories -/

/-- What the internal buffers hold where a command is committed: what they held, or the bytes a stage put there. -/
theorem CommandEnd.buffers {s t : State} {o : Except CmdError CmdResult} (h : CommandEnd s o t) :
    (t.s1 = s.s1 ∨ ∃ bs, t.s1 = Memory.ofBytes bs) ∧ (t.xs = s.xs ∨ ∃ bs, t.xs = Memory.ofBytes bs) := by
  cases h with
  | binhex | binhexDsk => exact binhexDecode_buffers s
  | _ => exact ⟨.inl rfl, .inl rfl⟩

theorem CommandEnd.memoriesCanonical {s t : State} {o : Except CmdError CmdResult} (h : CommandEnd s o t)
    (hs : s.MemoriesCanonical) : t.MemoriesCanonical := by
  obtain ⟨hin, hout, hs1, hxs⟩ := hs
  obtain ⟨hs1', hxs'⟩ := h.buffers
  have wf_of {m n : Memory} (hm : m = n ∨ ∃ bs, m = Memory.ofBytes bs) (hn : n.wf) : m.wf := by
    rcases hm with rfl | ⟨bs, rfl⟩
    · exact hn
    · exact wf_ofBytes bs
  exact ⟨by rw [h.frame]; exact hin, by rw [h.frame]; exact hout, wf_of hs1' hs1, wf_of hxs' hxs⟩

/-- Either commit puts a canonical list into OUT_MEM. -/
theorem wf_complete_outMem (o : Except CmdError CmdResult) (s : State) : (complete o s).outMem.wf := by
  cases o with
  | ok r => exact wf_ofBytes r.out
  | error e => exact wf_empty

theorem BusEffect.memoriesCanonical {s t : State} (h : BusEffect s t) (hs : s.MemoriesCanonical) :
    t.MemoriesCanonical := by
  obtain ⟨hin, hout, hs1, hxs⟩ := hs
  cases h with
  | inMem k bs => exact ⟨Memory.wf_writeBytes bs hin k, hout, hs1, hxs⟩
  | start b =>
    rw [State.MemoriesCanonical, startCommand_inMem, startCommand_outMem, startCommand_s1, startCommand_xs]
    exact ⟨hin, hout, hs1, hxs⟩
  | softReset =>
    rw [State.MemoriesCanonical, softReset_inMem, softReset_outMem, softReset_s1, softReset_xs]
    split_ifs
    · exact ⟨hin, wf_empty, wf_empty, wf_empty⟩
    · exact ⟨hin, hout, hs1, hxs⟩
  | _ => exact ⟨hin, hout, hs1, hxs⟩

/-- Settles O51: the cases of a step. -/
theorem memoriesStayCanonical : Obligations.MemoriesStayCanonical := by
  intro s t hs h
  rcases step_inv h with ⟨o, u, -, -, hend, rfl⟩ | ⟨-, rfl⟩ | ⟨-, rfl⟩ | ⟨-, heff⟩
  · obtain ⟨hin, -, hs1, hxs⟩ := hend.memoriesCanonical (s := s.advance) hs
    exact ⟨by rwa [complete_inMem], wf_complete_outMem o u, by rwa [complete_s1], by rwa [complete_xs]⟩
  · exact hs
  · exact ⟨wf_empty, wf_empty, wf_empty, wf_empty⟩
  · exact heff.memoriesCanonical hs

/-! ## What a step does to the report of a command -/

/-- The error registers that an error sets (40_command_cycle.md R165). -/
def CmdError.regs (e : CmdError) : ErrRegs := ⟨e.name.code, BitVec.ofNat 32 e.pos, e.detail, e.stage.code⟩

/-- What a step can do to the error registers, the result registers and DONE when a BUSY engine shows nothing: a
completion writes a result or an error over cleared registers, START and the resets clear them, and everything else
leaves them, DONE at the most acknowledged. -/
inductive ReportStep (s : State) : State → Prop
  | result {u : State} {r : CmdResult} (hend : CommandEnd s.advance (.ok r) u) {t : State} (hp : t.phase = .idle)
      (hres : t.res = r.writeRegs ResultRegs.zero) (herr : t.err = ErrRegs.zero) : ReportStep s t
  | error (e : CmdError) {t : State} (hp : t.phase = .idle) (hres : t.res = ResultRegs.zero)
      (herr : t.err = e.regs) : ReportStep s t
  | cleared {t : State} (hres : t.res = ResultRegs.zero) (herr : t.err = ErrRegs.zero) (hdone : t.done = false) :
      ReportStep s t
  | kept {t : State} (hp : t.phase = s.phase) (hres : t.res = s.res) (herr : t.err = s.err)
      (hdone : t.done = true → s.done = true) : ReportStep s t

/-- A bus access clears the report or leaves it. -/
theorem BusEffect.report {s t : State} (h : BusEffect s t) :
    (t.res = ResultRegs.zero ∧ t.err = ErrRegs.zero ∧ t.done = false) ∨
      (t.phase = s.phase ∧ t.res = s.res ∧ t.err = s.err ∧ (t.done = true → s.done = true)) := by
  cases h with
  | start b =>
    cases hp : s.phase with
    | idle => simp [startCommand_idle hp]
    | busy => simp [startCommand_busy hp, hp]
  | softReset => exact .inl ⟨softReset_res s, softReset_err s, softReset_done s⟩
  | ack a b c => exact .inr ⟨rfl, rfl, rfl, by simp +contextual⟩
  | _ => exact .inr ⟨rfl, rfl, rfl, id⟩

theorem step_report {s t : State} (hclear : s.BusyClear) (h : step s = .next t) : ReportStep s t := by
  rcases step_inv h with ⟨o, u, -, hp, hend, rfl⟩ | ⟨-, rfl⟩ | ⟨-, rfl⟩ | ⟨-, heff⟩
  · obtain ⟨hres, herr, -⟩ := hclear hp
    have hu : u.res = ResultRegs.zero ∧ u.err = ErrRegs.zero := by
      rw [hend.frame]
      exact ⟨hres, herr⟩
    cases o with
    | ok r => exact .result hend rfl (by rw [complete_ok_res, hu.1]) hu.2
    | error e => exact .error e rfl hu.1 rfl
  · exact .kept rfl rfl rfl id
  · exact .cleared rfl rfl rfl
  · rcases heff.report with ⟨hres, herr, hdone⟩ | ⟨hp, hres, herr, hdone⟩
    · exact .cleared hres herr hdone
    · exact .kept hp hres herr hdone

/-- Settles O52: a completion leaves the engine IDLE, and a step that leaves the registers leaves the phase. -/
theorem busyRegistersStayClear : Obligations.BusyRegistersStayClear := by
  intro s t hclear h hbusy
  cases step_report hclear h with
  | result hend hp | error e hp => rw [hp] at hbusy; cases hbusy
  | cleared hres herr hdone => exact ⟨hres, herr, hdone⟩
  | kept hp hres herr hdone =>
    obtain ⟨hres', herr', hdone'⟩ := hclear (hp ▸ hbusy)
    exact ⟨hres.trans hres', herr.trans herr', Bool.eq_false_iff.mpr fun hd => by simp [hdone hd] at hdone'⟩

/-- Settles O14: of the cases of a step only a completion sets DONE. -/
theorem doneRisesOnlyAtCompletion : Obligations.DoneRisesOnlyAtCompletion := by
  intro s t h h0 h1
  have rise : ¬ (t.done = true → s.done = true) := fun hd => by simp [hd h1] at h0
  rcases step_inv h with ⟨o, u, hturn, hp, -, rfl⟩ | ⟨-, rfl⟩ | ⟨-, rfl⟩ | ⟨-, heff⟩
  · exact ⟨hp, complete_phase o u, hturn⟩
  · exact absurd id rise
  · cases h1
  · rcases heff.report with ⟨-, -, hdone⟩ | ⟨-, -, -, hdone⟩
    · rw [hdone] at h1
      cases h1
    · exact absurd hdone rise

/-! ## Errors and results exclude each other -/

/-- Every error has a nonzero code, one of 30_encoding.md R115, and a stage of R116. -/
theorem code_ne_zero (n : ErrName) : n.code ≠ 0 := by cases n <;> decide

theorem named_regs (e : CmdError) : e.regs.Named := by
  constructor
  · show e.name.code ∈ _
    cases e.name <;> decide
  · show e.stage.code.toNat ≤ 6
    cases e.stage <;> decide

theorem named_zero : ErrRegs.zero.Named := by
  unfold ErrRegs.Named
  decide

/-- Settles O53: a result comes with cleared error registers, an error with cleared result registers. -/
theorem errorsExcludeResults : Obligations.ErrorsExcludeResults := by
  rintro s t ⟨hclear, hex, hnamed⟩ h
  have noError {u : State} (herr : u.err = ErrRegs.zero) : u.ErrorExcludesResult ∧ u.err.Named := by
    refine ⟨⟨fun hc => absurd (by rw [herr]; rfl) hc, fun _ => herr⟩, ?_⟩
    rw [herr]
    exact named_zero
  cases step_report hclear h with
  | result hend hp hres herr => exact noError herr
  | error e hp hres herr =>
    rw [State.ErrorExcludesResult, herr]
    exact ⟨⟨fun _ => hres, fun hc => absurd hc (code_ne_zero e.name)⟩, named_regs e⟩
  | cleared hres herr => exact noError herr
  | kept hp hres herr =>
    rw [State.ErrorExcludesResult, herr, hres]
    exact ⟨hex, hnamed⟩

/-! ## A completion is reported -/

/-- RESULT is 0 when none of its fields shows anything (10_state.md R25). -/
theorem resultWord_eq_zero_iff (r : ResultRegs) :
    r.resultWord = 0 ↔ r.stream = false ∧ r.img = false ∧ r.recKind = 0 := by
  unfold ResultRegs.resultWord
  generalize r.stream = stream, r.img = img, r.recKind = recKind
  revert stream img recKind
  decide

/-- Every result shows in RESULT (30_encoding.md R110). -/
theorem resultWord_writeRegs_ne_zero (r : CmdResult) (q : ResultRegs) : (r.writeRegs q).resultWord ≠ 0 := by
  have hrec (f : FileResult) (q : ResultRegs) : (f.writeRegs q).recKind ≠ 0 := by
    cases f with
    | binhex => exact show (1 : BitVec 2) ≠ 0 by decide
    | macbin => exact show (2 : BitVec 2) ≠ 0 by decide
  rw [Ne, resultWord_eq_zero_iff]
  rintro ⟨hstream, himg, hkind⟩
  cases r with
  | stream out => cases hstream
  | record f => exact hrec f _ hkind
  | image d => cases himg
  | recordImage f d => cases himg

/-- Settles O54: a result has error code 0 and shows in RESULT, an error has neither. -/
theorem completionsStayReported : Obligations.CompletionsStayReported := by
  rintro s t ⟨hclear, hrep⟩ h hd
  cases step_report hclear h with
  | result hend hp hres herr =>
    rw [herr, hres]
    exact iff_of_true rfl (resultWord_writeRegs_ne_zero _ _)
  | error e hp hres herr =>
    rw [herr, hres]
    exact iff_of_false (code_ne_zero e.name) (not_not.mpr resultWord_zero)
  | cleared hres herr hdone =>
    rw [hdone] at hd
    cases hd
  | kept hp hres herr hdone =>
    rw [herr, hres]
    exact hrep (hdone hd)

end Sys2Proof.Machine
end

section
/-! What a successful command delivers, and the registers and memories that it leaves (40_command_cycle.md R164,
10_state.md R25 to R41): the result registers stay consistent with RESULT and the output inside OUT_MEM. -/

namespace Sys2Proof.Machine

open Sys2Proof

/-! ## What a command's stages deliver -/

@[simp] theorem length_input (s : State) : s.input.length = s.latchLen.toNat := length_window _ _ _ _

/-- The outcome of a BinHex decode is that of its stages in turn (44_binhex.md R205 to R209). -/
theorem binhexDecode_outcome (s : State) :
    (binhexDecode s).2 = (do
      s.checkLength
      let q ← locatePayload s.input
      let s1 ← sixBit s.params q.2 q.1
      let x ← rle s.params.xsSize s1
      parseBinhex s.params x) := by
  by_cases hlen : s.latchLen.toNat ≤ s.params.inMemSize
  · rw [checkLength_ok hlen, ok_bind]
    cases hq : locatePayload s.input with
    | error e => rw [binhexDecode_textError hlen (e := e) (by rw [hq]; rfl), error_bind]
    | ok q =>
      rw [ok_bind]
      cases h1 : sixBit s.params q.2 q.1 with
      | error e => rw [binhexDecode_textError hlen (e := e) (by rw [hq]; exact h1), error_bind]
      | ok s1 =>
        rw [ok_bind]
        cases hx : rle s.params.xsSize s1 with
        | error e => rw [binhexDecode_rleError hlen hq h1 hx, error_bind]
        | ok x => rw [binhexDecode_parse hlen hq h1 hx, ok_bind]
  · rw [binhexDecode_badLength (by omega), checkLength_error (by omega), error_bind]

theorem map_ok_inv {α β : Type} {f : α → β} {x : Except CmdError α} {b : β} (h : x.map f = .ok b) :
    ∃ a, x = .ok a ∧ f a = b := by
  cases x with
  | error e => cases h
  | ok a => exact ⟨a, rfl, Except.ok.inj h⟩

theorem checkLength_inv {s : State} (h : s.checkLength = .ok ()) : s.latchLen.toNat ≤ s.params.inMemSize := by
  by_contra hlen
  rw [checkLength_error (by omega)] at h
  cases h

/-- What is known of a record that a command decoded: its name has a length byte, and its forks are bytes of IN_MEM
or of the expanded stream. -/
def FileResult.Fits (p : Params) (r : FileResult) : Prop :=
  r.file.name.length ≤ 255 ∧ r.file.data.length + r.file.rsrc.length ≤ max p.inMemSize p.xsSize

theorem binhexDecode_fits {s : State} {r : FileResult} (h : (binhexDecode s).2 = .ok r) : r.Fits s.params := by
  rw [binhexDecode_outcome] at h
  obtain ⟨-, -, h⟩ := bind_ok_inv h
  obtain ⟨q, -, h⟩ := bind_ok_inv h
  obtain ⟨s1, -, h⟩ := bind_ok_inv h
  obtain ⟨x, hx, h⟩ := bind_ok_inv h
  obtain ⟨f, a, b, c, rfl, hname, hforks⟩ := parseBinhex_inv h
  exact ⟨hname, le_max_of_le_right (hforks.trans (rle_length hx))⟩

theorem macbinDecode_fits {s : State} {r : FileResult} (h : macbinDecode s = .ok r) : r.Fits s.params := by
  obtain ⟨⟨⟩, hlen, h⟩ := bind_ok_inv h
  obtain ⟨f, rfl, hname, hforks⟩ := parseMacbinary_inv h
  rw [length_input] at hforks
  exact ⟨hname.trans (by decide), le_max_of_le_left (hforks.trans (checkLength_inv hlen))⟩

/-- What is known of the result of a successful command. -/
def CmdResult.Fits (p : Params) : CmdResult → Prop
  | .stream out => p.Legal → out.length ≤ p.outMemSize
  | .record r => r.Fits p
  | .image d => d.data.length ∈ imageSizes
  | .recordImage r d => r.Fits p ∧ d.data.length ∈ imageSizes

theorem length_diskData {b : Bytes} (h : DiskCopyOk b) : (diskData b).length = be32At b 0x40 := by
  obtain ⟨-, -, -, -, hend⟩ := h
  rw [diskData, List.length_take, List.length_drop]
  omega

/-- The sectors of an image fill one of the three sizes (30_encoding.md R155). -/
theorem diskCopy_size {b : Bytes} {d : DiskImage} (h : diskCopy b = .ok d) : d.data.length ∈ imageSizes := by
  obtain ⟨hok, rfl⟩ := diskCopy_inv h
  obtain ⟨-, -, -, hsize, -⟩ := id hok
  rw [length_diskData hok]
  simpa [imageSizes] using hsize

theorem thenDiskCopy_fits {p : Params} {o : Except CmdError FileResult} {r : CmdResult}
    (ho : ∀ f, o = .ok f → f.Fits p) (h : thenDiskCopy o = .ok r) : r.Fits p := by
  cases o with
  | error e => cases h
  | ok f =>
    rw [thenDiskCopy_ok] at h
    obtain ⟨d, hd, rfl⟩ := map_ok_inv h
    exact ⟨ho f rfl, diskCopy_size hd⟩

/-- Every successful command's result fits. -/
theorem CommandEnd.fits {s t : State} {r : CmdResult} (h : CommandEnd s (.ok r) t) : r.Fits s.params := by
  generalize ho : (Except.ok r : Except CmdError CmdResult) = o at h
  replace ho := ho.symm
  cases h with
  | sixbit =>
    obtain ⟨⟨⟩, hlen, h⟩ := bind_ok_inv ho
    obtain ⟨out, hout, h⟩ := bind_ok_inv h
    cases h
    obtain ⟨-, -, hfits⟩ := sixbitOutputLength _ _ _ _ hout
    exact fun hlegal => (hfits hlegal (length_input s ▸ checkLength_inv hlen)).2
  | rle =>
    obtain ⟨-, -, h⟩ := bind_ok_inv ho
    obtain ⟨out, hout, h⟩ := bind_ok_inv h
    cases h
    exact fun _ => rle_length hout
  | binhex =>
    obtain ⟨f, hf, rfl⟩ := map_ok_inv ho
    exact binhexDecode_fits hf
  | macbin =>
    obtain ⟨f, hf, rfl⟩ := map_ok_inv ho
    exact macbinDecode_fits hf
  | dsk =>
    obtain ⟨-, -, h⟩ := bind_ok_inv ho
    obtain ⟨d, hd, h⟩ := bind_ok_inv h
    cases h
    exact diskCopy_size hd
  | binhexDsk => exact thenDiskCopy_fits (fun _ => binhexDecode_fits) ho
  | macbinDsk => exact thenDiskCopy_fits (fun _ => macbinDecode_fits) ho
  | reserved op => cases ho

/-! ## The shape of the result registers -/

/-- A window shows 0 beyond the bytes it holds (10_state.md R40). -/
theorem windowOf_beyond {n i : Nat} {bs : Bytes} (hi : i < n) (h : bs.length ≤ i) : (windowOf n bs)[i] = 0 := by
  simp [windowOf, List.getElem?_eq_none h]

/-- The cleared registers are consistent, whatever OUT_LEN. -/
theorem shaped_zero (n : Word) : ResultRegs.Shaped { ResultRegs.zero with outLen := n } := by
  refine ⟨show (0 : BitVec 2) ≠ 3 by decide, fun _ => ⟨rfl, rfl, rfl, rfl, rfl, rfl, rfl⟩,
    fun _ => ⟨rfl, rfl, rfl⟩, fun _ => ⟨rfl, rfl⟩, fun h => Bool.noConfusion (show false = true from h),
    fun i _ => ?_⟩
  simp [ResultRegs.zero]

/-- A record's fields, written where none stood, leave the image's, and its name ends where NAME_LEN says
(10_state.md R40). -/
theorem FileResult.shaped_writeRegs {r : FileResult} (hr : r.file.name.length ≤ 255) {q : ResultRegs}
    (hq : q.Shaped) (hkind : q.recKind = 0) : (r.writeRegs q).Shaped := by
  obtain ⟨-, -, hcrc, hnoImg, himg, -⟩ := hq
  have hname (i : Fin 64) (hi : (BitVec.ofNat 8 r.file.name.length).toNat ≤ i.val) :
      (windowOf 64 r.file.name)[i.val] = 0 := by
    rw [BitVec.toNat_ofNat, Nat.mod_eq_of_lt (by omega)] at hi
    exact windowOf_beyond i.isLt hi
  cases r with
  | binhex f h d c =>
    exact ⟨show (1 : BitVec 2) ≠ 3 by decide, fun h => absurd h (show (1 : BitVec 2) ≠ 0 by decide),
      fun h => absurd rfl h, hnoImg, himg, hname⟩
  | macbin f =>
    have hnoBinhex : q.recKind ≠ 1 := by
      rw [hkind]
      decide
    exact ⟨show (2 : BitVec 2) ≠ 3 by decide, fun h => absurd h (show (2 : BitVec 2) ≠ 0 by decide),
      fun _ => hcrc hnoBinhex, hnoImg, himg, hname⟩

/-- An image's fields leave the record's; its size is OUT_LEN and one of the three (46_diskcopy.md R237). -/
theorem DiskImage.shaped_writeRegs {d : DiskImage} (hd : d.data.length ∈ imageSizes) {q : ResultRegs}
    (hq : q.Shaped) (hout : q.outLen = BitVec.ofNat 32 d.data.length) : (d.writeRegs q).Shaped := by
  obtain ⟨hkind, hnoRec, hcrc, -, -, hname⟩ := hq
  refine ⟨hkind, hnoRec, hcrc, fun h => Bool.noConfusion (show true = false from h),
    fun _ => ⟨hout.symm, ?_⟩, hname⟩
  show (BitVec.ofNat 32 d.data.length).toNat ∈ imageSizes
  have hlt : ∀ n ∈ imageSizes, n < 2 ^ 32 := by decide
  rwa [BitVec.toNat_ofNat, Nat.mod_eq_of_lt (hlt _ hd)]

/-- A result written over cleared registers leaves them consistent. -/
theorem CmdResult.shaped_writeRegs {p : Params} {r : CmdResult} (h : r.Fits p) :
    (r.writeRegs ResultRegs.zero).Shaped := by
  cases r with
  | stream out => exact shaped_zero _
  | record f => exact FileResult.shaped_writeRegs h.1 (shaped_zero _) rfl
  | image d => exact DiskImage.shaped_writeRegs h (shaped_zero _) rfl
  | recordImage f d =>
    obtain ⟨⟨hname, -⟩, hsize⟩ := h
    refine DiskImage.shaped_writeRegs hsize (FileResult.shaped_writeRegs hname (shaped_zero _) rfl) ?_
    cases f <;> rfl

/-- Settles O55: a completion writes its result over cleared registers, and no other step writes a nonzero one. -/
theorem resultRegistersStayShaped : Obligations.ResultRegistersStayShaped := by
  rintro s t ⟨hclear, hshaped⟩ h
  cases step_report hclear h with
  | result hend hp hres =>
    rw [hres]
    exact CmdResult.shaped_writeRegs hend.fits
  | error e hp hres | cleared hres =>
    rw [hres]
    exact shaped_zero 0
  | kept hp hres =>
    rw [hres]
    exact hshaped

/-! ## The sizes of the memories -/

/-- No step changes the parameters (log entry 1). -/
theorem BusEffect.params {s t : State} (h : BusEffect s t) : t.params = s.params := by
  cases h with
  | start b => exact startCommand_params b s
  | softReset => exact softReset_params s
  | _ => rfl

/-- A bus access changes IN_MEM by a write inside it, while IDLE, or not at all (20_memory.md R84). -/
theorem BusEffect.inMem_cases {s t : State} (h : BusEffect s t) :
    t.inMem = s.inMem ∨ ∃ k bs, k + bs.length ≤ s.params.inMemSize ∧ t.inMem = s.inMem.writeBytes k bs := by
  cases h with
  | inMem k bs _ _ _ hin => exact .inr ⟨k, bs, hin, rfl⟩
  | start b => exact .inl (startCommand_inMem b s)
  | softReset => exact .inl (softReset_inMem s)
  | _ => exact .inl rfl

/-- A bus access changes OUT_MEM by a soft reset or not at all (20_memory.md R85). -/
theorem BusEffect.outMem_cases {s t : State} (h : BusEffect s t) :
    t.outMem = s.outMem ∨ t.outMem = Memory.empty := by
  cases h with
  | start b => exact .inl (startCommand_outMem b s)
  | softReset =>
    rw [softReset_outMem]
    split_ifs
    · exact .inr rfl
    · exact .inl rfl
  | _ => exact .inl rfl

/-- Nothing is listed in an empty memory. -/
theorem forall_mem_empty {q : Host.Cell → Prop} : ∀ c ∈ Memory.empty.cells, q c := fun _ h => nomatch h

theorem BusEffect.withinMemories {s t : State} (h : BusEffect s t) (hs : s.WithinMemories) : t.WithinMemories := by
  obtain ⟨hlen, hin, hout⟩ := hs
  rw [State.WithinMemories, h.params]
  refine ⟨?outLen, ?inMem, ?outMem⟩
  case outLen =>
    rcases h.report with ⟨hres, -⟩ | ⟨-, hres, -⟩ <;> rw [hres]
    · exact Nat.zero_le _
    · exact hlen
  case inMem =>
    rcases h.inMem_cases with heq | ⟨k, bs, hfit, heq⟩ <;> rw [heq]
    · exact hin
    · intro c hc
      rcases mem_writeBytes bs hc with hc | ⟨-, hc⟩
      · exact hin c hc
      · omega
  case outMem =>
    rcases h.outMem_cases with heq | heq <;> rw [heq]
    · exact hout
    · exact forall_mem_empty

/-- The output of a command fits OUT_MEM (00_scope.md R7). -/
theorem CmdResult.length_out_le {p : Params} (hp : p.Legal) {r : CmdResult} (h : r.Fits p) :
    r.out.length ≤ p.outMemSize := by
  obtain ⟨-, ⟨-, hxs⟩, ⟨hin, -, -, himage, -⟩, -, -⟩ := id hp
  have image {d : DiskImage} (hd : d.data.length ∈ imageSizes) : d.data.length ≤ p.outMemSize := by
    have hmax : ∀ n ∈ imageSizes, n ≤ 1474560 := by decide
    exact (hmax _ hd).trans himage
  cases r with
  | stream out => exact h hp
  | record f =>
    rw [CmdResult.out, List.length_append]
    exact h.2.trans (max_le hin hxs)
  | image d => exact image h
  | recordImage f d => exact image h.2

/-- OUT_LEN counts the output (10_state.md R26, 40_command_cycle.md R164). -/
theorem CmdResult.outLen_writeRegs (r : CmdResult) (q : ResultRegs) :
    (r.writeRegs q).outLen = BitVec.ofNat 32 r.out.length := by
  cases r with
  | record f | recordImage f => cases f <;> rfl
  | _ => rfl

theorem complete_withinMemories {s : State} {o : Except CmdError CmdResult}
    (ho : ∀ r, o = .ok r → r.out.length ≤ s.params.outMemSize) (hs : s.WithinMemories) :
    (complete o s).WithinMemories := by
  obtain ⟨hlen, hin, -⟩ := hs
  cases o with
  | error e => exact ⟨hlen, hin, forall_mem_empty⟩
  | ok r =>
    have hfit := ho r rfl
    refine ⟨?_, hin, fun c hc => (mem_ofBytes hc).trans_le hfit⟩
    rw [complete_ok_res, CmdResult.outLen_writeRegs, BitVec.toNat_ofNat]
    exact (Nat.mod_le _ _).trans hfit

/-- Settles O56: a completion's output fits, a host write stays inside IN_MEM, and the resets list nothing. -/
theorem outputStaysWithinMemory : Obligations.OutputStaysWithinMemory := by
  intro s t hlegal hs h
  rcases step_inv h with ⟨o, u, -, -, hend, rfl⟩ | ⟨-, rfl⟩ | ⟨-, rfl⟩ | ⟨-, heff⟩
  · have hparams : u.params = s.params := by rw [hend.frame, advance_params]
    have hu : u.WithinMemories := by
      rw [hend.frame]
      exact hs
    refine ⟨complete_withinMemories (fun r hr => ?_) hu, by rw [complete_params, hparams]⟩
    subst hr
    rw [hparams]
    exact CmdResult.length_out_le hlegal hend.fits
  · exact ⟨hs, rfl⟩
  · exact ⟨⟨Nat.zero_le _, forall_mem_empty, forall_mem_empty⟩, rfl⟩
  · exact ⟨heff.withinMemories hs, heff.params⟩

/-! ## The reset state -/

/-- Settles O57: everything that the invariants speak of is empty or 0 at reset. -/
theorem resetMeetsInvariants : Obligations.ResetMeetsInvariants := by
  have hbusy : State.reset.BusyClear := fun h => Phase.noConfusion (show Phase.idle = .busy from h)
  have hreported : State.reset.CompletionReported := fun h => Bool.noConfusion (show false = true from h)
  exact ⟨⟨wf_empty, wf_empty, wf_empty, wf_empty⟩, hbusy, ⟨fun h => absurd rfl h, fun _ => rfl⟩,
    hreported, shaped_zero 0, named_zero, Nat.zero_le _, forall_mem_empty, forall_mem_empty⟩

end Sys2Proof.Machine
end

section
/-! STATUS, the resets and the register block (10_state.md R16 to R46, 60_exceptions.md R308, 70_reset_and_hazards.md
R340 to R342): what each register reads, and which writes change one. -/

namespace Sys2Proof.Machine

open Sys2Proof

/-! ## STATUS -/

/-- Settles O11: each acknowledge bit clears its own status bit. -/
theorem statusWriteClearsBits : Obligations.StatusWriteClearsBits := by
  intro s d a w
  have clears (b c : Bool) : (b && !c) = if c then false else b := by cases c <;> simp
  rw [← clears, ← clears, ← clears]
  rfl

/-- Settles O12: the bits of STATUS in the order in which its word joins them. -/
theorem statusWordBits : Obligations.StatusWordBits := by
  intro s k
  simp only [readReg, State.statusWord, BitVec.getLsbD_setWidth, BitVec.getLsbD_append]
  match k with
  | 0 | 1 | 2 | 3 | 4 | 5 => simp [State.busy, State.errFlag, State.irq]
  | k + 6 => simp

/-! ## The resets -/

/-- IN_MEM reads the same where neither its bytes nor its free values changed (10_state.md R34). -/
theorem inByte_congr {s t : State} (hm : t.inMem = s.inMem) (he : t.inEpoch = s.inEpoch) (k : Nat) :
    t.inByte k = s.inByte k := by
  rw [State.inByte, State.inByte, hm, he]

/-- Every register reads its reset value after a soft reset (70_reset_and_hazards.md R341). -/
theorem readReg_softReset (s : State) (r : RegName) : readReg r (softReset s) = resetValue s.params r := by
  rw [readReg_cleared (softReset_phase s) (softReset_ie s) (softReset_cmdOp s) (softReset_inLen s)
    (softReset_done s) (softReset_accErr s) (softReset_wrBusy s) (softReset_err s) (softReset_res s),
    softReset_params]

/-- Settles O10: the soft reset in its two phases, and what its registers and memories then read. -/
theorem softResetEffect : Obligations.SoftResetEffect := by
  intro s start ie
  refine ⟨softReset s, rfl, ?whole, inByte_congr (softReset_inMem s) (softReset_inEpoch s), fun hp k => ?outByte,
    readReg_softReset s, fun a h1 h2 => byteSeen_zero (softReset_res s) h1 h2⟩
  case whole => cases hp : s.phase <;> simp only [softReset, hp] <;> rfl
  case outByte => simp only [softReset, hp]; rfl

/-- Settles O15: a hard reset clears the registers as a soft one does and lists no byte of a memory. -/
theorem hardResetLeavesResetState : Obligations.HardResetLeavesResetState := by
  intro s rest h
  refine ⟨_, step_of_hardReset h, fun r => readReg_cleared rfl rfl rfl rfl rfl rfl rfl rfl rfl r, rfl, rfl, rfl, rfl,
    fun a h1 h2 => byteSeen_zero rfl h1 h2, fun k => rfl, fun k => rfl, rfl, rfl, rfl, ?_⟩
  rw [hardReset_agenda, advance_agenda, h]
  rfl

/-- The default alphabet's characters: none stands twice, and none is whitespace or a colon (30_encoding.md R127). -/
theorem defaultAlphabet_ok : Params.default.AlphabetOk := by
  have hnodup : (Params.defaultAlphabet.map BitVec.toNat).Nodup := by decide
  have hblank : ∀ n ∈ Params.defaultAlphabet.map BitVec.toNat, n ∉ Params.default.whitespace.map BitVec.toNat := by
    decide
  exact ⟨rfl, hnodup.of_map _, fun b hb hw => hblank _ (List.mem_map_of_mem hb) (List.mem_map_of_mem hw), by decide⟩

theorem defaultParams_legal : Params.default.Legal :=
  ⟨by decide, by decide, by decide, defaultAlphabet_ok, by decide⟩

/-- Settles O16: the registers by what a cleared state reads, the default parameters check by check. -/
theorem resetStateReads : Obligations.ResetStateReads :=
  ⟨fun r => readReg_cleared rfl rfl rfl rfl rfl rfl rfl rfl rfl r, rfl, rfl, rfl, rfl, rfl, defaultParams_legal⟩

/-! ## The fields of the registers -/

theorem ctrlWord_eq (s : State) : s.ctrlWord = BitVec.ofNat 32 (2 * s.ie.toNat) := by
  unfold State.ctrlWord
  cases s.ie <;> rfl

theorem statusWord_eq (s : State) :
    s.statusWord = BitVec.ofNat 32 ((decide (s.phase = .busy)).toNat + 2 * s.done.toNat +
      4 * (decide (s.err.code ≠ 0)).toNat + 8 * s.accErr.toNat + 16 * s.wrBusy.toNat +
      32 * (s.done && s.ie).toNat) := by
  unfold State.statusWord State.busy State.errFlag State.irq
  generalize decide (s.phase = .busy) = busy, decide (s.err.code ≠ 0) = err, s.ie = ie, s.done = done,
    s.accErr = accErr, s.wrBusy = wrBusy
  revert busy err ie done accErr wrBusy
  decide

theorem infoWord_eq (e : ErrRegs) : e.infoWord = BitVec.ofNat 32 (e.detail.toNat + 2 ^ 8 * e.stage.toNat) := by
  have hd := e.detail.isLt
  have hs := e.stage.isLt
  apply BitVec.eq_of_toNat_eq
  rw [ErrRegs.infoWord, BitVec.toNat_setWidth, BitVec.toNat_append, BitVec.toNat_ofNat,
    ← Nat.shiftLeft_add_eq_or_of_lt hd, Nat.shiftLeft_eq, Nat.add_comm, Nat.mul_comm]

theorem resultWord_eq (r : ResultRegs) :
    r.resultWord = BitVec.ofNat 32 (r.recKind.toNat + 2 ^ 2 * r.img.toNat + 2 ^ 3 * r.stream.toNat) := by
  unfold ResultRegs.resultWord
  generalize r.stream = stream, r.img = img, r.recKind = recKind
  revert stream img recKind
  decide

/-! ## Writes -/

/-- The registers that a write can change stand together, at 0x14 to 0x20 (10_state.md R16). -/
theorem regAt_writable {a : Nat} {r : RegName} (h : regAt a = some r)
    (hr : r ∈ [RegName.ctrl, .cmd, .inLen, .status]) : 0x14 ≤ a ∧ a ≤ 0x20 := by
  unfold regAt at h
  split at h <;> cases h <;> revert hr <;> decide

theorem writeReg_readOnly {r : RegName} (hr : r ∉ [RegName.ctrl, .cmd, .inLen, .status]) (v : Word) (s : State) :
    writeReg r v s = s := by
  cases r with
  | ctrl | cmd | inLen | status => exact absurd (by decide) hr
  | _ => rfl

/-- A write of a register that takes none, or of no register, is ignored (20_memory.md R82). -/
theorem step_write_readOnly {s : State} {a v : Word} {rest : List Event} (h : s.agenda = .host (.w32 a v) :: rest)
    (hlt : a.toNat < 0x100) (h4 : a.toNat % 4 = 0)
    (hr : ∀ r, regAt a.toNat = some r → r ∉ [RegName.ctrl, .cmd, .inLen, .status]) :
    step s = .next { s with agenda := rest } := by
  cases ha : regAt a.toNat with
  | some r => rw [step_write_register h ha, writeReg_readOnly (hr r ha)]
  | none => simp only [step_of_host h, hostAccess_w32_reg _ hlt h4, busWrite, region_reg _ hlt, ha]

/-- Settles O24: each row of the map is a register with its layout, and a read-only offset is none that a write can
change. -/
theorem registerReadsAndReadOnlyWrites : Obligations.RegisterReadsAndReadOnlyWrites := by
  refine ⟨fun s a c rest hac h => ?read, fun s a v rest ha h4 h => ?write⟩
  case read =>
    have hreg : ∃ r, regAt a.toNat = some r ∧ readReg r s = c := by
      clear h
      revert a c
      refine (Prod.forall (p := fun q : Word × Word =>
        q ∈ _ → ∃ r, regAt q.1.toNat = some r ∧ readReg r s = q.2)).mp ?_
      simp only [List.forall_mem_cons]
      have widened {n : Nat} (v : BitVec n) : v.setWidth 32 = BitVec.ofNat 32 v.toNat :=
        (BitVec.ofNat_toNat 32 v).symm
      exact ⟨⟨.id, rfl, rfl⟩, ⟨.version, rfl, rfl⟩, ⟨.capIn, rfl, rfl⟩, ⟨.capOut, rfl, rfl⟩, ⟨.capXs, rfl, rfl⟩,
        ⟨.ctrl, rfl, ctrlWord_eq s⟩, ⟨.cmd, rfl, widened _⟩, ⟨.inLen, rfl, rfl⟩, ⟨.status, rfl, statusWord_eq s⟩,
        ⟨.errCode, rfl, widened _⟩, ⟨.errPos, rfl, rfl⟩, ⟨.errInfo, rfl, infoWord_eq _⟩,
        ⟨.result, rfl, resultWord_eq _⟩, ⟨.outLen, rfl, rfl⟩, ⟨.dforkLen, rfl, rfl⟩, ⟨.rforkLen, rfl, rfl⟩,
        ⟨.nameLen, rfl, widened _⟩, ⟨.ftype, rfl, rfl⟩, ⟨.fcreator, rfl, rfl⟩, ⟨.fflags, rfl, widened _⟩,
        ⟨.hcrc, rfl, widened _⟩, ⟨.dcrc, rfl, widened _⟩, ⟨.rcrc, rfl, widened _⟩, ⟨.imgSize, rfl, rfl⟩,
        fun _ h => nomatch h⟩
    obtain ⟨r, hr, hread⟩ := hreg
    rw [step_read_register h hr, hread]
  case write =>
    refine step_write_readOnly h (by omega) h4 fun r hr hw => ?_
    have := regAt_writable hr hw
    omega

/-- Settles O25: the two registers, at 0x18 and 0x1C, take the word while IDLE; CMD keeps the bits of its mask. -/
theorem cmdAndInLenWrites : Obligations.CmdAndInLenWrites := by
  intro s v rest hp
  refine ⟨fun h => ⟨?cmd, setWidth_extractOp v⟩, fun h => ⟨?inLen, rfl⟩⟩
  case cmd => simp only [step_write_register (r := .cmd) h rfl, writeReg, unlessBusy, hp]
  case inLen => simp only [step_write_register (r := .inLen) h rfl, writeReg, unlessBusy, hp]

end Sys2Proof.Machine
end

section
/-! The host's accesses at large (20_memory.md R81 to R94): which are legal, what a read leaves, OUT_MEM, and what no
access changes but START, SRST and a write of IN_MEM. -/

namespace Sys2Proof.Machine

open Sys2Proof

/-! ## The legal accesses -/

/-- The model allows what the table of 20_memory.md R81, R82 does; IN ends where OUT begins (00_scope.md R7). -/
theorem legalAccess_of_specLegal {p : Params} (hp : p.Legal) {w : Width} {a : Nat} (h : SpecLegal p w a) :
    legalAccess p w a = true := by
  obtain ⟨⟨-, hin⟩, -⟩ := hp
  have atIn (h1 : 0x1000000 ≤ a) (h2 : a < 0x1000000 + p.inMemSize) : region p a = .inMem (a - 0x1000000) :=
    region_inMem (by omega) (by omega)
  have atOut (h1 : 0x2000000 ≤ a) (h2 : a < 0x2000000 + p.outMemSize) : region p a = .outMem (a - 0x2000000) :=
    region_outMem hin (by omega) (by omega)
  rcases h with ⟨hlt, rfl, h4⟩ | ⟨hlo, hhi, hw⟩ | ⟨hlo, rfl, hhi⟩ | ⟨hlo, rfl, h4, hhi⟩ | ⟨hlo, rfl, hhi⟩ |
    ⟨hlo, rfl, h4, hhi⟩
  · exact (legalAccess_reg p _ hlt).mpr ⟨rfl, h4⟩
  · exact (legalAccess_window p w hlo hhi).mpr hw
  · exact (legalAccess_inMem (atIn hlo hhi) _).mpr (.inl rfl)
  · exact (legalAccess_inMem (atIn hlo (by omega)) _).mpr (.inr ⟨h4, by omega⟩)
  · exact (legalAccess_outMem (atOut hlo hhi) _).mpr (.inl rfl)
  · exact (legalAccess_outMem (atOut hlo (by omega)) _).mpr (.inr ⟨h4, by omega⟩)

/-- Settles O17: the two directions. -/
theorem legalAccesses : Obligations.LegalAccesses :=
  fun _ _ _ hp => ⟨specLegal_of_legalAccess, legalAccess_of_specLegal hp⟩

/-! ## Reads -/

theorem hostAccess_read {x : HostAccess} (hx : isHostRead x = true) {s : State}
    (hl : legalAccess s.params (hostWidth x) (hostAddr x) = true) :
    hostAccess x s = busRead (hostWidth x) (hostAddr x) s := by
  cases x with
  | r8 a | r32 a => exact if_pos hl
  | w8 | w32 => cases hx

/-- An access of OUT lies at OUT's addresses (20_memory.md R81). -/
theorem region_outMem_inv {p : Params} {a k : Nat} (h : region p a = .outMem k) :
    a = 0x2000000 + k ∧ k < p.outMemSize := by
  rcases region_cases p a with ⟨-, hr⟩ | ⟨hlo, hhi⟩ | ⟨j, -, -, hr⟩ | ⟨j, ha, hj, hr⟩ | hr
  · cases hr.symm.trans h
  · exact absurd h (region_window_ne_outMem p hlo hhi k)
  · cases hr.symm.trans h
  · cases hr.symm.trans h
    exact ⟨ha, hj⟩
  · cases hr.symm.trans h

/-- A read while IDLE draws no free value (log entry 10). -/
theorem busRead_idle {s : State} (hp : s.phase = .idle) (w : Width) (a : Nat) :
    busRead w a s = { s with readData := busValue s w a } := by
  unfold busRead
  rw [hp]
  split
  · contradiction
  · rfl

/-- A read of OUT_MEM while BUSY uses up one draw (20_memory.md R85). -/
theorem busRead_outMem_busy {s : State} {a k : Nat} (hr : region s.params a = .outMem k) (hp : s.phase = .busy)
    (w : Width) :
    busRead w a s = { s with readData := busValue s w a, busyDraws := s.busyDraws + 1 } := by
  unfold busRead
  rw [hr, hp]

/-- Settles O28: an illegal read by its one equation, a legal one by whether it draws. -/
theorem readsHaveNoSideEffect : Obligations.ReadsHaveNoSideEffect := by
  intro s t x rest h hx hstep
  rw [step_of_host h] at hstep
  obtain rfl := Host.Outcome.next.inj hstep
  cases hl : legalAccess s.params (hostWidth x) (hostAddr x) with
  | false =>
    rw [hostAccess_of_illegal (s := { s with agenda := rest }) hl, hx]
    exact ⟨rfl, (fun h => nomatch h), fun _ => ⟨rfl, rfl, rfl⟩, fun _ => rfl, fun _ _ _ h => nomatch h⟩
  | true =>
    rw [hostAccess_read hx (s := { s with agenda := rest }) hl]
    refine ⟨rfl, fun _ => rfl, (fun h => nomatch h), fun hnone => ?noDraw, fun hlegal hp hlo _ => ?draw⟩
    case noDraw =>
      rcases hnone with hp | hlt
      · rw [busRead_idle (s := { s with agenda := rest }) hp]
      · have hout (k : Nat) : region s.params (hostAddr x) ≠ .outMem k := fun hr => by
          obtain ⟨ha, -⟩ := region_outMem_inv hr
          omega
        rw [busRead_of_ne_outMem (s := { s with agenda := rest }) hout]
    case draw =>
      obtain ⟨⟨-, hin⟩, -⟩ := hlegal
      have hr : region s.params (hostAddr x) = .outMem (hostAddr x - 0x2000000) := by
        refine region_outMem hin (by omega) ?_
        rcases specLegal_of_legalAccess hl with h | h | h | h | h | h <;> omega
      rw [busRead_outMem_busy (s := { s with agenda := rest }) hr hp]

/-! ## OUT_MEM -/

/-- The specified bytes of OUT_MEM after a success are the output; the others are free values of the new epoch
(10_state.md R35). -/
theorem outByte_afterResult (s : State) (out : Bytes) (res : ResultRegs) (k : Nat) :
    (s.afterResult out res).outByte k = out[k]?.getD (Config.unspecOutByte (s.outEpoch + 1) k) :=
  Memory.read_ofBytes _ out k

theorem outByteSeen_idle {s : State} (hp : s.phase = .idle) (k : Nat) : s.outByteSeen k = s.outByte k := by
  simp only [State.outByteSeen, hp]

theorem outByteSeen_busy {s : State} (hp : s.phase = .busy) (k : Nat) :
    s.outByteSeen k = Config.busyOutByte s.busyDraws k := by
  simp only [State.outByteSeen, hp]

theorem byteSeen_outMem (s : State) {a k : Nat} (hp : s.params.inMemSize ≤ 0x1000000) (ha : a = 0x2000000 + k)
    (hk : k < s.params.outMemSize) : byteSeen s a = s.outByteSeen k := by
  simp only [byteSeen, region_outMem hp ha hk]

/-- OUT_MEM ignores writes (20_memory.md R82). -/
theorem busWrite_outMem {s : State} {a k : Nat} (hr : region s.params a = .outMem k) (bs : Bytes) (v : Word) :
    busWrite a bs v s = s := by
  simp only [busWrite, hr]

/-- What a read returns does not depend on what the agents do next. -/
@[simp] theorem busValue_agenda (s : State) (es : List Event) (w : Width) (a : Nat) :
    busValue { s with agenda := es } w a = busValue s w a := by
  simp only [busValue, readReg_agenda, byteSeen_agenda]

/-- A step that reads legally, in the two phases that OUT_MEM tells apart. -/
theorem step_read_idle {s : State} {x : HostAccess} {rest : List Event} (h : s.agenda = .host x :: rest)
    (hx : isHostRead x = true) (hl : legalAccess s.params (hostWidth x) (hostAddr x) = true)
    (hp : s.phase = .idle) :
    step s = .next { s with agenda := rest, readData := busValue s (hostWidth x) (hostAddr x) } := by
  rw [step_of_host h, hostAccess_read hx (s := { s with agenda := rest }) hl,
    busRead_idle (s := { s with agenda := rest }) hp, busValue_agenda]

theorem step_read_outMem_busy {s : State} {x : HostAccess} {k : Nat} {rest : List Event}
    (h : s.agenda = .host x :: rest) (hx : isHostRead x = true)
    (hl : legalAccess s.params (hostWidth x) (hostAddr x) = true) (hr : region s.params (hostAddr x) = .outMem k)
    (hp : s.phase = .busy) :
    step s = .next { s with
      agenda := rest, readData := busValue s (hostWidth x) (hostAddr x), busyDraws := s.busyDraws + 1 } := by
  rw [step_of_host h, hostAccess_read hx (s := { s with agenda := rest }) hl,
    busRead_outMem_busy (s := { s with agenda := rest }) hr hp, busValue_agenda]

/-- Settles O20: the bytes after a success by the list that holds them, reads by the phase, and writes ignored. -/
theorem outMemHostAccess : Obligations.OutMemHostAccess := by
  refine ⟨fun s out res => ⟨fun k hk => ?inside, fun k hk => ?beyond⟩, fun s a k rest hlegal ha => ?_⟩
  case inside => rw [outByte_afterResult, List.getElem?_eq_getElem hk, Option.getD_some]
  case beyond => rw [outByte_afterResult, List.getElem?_eq_none hk, Option.getD_none]
  obtain ⟨⟨-, hin⟩, -⟩ := hlegal
  have hlo : 0x100 ≤ a.toNat := by omega
  have hregion (hk : k < s.params.outMemSize) : region s.params a.toNat = .outMem k := region_outMem hin ha hk
  have hbyte (hk : k < s.params.outMemSize) : legalAccess s.params .byte a.toNat = true :=
    (legalAccess_outMem (hregion hk) .byte).mpr (.inl rfl)
  have hword (h4 : k % 4 = 0) (hk : k + 4 ≤ s.params.outMemSize) : legalAccess s.params .word a.toNat = true :=
    (legalAccess_outMem (hregion (by omega)) .word).mpr (.inr ⟨by omega, hk⟩)
  have seen (j : Nat) (hj : k + j < s.params.outMemSize) : byteSeen s (a.toNat + j) = s.outByteSeen (k + j) :=
    byteSeen_outMem s hin (by omega) hj
  have value_byte (hk : k < s.params.outMemSize) : busValue s .byte a.toNat = (s.outByteSeen k).setWidth 32 := by
    rw [busValue_byte _ hlo]
    exact congrArg (BitVec.setWidth 32) (seen 0 hk)
  have value_word (hk : k + 4 ≤ s.params.outMemSize) :
      (busValue s .word a.toNat).toNat =
        leNat (s.outByteSeen k) (s.outByteSeen (k + 1)) (s.outByteSeen (k + 2)) (s.outByteSeen (k + 3)) := by
    rw [busValue_word _ hlo, toNat_lanes, seen 1 (by omega), seen 2 (by omega), seen 3 (by omega)]
    exact congrArg (leNat · _ _ _) (seen 0 (by omega))
  refine ⟨fun h hk => ⟨fun hp => ?byteIdle, fun hp => ?byteBusy⟩, fun h h4 hk => ?word, fun v h hk => ?writeByte,
    fun v h h4 hk => ?writeWord⟩
  case byteIdle =>
    rw [step_read_idle h rfl (hbyte hk) hp, ← outByteSeen_idle hp, ← value_byte hk]
    rfl
  case byteBusy =>
    rw [step_read_outMem_busy h rfl (hbyte hk) (hregion hk) hp, ← outByteSeen_busy hp, ← value_byte hk]
    rfl
  case word =>
    have hphase : s.phase = .idle ∨ s.phase = .busy := by cases s.phase <;> simp
    rcases hphase with hp | hp
    · simp only [← outByteSeen_idle hp]
      exact ⟨_, step_read_idle h rfl (hword h4 hk) hp, fun _ => ⟨rfl, value_word hk⟩,
        fun hb => absurd (hp.symm.trans hb) Phase.noConfusion⟩
    · simp only [← outByteSeen_busy hp]
      exact ⟨_, step_read_outMem_busy h rfl (hword h4 hk) (hregion (by omega)) hp,
        fun hi => absurd (hp.symm.trans hi) Phase.noConfusion, fun _ => ⟨rfl, value_word hk⟩⟩
  case writeByte => rw [step_write_byte h (hbyte hk), busWrite_outMem (s := { s with agenda := rest }) (hregion hk)]
  case writeWord =>
    rw [step_write_word h (hword h4 hk), busWrite_outMem (s := { s with agenda := rest }) (hregion (by omega))]

end Sys2Proof.Machine
end

section
/-! What a host transaction does where (20_memory.md R81 to R85), and from it what the host leaves alone: a running
command's registers and buffers (60_exceptions.md R304), the latches (10_state.md R43), and IN_MEM outside a write of
it (20_memory.md R97). -/

namespace Sys2Proof.Machine

open Sys2Proof

/-! ## The effect of a transaction -/

/-- What a write does at its address: a named register takes it, IN_MEM takes it unless BUSY, and nothing else does. -/
theorem busWrite_cases (s : State) (a : Nat) (bs : Bytes) (v : Word) :
    (∃ r, regAt a = some r ∧ busWrite a bs v s = writeReg r v s) ∨
      (∃ k, a = 0x1000000 + k ∧
        busWrite a bs v s = unlessBusy (fun s => { s with inMem := s.inMem.writeBytes k bs }) s) ∨
      busWrite a bs v s = s := by
  rcases region_cases s.params a with ⟨-, hr⟩ | ⟨hlo, hhi⟩ | ⟨k, ha, -, hr⟩ | ⟨k, -, -, hr⟩ | hr
  · cases hreg : regAt a with
    | some r => exact .inl ⟨r, rfl, busWrite_register s bs v hreg⟩
    | none => exact .inr (.inr (by simp only [busWrite, hr, hreg]))
  · exact .inr (.inr (busWrite_window s bs v hlo hhi))
  · exact .inr (.inl ⟨k, ha, by simp only [busWrite, hr]⟩)
  · exact .inr (.inr (by simp only [busWrite, hr]))
  · exact .inr (.inr (by simp only [busWrite, hr]))

/-- What a transaction can do, with the address at which it does it: BusEffect says less, since it is about no
address. -/
inductive HostEffect (s : State) (x : HostAccess) : State → Prop
  | noWrite (e : Bool) (d : Word) (n : Nat) : HostEffect s x { s with accErr := e, readData := d, busyDraws := n }
  | ignored : HostEffect s x s
  | register {a v : Word} {r : RegName} (hx : x = .w32 a v) (hr : regAt a.toNat = some r) :
      HostEffect s x (writeReg r v s)
  | inMem {k : Nat} {bs : Bytes} (hx : isHostRead x = false) (ha : hostAddr x = 0x1000000 + k)
      (hbs : bs.length = widthBytes (hostWidth x)) :
      HostEffect s x (unlessBusy (fun s => { s with inMem := s.inMem.writeBytes k bs }) s)

theorem hostAccess_hostEffect (x : HostAccess) (s : State) : HostEffect s x (hostAccess x s) := by
  cases hl : legalAccess s.params (hostWidth x) (hostAddr x) with
  | false =>
    rw [hostAccess_of_illegal hl]
    exact .noWrite _ _ _
  | true =>
    cases x with
    | r8 a | r32 a =>
      rw [hostAccess_read rfl hl]
      exact .noWrite _ _ _
    | w8 a v =>
      have hwrite : hostAccess (.w8 a v) s = busWrite a.toNat [v] (v.setWidth 32) s := if_pos hl
      rw [hwrite]
      rcases busWrite_cases s a.toNat [v] (v.setWidth 32) with ⟨r, hr, -⟩ | ⟨k, ha, hk⟩ | hs
      · cases hr.symm.trans (regAt_of_legal_byte hl)
      · rw [hk]
        exact .inMem rfl ha rfl
      · rw [hs]
        exact .ignored
    | w32 a v =>
      have hwrite : hostAccess (.w32 a v) s = busWrite a.toNat (laneBytes v) v s := if_pos hl
      rw [hwrite]
      rcases busWrite_cases s a.toNat (laneBytes v) v with ⟨r, hr, hreg⟩ | ⟨k, ha, hk⟩ | hs
      · rw [hreg]
        exact .register rfl hr
      · rw [hk]
        exact .inMem rfl ha rfl
      · rw [hs]
        exact .ignored

/-! ## The command's state -/

/-- The error registers, results, latches, phase, OUT_MEM and internal buffers are the same. -/
def State.CommandKept (s t : State) : Prop :=
  t.err = s.err ∧ t.res = s.res ∧ t.latchOp = s.latchOp ∧ t.latchLen = s.latchLen ∧ t.phase = s.phase ∧
    t.outMem = s.outMem ∧ t.outEpoch = s.outEpoch ∧ t.s1 = s.s1 ∧ t.xs = s.xs

theorem State.CommandKept.refl (s : State) : s.CommandKept s := ⟨rfl, rfl, rfl, rfl, rfl, rfl, rfl, rfl, rfl⟩

/-- A dropped write keeps what the write keeps (70_reset_and_hazards.md R346). -/
theorem unlessBusy_keepsCommand {write : State → State} {s : State} (h : s.CommandKept (write s)) :
    s.CommandKept (unlessBusy write s) := by
  unfold unlessBusy
  split
  · exact .refl s
  · exact h

/-- Of all transactions only a CTRL write reaches the command, and only as START or SRST. -/
theorem hostAccess_keepsCommand (x : HostAccess) (s : State) :
    s.CommandKept (hostAccess x s) ∨ ∃ v : Word, x = .w32 0x14 v ∧ hostAccess x s = writeCtrl v s ∧
      (v.getLsbD 2 = true ∨ v.getLsbD 0 = true) := by
  have heff := hostAccess_hostEffect x s
  generalize hostAccess x s = t at heff
  cases heff with
  | noWrite | ignored => exact .inl (.refl s)
  | inMem => exact .inl (unlessBusy_keepsCommand (.refl s))
  | @register a v r hx hr =>
    cases r with
    | ctrl =>
      obtain rfl := regAt_eq_ctrl hr
      cases h2 : v.getLsbD 2 with
      | true => exact .inr ⟨v, hx, rfl, .inl h2⟩
      | false =>
        cases h0 : v.getLsbD 0 with
        | true => exact .inr ⟨v, hx, rfl, .inr h0⟩
        | false =>
          rw [writeReg, writeCtrl_ie h2 h0]
          exact .inl (.refl s)
    | cmd | inLen => exact .inl (unlessBusy_keepsCommand (.refl s))
    | _ => exact .inl (.refl s)

/-- Settles O27: START and SRST are excluded, and no other transaction reaches the command. -/
theorem hostAccessNeverDisturbsCommand : Obligations.HostAccessNeverDisturbsCommand := by
  intro s t x rest h hx hstep
  rw [step_of_host h] at hstep
  obtain rfl := Host.Outcome.next.inj hstep
  rcases hostAccess_keepsCommand x { s with agenda := rest } with hkept | ⟨v, rfl, -, hv⟩
  · exact hkept
  · obtain ⟨h0, h2⟩ := hx v rfl
    simp only [h0, h2, Bool.false_eq_true, or_self] at hv

/-- A CTRL write leaves the latches but as SRST or as a START that is accepted (10_state.md R43). -/
theorem writeCtrl_latches {v : Word} {s : State} (h2 : v.getLsbD 2 = false)
    (h0 : v.getLsbD 0 = true → s.phase = .busy) :
    (writeCtrl v s).latchOp = s.latchOp ∧ (writeCtrl v s).latchLen = s.latchLen := by
  cases hv : v.getLsbD 0 with
  | true =>
    rw [writeCtrl_start h2 hv, startCommand_busy (h0 hv)]
    exact ⟨rfl, rfl⟩
  | false =>
    rw [writeCtrl_ie h2 hv]
    exact ⟨rfl, rfl⟩

/-- Settles O59: a completion keeps the latches, and of the host's transactions only a CTRL write reaches them. -/
theorem latchesChangeOnlyAtStartOrReset : Obligations.LatchesChangeOnlyAtStartOrReset := by
  intro s t h hchange
  have changed : ¬ (t.latchOp = s.latchOp ∧ t.latchLen = s.latchLen) := not_and_or.mpr hchange
  rcases step_inv h with ⟨o, u, -, -, hend, rfl⟩ | ⟨-, rfl⟩ | ⟨hhead, -⟩ | ⟨⟨x, hhead⟩, -⟩
  · rw [complete_latchOp, complete_latchLen, hend.frame] at changed
    exact absurd ⟨rfl, rfl⟩ changed
  · exact absurd ⟨rfl, rfl⟩ changed
  · exact .inl hhead
  · obtain ⟨rest, hag⟩ := List.head?_eq_some_iff.mp hhead
    rw [step_of_host hag] at h
    obtain rfl := Host.Outcome.next.inj h
    rcases hostAccess_keepsCommand x { s with agenda := rest } with ⟨-, -, hop, hlen, -⟩ | ⟨v, rfl, hctrl, -⟩
    · exact absurd ⟨hop, hlen⟩ changed
    · refine .inr ⟨v, hhead, ?_⟩
      by_contra hv
      push Not at hv
      obtain ⟨h2, h0⟩ := hv
      rw [hctrl] at changed
      refine changed (writeCtrl_latches (s := { s with agenda := rest }) (Bool.eq_false_iff.mpr h2) fun hs => ?_)
      show s.phase = .busy
      cases hp : s.phase with
      | idle => exact absurd hp (h0 hs)
      | busy => rfl

/-! ## IN_MEM -/

/-- No register write reaches IN_MEM (10_state.md R34). -/
theorem writeReg_inByte (r : RegName) (v : Word) (s : State) (k : Nat) : (writeReg r v s).inByte k = s.inByte k := by
  cases r with
  | ctrl =>
    simp only [writeReg, writeCtrl]
    split_ifs
    · exact inByte_congr (softReset_inMem s) (softReset_inEpoch s) k
    · exact inByte_congr (startCommand_inMem _ s) (startCommand_inEpoch _ s) k
    · rfl
  | cmd | inLen =>
    simp only [writeReg, unlessBusy]
    split <;> rfl
  | _ => rfl

/-- A transaction changes a byte of IN_MEM only as a write that covers it, while IDLE (20_memory.md R84, R97). -/
theorem hostAccess_inByte_inv {x : HostAccess} {s : State} {k : Nat} (h : (hostAccess x s).inByte k ≠ s.inByte k) :
    s.phase = .idle ∧ isHostRead x = false ∧ hostAddr x ≤ 0x1000000 + k ∧
      0x1000000 + k < hostAddr x + widthBytes (hostWidth x) := by
  have heff := hostAccess_hostEffect x s
  generalize hostAccess x s = t at heff h
  cases heff with
  | noWrite | ignored => exact absurd rfl h
  | register => exact absurd (writeReg_inByte _ _ s k) h
  | @inMem j bs hx ha hbs =>
    cases hp : s.phase with
    | busy =>
      simp only [unlessBusy, hp] at h
      exact absurd rfl h
    | idle =>
      simp only [unlessBusy, hp] at h
      by_cases hk : j ≤ k ∧ k < j + bs.length
      · exact ⟨rfl, hx, by omega, by omega⟩
      · exact absurd ((inByte_writeBytes s j bs s.agenda k).trans (if_neg hk)) h

/-- Settles O58: a command leaves IN_MEM, and a transaction changes it as the statement allows. -/
theorem inMemChangesOnlyByIdleHostWrite : Obligations.InMemChangesOnlyByIdleHostWrite := by
  intro s t k h hchange
  rcases step_inv h with ⟨o, u, -, -, hend, rfl⟩ | ⟨-, rfl⟩ | ⟨hhead, -⟩ | ⟨⟨x, hhead⟩, -⟩
  · refine absurd (inByte_congr ?_ ?_ k) hchange
    · rw [complete_inMem, hend.frame, advance_inMem]
    · rw [complete_inEpoch, hend.frame, advance_inEpoch]
  · exact absurd rfl hchange
  · exact .inl hhead
  · obtain ⟨rest, hag⟩ := List.head?_eq_some_iff.mp hhead
    rw [step_of_host hag] at h
    obtain rfl := Host.Outcome.next.inj h
    obtain ⟨hp, hx, hlo, hhi⟩ := hostAccess_inByte_inv (s := { s with agenda := rest }) hchange
    exact .inr ⟨hp, x, hhead, hx, hlo, hhi⟩

end Sys2Proof.Machine
end

section
/-! Commands (40_command_cycle.md R161 to R165): what they leave alone, the reserved OPs, and the six-bit and RLE
commands over their inputs (43_sixbit.md, 42_rle.md). -/

namespace Sys2Proof.Machine

open Sys2Proof

/-! ## The frame of a command -/

/-- Settles O30: each listed operation is the command of its OP, which completes with that OP in DETAIL. -/
theorem reservedOpsCompleteWithBadCommand : Obligations.ReservedOpsCompleteWithBadCommand := by
  intro op i s h
  simp only [List.mem_cons, List.not_mem_nil, or_false, Prod.mk.injEq] at h
  rcases h with ⟨rfl, rfl⟩ | ⟨rfl, rfl⟩ | ⟨rfl, rfl⟩ | ⟨rfl, rfl⟩ | ⟨rfl, rfl⟩ | ⟨rfl, rfl⟩ | ⟨rfl, rfl⟩ |
    ⟨rfl, rfl⟩ | ⟨rfl, rfl⟩ <;> rfl

/-- Every command but the two BinHex ones is committed to the state it began in, S1 and XS included. -/
theorem exec_decodeOp_noBuffers {op : BitVec 4} (h3 : op ≠ 3) (h6 : op ≠ 6) (s : State) :
    ∃ o, exec (decodeOp op) s = .next (complete o s) := by
  by_cases hop : 1 ≤ op.toNat ∧ op.toNat ≤ 7
  · rcases commandOp_cases hop.1 hop.2 with rfl | rfl | rfl | rfl | rfl | rfl | rfl
    · exact ⟨_, rfl⟩
    · exact ⟨_, rfl⟩
    · exact absurd rfl h3
    · exact ⟨_, rfl⟩
    · exact ⟨_, rfl⟩
    · exact absurd rfl h6
    · exact ⟨_, rfl⟩
  · exact ⟨_, exec_decodeOp_reserved hop s⟩

/-- Settles O31: what a completion leaves alone, and that a command is committed to the state it began in but for the
internal buffers. -/
theorem commandFrame : Obligations.CommandFrame := by
  intro op s t h
  obtain ⟨o, u, hend, hu⟩ := exec_decodeOp op s
  obtain rfl := Host.Outcome.next.inj (hu.symm.trans h)
  obtain ⟨s1, xs, rfl⟩ : ∃ s1 xs, u = { s with s1 := s1, xs := xs } := ⟨_, _, hend.frame⟩
  refine ⟨?whole, inByte_congr (complete_inMem o _) (complete_inEpoch o _), fun h3 h6 => ?buffers⟩
  case whole =>
    rw [complete_s1, complete_xs]
    exact complete_frame o _
  case buffers =>
    obtain ⟨o', ho'⟩ := exec_decodeOp_noBuffers h3 h6 s
    rw [Host.Outcome.next.inj (h.symm.trans ho')]
    exact ⟨complete_s1 o' s, complete_xs o' s⟩

/-! ## SIXBIT -/

/-- Settles O32: the stage over a valid text, committed. -/
theorem sixbitDemodulates : Obligations.SixbitDemodulates := by
  intro s hlen hvalid
  have hout : sixbitOutcome s = .ok (.stream (demodulated (textValues s.params s.input))) := by
    rw [sixbitOutcome_ok hlen, sixBit_valid hvalid]
    rfl
  rw [exec_sixbit_of hout, complete_ok]
  rfl

/-- The stage's error at the first byte that is neither whitespace nor in the alphabet (43_sixbit.md R200). -/
theorem sixBit_invalid {p : Params} {pre post : Bytes} {c : Byte} (hpre : TextValid p pre) (hw : c ∉ p.whitespace)
    (hc : c ∉ p.alphabet) (base : Nat) :
    sixBit p (pre ++ c :: post) base = .error ⟨.invalidCharacter, base + pre.length, .sixbit, c⟩ :=
  sixBitGo_invalid p hw hc post pre base 0 0 [] hpre

theorem exec_sixbit_invalid {s : State} {pre post : Bytes} {c : Byte} (hlen : s.latchLen.toNat ≤ s.params.inMemSize)
    (hpre : TextValid s.params pre) (hw : c ∉ s.params.whitespace) (hc : c ∉ s.params.alphabet)
    (hin : s.input = pre ++ c :: post) : exec .sixbit s = .next (s.afterError 0x03 pre.length c 2) := by
  have hout : sixbitOutcome s = .error ⟨.invalidCharacter, pre.length, .sixbit, c⟩ := by
    rw [sixbitOutcome_ok hlen, hin, sixBit_invalid hpre hw hc, Nat.zero_add]
    rfl
  rw [exec_sixbit_of hout, complete_error]
  rfl

/-! ## RLE -/

/-- Literals stand for their own bytes (30_encoding.md R130). -/
theorem tokenBytes_literals (bs : Bytes) : tokenBytes (bs.map .literal) = bs := by
  induction bs with
  | nil => rfl
  | cons b bs ih => exact congrArg (b :: ·) ih

theorem foldl_emitTo_literals (bs : Bytes) : ∀ out : Bytes,
    (bs.map RleToken.literal).foldl RleToken.emitTo out = out ++ bs := by
  induction bs with
  | nil => intro out; exact (List.append_nil out).symm
  | cons b bs ih =>
    intro out
    rw [List.map_cons, List.foldl_cons, ih, RleToken.emitTo, List.append_assoc, List.singleton_append]

/-- Bytes without an escape are a stream of literals. -/
theorem tokensOk_literals {bs : Bytes} (h : (0x90 : Byte) ∉ bs) : TokensOk (bs.map .literal) := by
  refine ⟨fun t ht => ?_, fun n hn => ?_⟩
  · obtain ⟨b, hb, rfl⟩ := List.mem_map.mp ht
    exact fun hesc => h (hesc ▸ hb)
  · cases bs with
    | nil => cases hn
    | cons b bs => cases hn

/-- Settles O36: the stream is one of literals, which the expansion keeps. -/
theorem rleIdentityWithoutEscapes : Obligations.RleIdentityWithoutEscapes := by
  intro cap input hesc hcap
  have hexpand : expandTokens (input.map .literal) = input := foldl_emitTo_literals input []
  have hrle := rle_tokens (cap := cap) (tokensOk_literals hesc) (by rwa [hexpand])
  rwa [tokenBytes_literals, hexpand] at hrle

/-- The scan of a well-formed token stream, whatever follows it. -/
theorem rle_tokens_append {cap : Nat} {ts : List RleToken} (h : TokensOk ts) (hcap : (expandTokens ts).length ≤ cap)
    (tail : Bytes) :
    rle cap (tokenBytes ts ++ tail) =
      rleGo cap tail (tokenBytes ts).length (expandTokens ts).reverse (expandTokens ts).length := by
  have hgo := rleGo_tokens cap tail ts 0 [] h.1 (fun n hn => absurd hn (h.2 n)) hcap
  rwa [Nat.zero_add] at hgo

theorem expandTokens_concat (ts : List RleToken) (t : RleToken) :
    expandTokens (ts ++ [t]) = t.emitTo (expandTokens ts) := by
  rw [expandTokens, List.foldl_append]
  rfl

theorem tokenBytes_concat (ts : List RleToken) (t : RleToken) :
    tokenBytes (ts ++ [t]) = tokenBytes ts ++ t.bytes := by
  rw [tokenBytes, List.flatMap_append]
  simp [tokenBytes]

/-- After its first token a well-formed stream has a byte that a run can repeat (42_rle.md R190). -/
theorem expandTokens_ne_nil {ts : List RleToken} (h : TokensOk ts) (hts : ts ≠ []) : expandTokens ts ≠ [] := by
  cases ts with
  | nil => exact absurd rfl hts
  | cons t ts =>
    have hfirst : 0 < (t.emitTo []).length := by
      cases t with
      | literal b => exact Nat.one_pos
      | escaped => exact Nat.one_pos
      | run n => exact absurd rfl (h.2 n)
    exact List.ne_nil_of_length_pos (hfirst.trans_le (foldl_emitTo_length_le ts _))

/-- An escape that ends the stream (42_rle.md R189). -/
theorem rle_truncated {cap : Nat} {ts : List RleToken} (h : TokensOk ts) (hcap : (expandTokens ts).length ≤ cap) :
    rle cap (tokenBytes ts ++ [0x90]) = .error ⟨.truncatedRun, (tokenBytes ts).length, .rle, 0⟩ := by
  rw [rle_tokens_append h hcap, rleGo_truncated]

/-- The first token whose output does not fit (42_rle.md R191). -/
theorem rle_full {cap : Nat} {ts : List RleToken} {t : RleToken} (h : TokensOk ts) (ht : TokensOk (ts ++ [t]))
    (hcap : (expandTokens ts).length ≤ cap) (hfull : cap < (expandTokens (ts ++ [t])).length) (rest : Bytes) :
    rle cap (tokenBytes (ts ++ [t]) ++ rest) = .error ⟨.capacityExceeded, (tokenBytes ts).length, .rle, 0⟩ := by
  have hrun (n : Byte) (hn : t = .run n) : expandTokens ts ≠ [] := by
    refine expandTokens_ne_nil h fun hnil => ?_
    subst hnil hn
    exact ht.2 n rfl
  rw [expandTokens_concat] at hfull
  rw [tokenBytes_concat, List.append_assoc, rle_tokens_append h hcap,
    rleGo_token _ _ _ _ _ (ht.1 t (by simp)) hrun, if_neg (by omega)]

/-- RLE ends with the error of its stage (42_rle.md R193). -/
theorem exec_rle_error {s : State} (hlen : s.latchLen.toNat ≤ s.params.inMemSize) {e : CmdError}
    (h : rle s.params.outMemSize s.input = .error e) :
    exec .rle s = .next (s.afterError e.name.code e.pos e.detail e.stage.code) := by
  have hout : rleOutcome s = .error e := by
    rw [rleOutcome_ok hlen, h]
    rfl
  rw [exec_rle_of hout, complete_error]

end Sys2Proof.Machine
end

section
/-! The BinHex decoder's text and stages (44_binhex.md R205 to R208): where the signature and the colons are found, and
what a BinHex command reports when a stage before the record parse fails. -/

namespace Sys2Proof.Machine

open Sys2Proof

/-! ## The signature -/

/-- The search gives its first offset for the start of the text. -/
theorem findPattern_eq_map (pat : Bytes) : ∀ (t : Bytes) (j : Nat),
    findPattern pat t j = (findPattern pat t 0).map (· + j) := by
  intro t
  induction t with
  | nil => intro j; rfl
  | cons c t ih =>
    intro j
    unfold findPattern
    split_ifs
    · simp
    · rw [ih (j + 1), ih (0 + 1), Option.map_map]
      congr 1
      funext k
      simp only [Function.comp_apply]
      omega

/-- The search finds the least offset at which the pattern occurs. -/
theorem findPattern_eq_some_iff {pat : Bytes} (hpat : pat ≠ []) : ∀ (t : Bytes) (j : Nat),
    findPattern pat t 0 = some j ↔ pat <+: t.drop j ∧ ∀ i < j, ¬ pat <+: t.drop i := by
  intro t
  induction t with
  | nil =>
    intro j
    simp [findPattern, hpat]
  | cons c t ih =>
    intro j
    by_cases h : pat <+: c :: t
    · have hfind : findPattern pat (c :: t) 0 = some 0 := if_pos (List.isPrefixOf_iff_prefix.mpr h)
      rw [hfind]
      cases j with
      | zero => simp [h]
      | succ j =>
        simp only [Option.some.injEq, Nat.zero_ne_add_one, false_iff]
        exact fun hj => hj.2 0 j.succ_pos h
    · have hfind : findPattern pat (c :: t) 0 = (findPattern pat t 0).map (· + 1) :=
        (if_neg (List.isPrefixOf_iff_prefix.not.mpr h)).trans (findPattern_eq_map pat t 1)
      rw [hfind]
      cases j with
      | zero => simp [h]
      | succ j =>
        have hright : (∀ i < j + 1, ¬ pat <+: (c :: t).drop i) ↔ ∀ i < j, ¬ pat <+: t.drop i :=
          ⟨fun hi i hij => hi (i + 1) (by omega), fun hi i hij => by
            cases i with
            | zero => exact h
            | succ i => exact hi i (by omega)⟩
        rw [hright, List.drop_succ_cons, ← ih j]
        simp

theorem findSignature_iff (t : Bytes) (j : Nat) :
    findPattern binhexSignature t 0 = some j ↔ SigAt t j ∧ ∀ i < j, ¬ SigAt t i :=
  findPattern_eq_some_iff (by decide) t j

theorem findSignature_none {t : Bytes} (h : ∀ j, ¬ SigAt t j) : findPattern binhexSignature t 0 = none := by
  cases hf : findPattern binhexSignature t 0 with
  | none => rfl
  | some j => exact absurd ((findSignature_iff t j).mp hf).1 (h j)

/-- The signature after bytes in which it does not begin. -/
theorem findSignature_after {t pre rest : Bytes} (ht : t = pre ++ (binhexSignature ++ rest))
    (hpre : ∀ j < pre.length, ¬ SigAt t j) : findPattern binhexSignature t 0 = some pre.length := by
  refine (findSignature_iff t _).mpr ⟨?_, hpre⟩
  rw [SigAt, ht, List.drop_left]
  exact List.prefix_append _ _

/-! ## The colons -/

theorem findByteFrom_found {t pre gap rest : Bytes} {c : Byte} {lo : Nat} (ht : t = pre ++ (gap ++ c :: rest))
    (hlo : pre.length = lo) (hc : c ∉ gap) : findByteFrom c t lo = some (lo + gap.length) := by
  have hidx : (gap ++ c :: rest).idxOf c = gap.length := by
    rw [List.idxOf_append_of_notMem hc, List.idxOf_cons_self, Nat.add_zero]
  rw [findByteFrom, ht, ← hlo, List.drop_left, idxOf?_of_mem (by simp), hidx, Option.map_some, Nat.add_comm]

theorem findByteFrom_none {t pre gap : Bytes} {c : Byte} {lo : Nat} (ht : t = pre ++ gap) (hlo : pre.length = lo)
    (hc : c ∉ gap) : findByteFrom c t lo = none := by
  rw [findByteFrom, ht, ← hlo, List.drop_left, List.idxOf?_eq_none_iff.mpr hc, Option.map_none]

/-! ## The payload -/

theorem locatePayload_noHeader {t : Bytes} (h : ∀ j, ¬ SigAt t j) :
    locatePayload t = .error ⟨.missingHeader, 0, .text, 0⟩ := by
  simp only [locatePayload, findSignature_none h]

theorem length_binhexSignature : binhexSignature.length = 45 := rfl

section
variable {t pre gap payload : Bytes} (hpre : ∀ j < pre.length, ¬ SigAt t j) (hgap : (0x3A : Byte) ∉ gap)
include hpre hgap

/-- No colon after the signature (44_binhex.md R206). -/
theorem locatePayload_noOpening (ht : t = pre ++ binhexSignature ++ gap) :
    locatePayload t = .error ⟨.missingDelimiter, pre.length + 45, .text, 1⟩ := by
  have hsig := findSignature_after (rest := gap) (by rw [ht, List.append_assoc]) hpre
  have hopen : findByteFrom colon t (pre.length + 45) = none :=
    findByteFrom_none ht (by rw [List.length_append, length_binhexSignature]) hgap
  simp only [locatePayload, hsig, hopen]

/-- Only one colon after the signature. -/
theorem locatePayload_noClosing (hpayload : (0x3A : Byte) ∉ payload)
    (ht : t = pre ++ binhexSignature ++ gap ++ [0x3A] ++ payload) :
    locatePayload t = .error ⟨.missingDelimiter, pre.length + 45 + gap.length + 1, .text, 2⟩ := by
  have hsig := findSignature_after (rest := gap ++ [0x3A] ++ payload)
    (by rw [ht]; simp only [List.append_assoc]) hpre
  have hopen : findByteFrom colon t (pre.length + 45) = some (pre.length + 45 + gap.length) :=
    findByteFrom_found (pre := pre ++ binhexSignature) (rest := payload) (by rw [ht]; simp [colon])
      (by rw [List.length_append, length_binhexSignature]) hgap
  have hclose : findByteFrom colon t (pre.length + 45 + gap.length + 1) = none :=
    findByteFrom_none ht (by simp [length_binhexSignature]; omega) hpayload
  simp only [locatePayload, hsig, hopen, hclose]

end

/-- The payload of a whole text stands between its colons (30_encoding.md R120). -/
theorem locatePayload_text {t pre gap payload suf : Bytes} (h : IsBinhexText t pre gap payload suf) :
    locatePayload t = .ok (pre.length + 45 + gap.length + 1, payload) := by
  obtain ⟨ht, hpre, hgap, hpayload⟩ := h
  have hsig := findSignature_after (rest := gap ++ [0x3A] ++ payload ++ [0x3A] ++ suf)
    (by rw [ht]; simp only [List.append_assoc]) hpre
  have hopen : findByteFrom colon t (pre.length + 45) = some (pre.length + 45 + gap.length) :=
    findByteFrom_found (pre := pre ++ binhexSignature) (rest := payload ++ [0x3A] ++ suf)
      (by rw [ht]; simp [colon]) (by rw [List.length_append, length_binhexSignature]) hgap
  have hclose : findByteFrom colon t (pre.length + 45 + gap.length + 1) =
      some (pre.length + 45 + gap.length + 1 + payload.length) :=
    findByteFrom_found (pre := pre ++ binhexSignature ++ gap ++ [0x3A]) (rest := suf)
      (by rw [ht]; simp [colon]) (by simp [length_binhexSignature]; omega) hpayload
  have hcut : (t.take (pre.length + 45 + gap.length + 1 + payload.length)).drop (pre.length + 45 + gap.length + 1) =
      payload := by
    rw [List.drop_take, Nat.add_sub_cancel_left]
    exact field_at (pre := pre ++ binhexSignature ++ gap ++ [0x3A]) (rest := [0x3A] ++ suf)
      (by rw [ht]; simp only [List.append_assoc]) (by simp [length_binhexSignature]; omega) rfl
  simp only [locatePayload, hsig, hopen, hclose, hcut]

/-! ## The errors of the text and six-bit stages -/

/-- Both BinHex commands end with the decode's error, the DiskCopy stage not reached (44_binhex.md R215,
47_pipelines.md R240). -/
theorem exec_binhexCommand_error {s t : State} {i : Instr} (hi : i = .binhex ∨ i = .binhexDsk) {e : CmdError}
    (h : binhexDecode s = (t, .error e)) :
    exec i s = .next (t.afterError e.name.code e.pos e.detail e.stage.code) := by
  rcases hi with rfl | rfl
  · exact exec_binhex_of h
  · exact exec_binhexDsk_of h

/-- A text without a payload ends both commands before a stage has written S1 or XS. -/
theorem exec_binhexCommand_textError {s : State} {i : Instr} (hi : i = .binhex ∨ i = .binhexDsk)
    (hlen : s.latchLen.toNat ≤ s.params.inMemSize) {e : CmdError} (h : locatePayload s.input = .error e) :
    exec i s = .next (State.afterError { s with s1 := Memory.empty, xs := Memory.empty } e.name.code e.pos e.detail
      e.stage.code) :=
  exec_binhexCommand_error hi (binhexDecode_textError hlen (by rw [h]; rfl))

/-- Settles O39: the search by its characterisation, and the error where it finds nothing. -/
theorem binhexSignatureSearch : Obligations.BinhexSignatureSearch := by
  refine ⟨findSignature_iff, fun s hlen hno => ?_⟩
  have report {i : Instr} (hi : i = .binhex ∨ i = .binhexDsk) :=
    exec_binhexCommand_textError hi hlen (locatePayload_noHeader hno)
  exact ⟨report (.inl rfl), report (.inr rfl)⟩

/-- Settles O40: the search for either colon fails where it began. -/
theorem binhexMissingDelimiter : Obligations.BinhexMissingDelimiter := by
  intro s pre gap i hi hlen hpre hgap
  exact ⟨fun ht => exec_binhexCommand_textError hi hlen (locatePayload_noOpening hpre hgap ht),
    fun payload hpayload ht =>
      exec_binhexCommand_textError hi hlen (locatePayload_noClosing hpre hgap hpayload ht)⟩

/-- Settles O33: the stage stops at the byte, at its offset from the stage's base, which in a BinHex text is the
payload's. -/
theorem sixbitInvalidCharacter : Obligations.SixbitInvalidCharacter := by
  intro s pre post c hlen hpre hw hc
  refine ⟨fun hin => exec_sixbit_invalid hlen hpre hw hc hin, fun lead gap suf i hi htext => ?_⟩
  refine exec_binhexCommand_error hi (e := ⟨.invalidCharacter, _, .sixbit, c⟩) (binhexDecode_textError hlen ?_)
  rw [locatePayload_text htext]
  exact sixBit_invalid hpre hw hc _

/-! ## The errors of the RLE stage -/

/-- Settles O37: the three errors of the stage over OUT_MEM's capacity, and any error of it in a BinHex command. -/
theorem rleErrors : Obligations.RleErrors := by
  refine ⟨fun s ts hlen hts hcap => ⟨fun hin => ?truncated, fun n rest hn hnil hin => ?malformed,
    fun t rest ht hin hfull => ?full⟩, fun s lead gap payload suf e i hi hlen htext hvalid hrle => ?inBinhex⟩
  case truncated =>
    have hpos : s.input.length - 1 = (tokenBytes ts).length := by rw [hin, List.length_append]; rfl
    have herr := exec_rle_error hlen (by rw [hin]; exact rle_truncated hts hcap)
    rwa [← hpos] at herr
  case malformed => exact exec_rle_error hlen (by rw [hin]; exact rle_malformed hn _ rest)
  case full => exact exec_rle_error hlen (by rw [hin]; exact rle_full hts ht hcap hfull rest)
  case inBinhex =>
    exact exec_binhexCommand_error hi
      (binhexDecode_rleError hlen (locatePayload_text htext) (sixBit_valid hvalid _) hrle)

end Sys2Proof.Machine
end

section
/-! DiskCopy images and MacBinary files (45_macbinary.md, 46_diskcopy.md, 47_pipelines.md): what the stages answer, in
the layouts of 30_encoding.md R150 to R155, and the commands that deliver it. -/

namespace Sys2Proof.Machine

open Sys2Proof

/-! ## Fields as registers hold them -/

/-- A 4-character code as its register holds it (10_state.md R29). -/
theorem codeWord_eq (c0 c1 c2 c3 : Byte) : BitVec.ofNat 32 (beNat [c0, c1, c2, c3]) = codeWord c0 c1 c2 c3 := by
  have h0 := c0.isLt
  have h1 := c1.isLt
  have h2 := c2.isLt
  have h3 := c3.isLt
  have hlanes : codeWord c0 c1 c2 c3 = lanes c3 c2 c1 c0 := rfl
  apply BitVec.eq_of_toNat_eq
  rw [hlanes, toNat_lanes, beNat_four, BitVec.toNat_ofNat, leNat]
  omega

/-- A 4-character code read from a buffer. -/
theorem codeWord_at {b : Bytes} {off : Nat} (h : off + 4 ≤ b.length) :
    BitVec.ofNat 32 (beNat ((b.drop off).take 4)) =
      codeWord (byteAt b off) (byteAt b (off + 1)) (byteAt b (off + 2)) (byteAt b (off + 3)) := by
  rw [take_succ_drop (by omega), take_succ_drop (by omega), take_succ_drop (by omega), take_succ_drop (by omega),
    List.take_zero, codeWord_eq]

/-- Two bytes as a 16-bit register holds them, the first in bits 15:8. -/
theorem ofNat_two_bytes (hi lo : Byte) : BitVec.ofNat 16 (hi.toNat * 256 + lo.toNat) = hi ++ lo := by
  have h0 := hi.isLt
  have h1 := lo.isLt
  apply BitVec.eq_of_toNat_eq
  rw [BitVec.toNat_ofNat, BitVec.toNat_append, ← Nat.shiftLeft_add_eq_or_of_lt h1, Nat.shiftLeft_eq]
  omega

theorem getD_take_drop (b : Bytes) (off n i : Nat) :
    ((b.drop off).take n).getD i 0 = if i < n then byteAt b (off + i) else 0 := by
  simp only [byteAt, List.getD_eq_getElem?_getD, List.getElem?_take, List.getElem?_drop]
  split_ifs <;> rfl

/-! ## DiskCopy images -/

/-- The image that the stage answers for a whole one, as registers (46_diskcopy.md R237). -/
theorem diskImage_regs {b : Bytes} (h : DiskCopyOk b) (q : ResultRegs) :
    (⟨b.take 0x54, diskData b⟩ : DiskImage).writeRegs { q with outLen := BitVec.ofNat 32 (diskData b).length } =
      diskRegs b q := by
  have hhdr : windowOf 84 (b.take 0x54) = Vector.ofFn fun i => byteAt b i.val := by
    refine congrArg Vector.ofFn (funext fun i => ?_)
    have hi := getD_take_drop b 0 0x54 i.val
    rwa [List.drop_zero, if_pos i.isLt, Nat.zero_add] at hi
  simp only [DiskImage.writeRegs, diskRegs, length_diskData h, hhdr]

/-- Settles O48: the stage over a whole image, committed. -/
theorem dskExtractsSectors : Obligations.DskExtractsSectors := by
  intro s hlen hok
  have hout : dskOutcome s = .ok (.image ⟨s.input.take 0x54, diskData s.input⟩) := by
    rw [dskOutcome_ok hlen, diskCopy_ok hok]
    rfl
  rw [exec_dsk_of hout, complete_ok]
  exact congrArg (fun q => Host.Outcome.next (s.afterResult (diskData s.input) q)) (diskImage_regs hok s.res)

/-- The stage's error over a buffer that is no image is that of its first failing check (46_diskcopy.md R230). -/
theorem diskCopy_of_diskError {b : Bytes} {code : BitVec 8} {pos : Nat} (h : diskError b = some (code, pos)) :
    ∃ name : ErrName, name.code = code ∧ diskCopy b = .error (dcError name pos) := by
  have report {name : ErrName} {p : Nat} (hd : diskCopy b = .error (dcError name p))
      (hc : some (name.code, p) = some (code, pos)) :
      ∃ name : ErrName, name.code = code ∧ diskCopy b = .error (dcError name pos) := by
    cases hc
    exact ⟨name, rfl, hd⟩
  generalize ho : diskCopy b = o at report ⊢
  unfold diskError at h
  unfold diskCopy at ho
  by_cases hsmall : b.length < 409600
  · rw [if_pos hsmall] at h ho
    exact report (name := .tooSmall) ho.symm h
  rw [if_neg hsmall] at h ho
  by_cases h52 : byteAt b 0x52 ≠ 0x01
  · rw [if_pos h52] at h ho
    exact report (name := .notDiskCopyFormat) ho.symm h
  rw [if_neg h52] at h ho
  by_cases h53 : byteAt b 0x53 ≠ 0x00
  · rw [if_pos h53] at h ho
    exact report (name := .notDiskCopyFormat) ho.symm h
  rw [if_neg h53] at h ho
  have hsizes : imageSizes = [409600, 819200, 1474560] := rfl
  rw [readBE32_ok _ (by omega), ok_bind, hsizes] at ho
  by_cases hsize : be32At b 0x40 ∉ [409600, 819200, 1474560]
  · rw [if_pos hsize] at h ho
    exact report (name := .unsupportedImageSize) ho.symm h
  rw [if_neg hsize] at h ho
  by_cases htrunc : b.length < 0x54 + be32At b 0x40
  · rw [if_pos htrunc] at h
    rw [readBytes_error _ htrunc, error_bind] at ho
    exact report (name := .truncatedInput) ho.symm h
  · rw [if_neg htrunc] at h
    cases h

/-! ## The composed commands' second stage -/

theorem thenDiskCopy_image {r : FileResult} (h : DiskCopyOk r.file.data) :
    thenDiskCopy (.ok r) = .ok (.recordImage r ⟨r.file.data.take 0x54, diskData r.file.data⟩) := by
  rw [thenDiskCopy_ok, diskCopy_ok h]
  rfl

/-- A record's registers leave OUT_LEN. -/
theorem FileResult.writeRegs_outLen (r : FileResult) (q : ResultRegs) (n : Word) :
    r.writeRegs { q with outLen := n } = { r.writeRegs q with outLen := n } := by
  cases r <;> rfl

/-- A record, committed (44_binhex.md R215, 45_macbinary.md R224). -/
theorem complete_record (r : FileResult) (s : State) :
    complete (.ok (.record r)) s = s.afterResult (r.file.data ++ r.file.rsrc)
      { r.writeRegs s.res with outLen := BitVec.ofNat 32 (r.file.data.length + r.file.rsrc.length) } := by
  rw [complete_ok, ← List.length_append, ← FileResult.writeRegs_outLen]
  rfl

/-- A record and the image in its data fork, committed (47_pipelines.md R240, R241). -/
theorem complete_recordImage {r : FileResult} (h : DiskCopyOk r.file.data) (s : State) :
    complete (thenDiskCopy (.ok r)) s =
      s.afterResult (diskData r.file.data) (diskRegs r.file.data (r.writeRegs s.res)) := by
  rw [thenDiskCopy_image h, complete_ok, ← diskImage_regs h, ← FileResult.writeRegs_outLen]
  rfl

/-- A record whose data fork is no image, committed (47_pipelines.md R242, R243). -/
theorem complete_recordNoImage {r : FileResult} {code : BitVec 8} {pos : Nat}
    (h : diskError r.file.data = some (code, pos)) (s : State) :
    complete (thenDiskCopy (.ok r)) s = s.afterError code pos 0 6 := by
  obtain ⟨name, rfl, hd⟩ := diskCopy_of_diskError h
  rw [thenDiskCopy_ok, hd]
  rfl

/-! ## MacBinary files -/

/-- The record of a MacBinary file (45_macbinary.md R221, R222). -/
def macRecord (p : Params) (b : Bytes) : FileResult :=
  .macbin ⟨(b.drop 0x02).take (byteAt b 0x01).toNat, (b.drop 0x41).take 4, (b.drop 0x45).take 4,
    (byteAt b p.mbFlagsHiOff).toNat * 256 + (byteAt b 0x65).toNat, macData b, macRsrc p b⟩

/-- The parse over a whole file answers its record (45_macbinary.md R220 to R222). -/
theorem parseMacbinary_ok {p : Params} {b : Bytes} (h : MacFileOk p b) :
    parseMacbinary p b = .ok (macRecord p b) := by
  obtain ⟨hhead, hlen⟩ := h
  rw [parseMacbinary_head hhead rfl rfl, readBytes_ok _ (by omega), ok_bind, macPadding_eq_specPadding,
    skipBytes_ok _ (by omega), ok_bind, readBytes_ok _ hlen, ok_bind]
  rfl

theorem length_macData {p : Params} {b : Bytes} (h : MacFileOk p b) : (macData b).length = be32At b 0x53 := by
  have := h.2
  rw [macData, List.length_take, List.length_drop]
  omega

theorem length_macRsrc {p : Params} {b : Bytes} (h : MacFileOk p b) : (macRsrc p b).length = be32At b 0x57 := by
  have := h.2
  rw [macRsrc, List.length_take, List.length_drop]
  omega

/-- The record's registers are the header's fields (45_macbinary.md R224). -/
theorem macRecord_regs {p : Params} {b : Bytes} (h : MacFileOk p b) (q : ResultRegs) :
    (macRecord p b).writeRegs q = macRegs p b q := by
  obtain ⟨⟨h128, -, -, hname63, -⟩, -⟩ := id h
  have hname : windowOf 64 ((b.drop 0x02).take (byteAt b 0x01).toNat) =
      Vector.ofFn fun i => if i.val < (byteAt b 0x01).toNat then byteAt b (2 + i.val) else 0x00 :=
    congrArg Vector.ofFn (funext fun i => getD_take_drop b 2 _ i.val)
  have hnameLen : BitVec.ofNat 8 ((b.drop 0x02).take (byteAt b 0x01).toNat).length = byteAt b 0x01 := by
    rw [List.length_take, List.length_drop, Nat.min_eq_left (by omega), BitVec.ofNat_toNat, BitVec.setWidth_eq]
  simp only [macRecord, FileResult.writeRegs, FileRecord.writeRegs, macRegs, length_macData h, length_macRsrc h,
    hname, hnameLen, codeWord_at (show 0x41 + 4 ≤ b.length by omega), codeWord_at (show 0x45 + 4 ≤ b.length by omega),
    ofNat_two_bytes]

theorem macbinDecode_record {s : State} (hlen : s.latchLen.toNat ≤ s.params.inMemSize)
    (h : MacFileOk s.params s.input) : macbinDecode s = .ok (macRecord s.params s.input) :=
  (macbinDecode_ok hlen).trans (parseMacbinary_ok h)

/-- Settles O44: the record of a whole file, committed. -/
theorem macbinDecodesRecord : Obligations.MacbinDecodesRecord := by
  intro s hlen hok
  have hforks := complete_record (macRecord s.params s.input) s
  rw [macRecord_regs hok] at hforks
  rw [exec_macbin_of (macbinDecode_record hlen hok), ← length_macData hok, ← length_macRsrc hok]
  exact congrArg _ hforks

/-- Settles O47: the record and the image in its data fork. -/
theorem macbinDskDecodesImage : Obligations.MacbinDskDecodesImage := by
  intro s hlen hok himg
  rw [exec_macbinDsk_of (macbinDecode_record hlen hok), ← macRecord_regs hok]
  exact congrArg _ (complete_recordImage (r := macRecord s.params s.input) himg s)

/-- Settles O50: the record is whole, its data fork no image. -/
theorem macbinDskImageErrors : Obligations.MacbinDskImageErrors := by
  intro s code pos hlen hok herr
  rw [exec_macbinDsk_of (macbinDecode_record hlen hok)]
  exact congrArg _ (complete_recordNoImage (r := macRecord s.params s.input) herr s)

end Sys2Proof.Machine
end

section
/-! The BinHex record (44_binhex.md R209 to R215): the parse of a record's own bytes, its first failing check or read
over any stream, and the BinHex commands over a text that carries a record. -/

namespace Sys2Proof.Machine

open Sys2Proof

/-! ## Fields one after the other -/

/-- x has the bytes fld at offset off, and rest after them. -/
def FieldAt (x : Bytes) (off : Nat) (fld rest : Bytes) : Prop := ∃ pre, x = pre ++ (fld ++ rest) ∧ pre.length = off

section
variable {x fld fld' rest : Bytes} {off : Nat}

theorem FieldAt.next {off' : Nat} (h : FieldAt x off fld (fld' ++ rest)) (hoff : off + fld.length = off') :
    FieldAt x off' fld' rest := by
  obtain ⟨pre, hx, hpre⟩ := h
  exact ⟨pre ++ fld, by rw [hx, List.append_assoc], by rw [List.length_append, hpre, hoff]⟩

theorem FieldAt.bytes {n : Nat} (h : FieldAt x off fld rest) (hn : fld.length = n) : (x.drop off).take n = fld := by
  obtain ⟨pre, hx, hpre⟩ := h
  exact field_at hx hpre hn

theorem FieldAt.byte {b : Byte} (h : FieldAt x off [b] rest) : byteAt x off = b := by
  obtain ⟨pre, hx, hpre⟩ := h
  exact byteAt_at hx hpre

theorem FieldAt.be16 {v : BitVec 16} (h : FieldAt x off (be16Bytes v) rest) :
    (byteAt x off).toNat * 2 ^ 8 + (byteAt x (off + 1)).toNat = v.toNat := by
  obtain ⟨pre, hx, hpre⟩ := h
  exact be16_at hx hpre

theorem FieldAt.be32 {v : Word} (h : FieldAt x off (be32Bytes v) rest) : be32At x off = v.toNat := by
  obtain ⟨pre, hx, hpre⟩ := h
  exact be32At_at hx hpre

theorem FieldAt.end_le (h : FieldAt x off fld rest) : off + fld.length ≤ x.length := by
  obtain ⟨pre, hx, hpre⟩ := h
  rw [hx, List.length_append, List.length_append]
  omega

end

/-! ## The parse of a record's bytes -/

/-- The record that a stream of its bytes parses to (30_encoding.md R133, 44_binhex.md R214). -/
def BinhexFields.record (f : BinhexFields) : FileResult :=
  .binhex ⟨f.name, [f.t0, f.t1, f.t2, f.t3], [f.c0, f.c1, f.c2, f.c3], f.flags.toNat, f.data, f.rsrc⟩
    f.hcrc.toNat f.dcrc.toNat f.rcrc.toNat

/-- Its registers are the record's fields (44_binhex.md R215). -/
theorem BinhexFields.record_regs (f : BinhexFields) (q : ResultRegs) : f.record.writeRegs q = f.regs q := by
  simp only [BinhexFields.record, FileResult.writeRegs, FileRecord.writeRegs, BinhexFields.regs, codeWord_eq,
    BitVec.ofNat_toNat, BitVec.setWidth_eq]
  rfl

/-- A record's bytes parse to it, whatever follows them (30_encoding.md R134). -/
theorem parseBinhex_record {p : Params} {f : BinhexFields} (hf : f.Fits p) (junk : Bytes) :
    parseBinhex p (f.bytes ++ junk) = .ok f.record := by
  obtain ⟨hname, hcheck, hdata, hrsrc⟩ := hf
  obtain ⟨x, hx⟩ : ∃ x, x = f.bytes ++ junk := ⟨_, rfl⟩
  rw [← hx]
  have len : FieldAt x 0 [BitVec.ofNat 8 f.name.length] _ :=
    ⟨[], by rw [hx, BinhexFields.bytes]; simp only [List.append_assoc]; rfl, rfl⟩
  have name : FieldAt x 1 f.name _ := len.next rfl
  have sentinel : FieldAt x (1 + f.name.length) [0x00] _ := name.next rfl
  have ftype : FieldAt x (2 + f.name.length) [f.t0, f.t1, f.t2, f.t3] _ := sentinel.next (by simp; omega)
  have fcreator : FieldAt x (6 + f.name.length) [f.c0, f.c1, f.c2, f.c3] _ := ftype.next (by simp; omega)
  have flags : FieldAt x (10 + f.name.length) (be16Bytes f.flags) _ := fcreator.next (by simp; omega)
  have dlen : FieldAt x (12 + f.name.length) (be32Bytes (BitVec.ofNat 32 f.data.length)) _ :=
    flags.next (by simp; omega)
  have rlen : FieldAt x (16 + f.name.length) (be32Bytes (BitVec.ofNat 32 f.rsrc.length)) _ :=
    dlen.next (by simp; omega)
  have hcrc : FieldAt x (20 + f.name.length) (be16Bytes f.hcrc) _ := rlen.next (by simp; omega)
  have data : FieldAt x (22 + f.name.length) f.data _ := hcrc.next (by simp; omega)
  have dcrc : FieldAt x (22 + f.name.length + f.data.length) (be16Bytes f.dcrc) _ := data.next rfl
  have rsrc : FieldAt x (24 + f.name.length + f.data.length) f.rsrc _ := dcrc.next (by simp; omega)
  have rcrc : FieldAt x (24 + f.name.length + f.data.length + f.rsrc.length) (be16Bytes f.rcrc) junk := rsrc.next rfl
  have hn : f.name.length = (byteAt x 0).toNat := by
    rw [len.byte, BitVec.toNat_ofNat, Nat.mod_eq_of_lt (by omega)]
  have hd : f.data.length = be32At x (12 + f.name.length) := by
    rw [dlen.be32, BitVec.toNat_ofNat, Nat.mod_eq_of_lt (by omega)]
  have hr : f.rsrc.length = be32At x (16 + f.name.length) := by
    rw [rlen.be32, BitVec.toNat_ofNat, Nat.mod_eq_of_lt (by omega)]
  have hend : 26 + f.name.length + f.data.length + f.rsrc.length ≤ x.length := by
    have := rcrc.end_le
    rw [length_be16Bytes] at this
    omega
  rw [parseBinhex_ok hn hcheck sentinel.byte hd hr hdata hrsrc hend, name.bytes rfl, ftype.bytes (n := 4) rfl,
    fcreator.bytes (n := 4) rfl, flags.be16, data.bytes rfl, rsrc.bytes rfl, hcrc.be16, dcrc.be16, rcrc.be16]
  rfl

/-! ## The first failing check or read -/

/-- One read of a parse: it ends the parse with its error, or the parse goes on with the value. -/
theorem read_cases {α β : Type} {c : Prop} [Decidable c] {r : Except CmdError β} {e : CmdError} {v : β}
    {k : β → Except CmdError α} {o : Except CmdError α} {failed passed : Prop} (hbad : c → r = .error e)
    (hgood : ¬ c → r = .ok v) (h : (r >>= k) = o) (hfail : o = .error e → failed)
    (hpass : ¬ c → k v = o → passed) : if c then failed else passed := by
  by_cases hc : c
  · rw [if_pos hc]
    rw [hbad hc, error_bind] at h
    exact hfail h.symm
  · rw [if_neg hc]
    rw [hgood hc, ok_bind] at h
    exact hpass hc h

section
variable {α : Type} {c : Prop} [Decidable c] {stage : Stage} {buf : Bytes} {off n : Nat} {o : Except CmdError α}
  {failed passed : Prop}

theorem readBytes_cases {k : Bytes → Except CmdError α} (hc : c ↔ buf.length < off + n)
    (h : (readBytes stage buf off n >>= k) = o) (hfail : o = .error ⟨.truncatedInput, off, stage, 0⟩ → failed)
    (hpass : k ((buf.drop off).take n) = o → passed) : if c then failed else passed :=
  read_cases (fun h => readBytes_error _ (hc.mp h)) (fun h => readBytes_ok _ (not_lt.mp (hc.not.mp h))) h hfail
    fun _ => hpass

theorem readU8_cases {k : Nat → Except CmdError α} (hc : c ↔ buf.length < off + 1)
    (h : (readU8 stage buf off >>= k) = o) (hfail : o = .error ⟨.truncatedInput, off, stage, 0⟩ → failed)
    (hpass : k (byteAt buf off).toNat = o → passed) : if c then failed else passed :=
  read_cases (fun h => readU8_error _ (hc.mp h)) (fun h => readU8_ok _ (not_lt.mp (hc.not.mp h))) h hfail
    fun _ => hpass

theorem readBE16_cases {k : Nat → Except CmdError α} (hc : c ↔ buf.length < off + 2)
    (h : (readBE16 stage buf off >>= k) = o) (hfail : o = .error ⟨.truncatedInput, off, stage, 0⟩ → failed)
    (hpass : k ((byteAt buf off).toNat * 2 ^ 8 + (byteAt buf (off + 1)).toNat) = o → passed) :
    if c then failed else passed :=
  read_cases (fun h => readBE16_error _ (hc.mp h)) (fun h => readBE16_ok _ (not_lt.mp (hc.not.mp h))) h hfail
    fun _ => hpass

theorem readSBE32_cases {k : Int → Except CmdError α} (hc : c ↔ buf.length < off + 4)
    (h : (readSBE32 stage buf off >>= k) = o) (hfail : o = .error ⟨.truncatedInput, off, stage, 0⟩ → failed)
    (hpass : k (sext32 (be32At buf off)) = o → passed) : if c then failed else passed :=
  read_cases (fun h => readSBE32_error _ (hc.mp h)) (fun h => readSBE32_ok _ (not_lt.mp (hc.not.mp h))) h hfail
    fun _ => hpass

end

/-- The check of a fork length, in the form of 44_binhex.md R212. -/
theorem signCheck_cases {α : Type} {v : Nat} (hv : v < 2 ^ 32) {e : CmdError} {k : PUnit → Except CmdError α}
    {o : Except CmdError α} {failed passed : Prop} (h : (if sext32 v < 0 then (throw e >>= k) else k ⟨⟩) = o)
    (hfail : o = .error e → failed) (hpass : (sext32 v).toNat = v → k ⟨⟩ = o → passed) :
    if 2 ^ 31 ≤ v then failed else passed := by
  by_cases hneg : 2 ^ 31 ≤ v
  · rw [if_pos hneg]
    rw [if_pos (sext32_neg hneg hv)] at h
    exact hfail h.symm
  · have hval : sext32 v = (v : Int) := sext32_nonneg (by omega)
    rw [if_neg hneg]
    rw [if_neg (by rw [hval]; omega)] at h
    exact hpass (by rw [hval]; rfl) h

/-! ## The commands over a stream -/

/-- A text whose payload demodulates to tokens that fit XS is parsed from their expansion (44_binhex.md R205 to
R209). -/
theorem binhexDecode_stream {s : State} {pre gap payload suf : Bytes} {ts : List RleToken}
    (hlen : s.latchLen.toNat ≤ s.params.inMemSize) (htext : IsBinhexText s.input pre gap payload suf)
    (hvalid : TextValid s.params payload) (hdemod : demodulated (textValues s.params payload) = tokenBytes ts)
    (hts : TokensOk ts) (hfit : (expandTokens ts).length ≤ s.params.xsSize) :
    binhexDecode s = ({ s with s1 := Memory.ofBytes (tokenBytes ts), xs := Memory.ofBytes (expandTokens ts) },
      parseBinhex s.params (expandTokens ts)) :=
  binhexDecode_parse hlen (locatePayload_text htext) ((sixBit_valid hvalid _).trans (congrArg _ hdemod))
    (rle_tokens hts hfit)

/-- A text that carries a record is decoded to it, the stages' outputs left in S1 and XS. -/
theorem binhexDecode_record {s : State} {pre gap payload suf : Bytes} {ts : List RleToken} {f : BinhexFields}
    {junk : Bytes} (hlen : s.latchLen.toNat ≤ s.params.inMemSize)
    (h : CarriesRecord s pre gap payload suf ts f junk) :
    binhexDecode s = ({ s with s1 := Memory.ofBytes (tokenBytes ts), xs := Memory.ofBytes (expandTokens ts) },
      .ok f.record) := by
  obtain ⟨htext, hvalid, hdemod, hts, hexpand, hfit, hf⟩ := h
  have hparse : parseBinhex s.params (expandTokens ts) = .ok f.record := by
    rw [hexpand]
    exact parseBinhex_record hf junk
  rw [binhexDecode_stream hlen htext hvalid hdemod hts hfit, hparse]

/-- Settles O42: the parse's checks and reads in their order; the stages before the parse succeed. -/
theorem binhexRecordChecks : Obligations.BinhexRecordChecks := by
  refine ⟨fun p x n d r hn hd hr => ?checks, fun s lead gap payload suf ts e i hi hlen htext hvalid hdemod hts hfit
    hparse => ?commands⟩
  case commands =>
    have hdec := binhexDecode_stream hlen htext hvalid hdemod hts hfit
    rw [hparse] at hdec
    exact exec_binhexCommand_error hi hdec
  case checks =>
    have hd32 : d < 2 ^ 32 := hd ▸ be32At_lt x _
    have hr32 : r < 2 ^ 32 := hr ▸ be32At_lt x _
    generalize ho : parseBinhex p x = o
    dsimp only
    unfold parseBinhex at ho
    refine readU8_cases (by omega) ho id fun ho => ?_
    rw [← hn] at ho
    refine check_cases ho id fun _ ho => ?_
    refine readBytes_cases (by omega) ho id fun ho => ?_
    refine readU8_cases (by omega) ho id fun ho => ?_
    have hz : (byteAt x (1 + n)).toNat ≠ 0 ↔ byteAt x (1 + n) ≠ 0 := by
      rw [Ne, Ne, ← BitVec.toNat_inj]
      rfl
    simp only [hz] at ho
    refine check_cases ho id fun _ ho => ?_
    refine readBytes_cases (by omega) ho id fun ho => ?_
    refine readBytes_cases (by omega) ho id fun ho => ?_
    refine readBE16_cases (by omega) ho id fun ho => ?_
    refine readSBE32_cases (by omega) ho id fun ho => ?_
    rw [← hd] at ho
    refine signCheck_cases hd32 ho id fun hdlen ho => ?_
    refine readSBE32_cases (by omega) ho id fun ho => ?_
    rw [← hr] at ho
    refine signCheck_cases hr32 ho id fun hrlen ho => ?_
    rw [hdlen, hrlen] at ho
    refine readBE16_cases (by omega) ho id fun ho => ?_
    refine readBytes_cases (by omega) ho id fun ho => ?_
    refine readBE16_cases (by omega) ho id fun ho => ?_
    refine readBytes_cases (by omega) ho id fun ho => ?_
    refine readBE16_cases (by omega) ho id fun ho => ?_
    exact ⟨_, ho.symm⟩

/-- Settles O41: the record that the text carries, committed. -/
theorem binhexDecodesRecord : Obligations.BinhexDecodesRecord := by
  intro s pre gap payload suf ts f junk hlen hcarries
  rw [exec_binhex_of (binhexDecode_record hlen hcarries), ← BinhexFields.record_regs]
  exact congrArg _ (complete_record f.record _)

/-- Settles O43: the record that the text carries, and the DiskCopy stage over its data fork. -/
theorem binhexDskDecodesImage : Obligations.BinhexDskDecodesImage := by
  intro s pre gap payload suf ts f junk hlen hcarries
  rw [exec_binhexDsk_of (binhexDecode_record hlen hcarries), ← BinhexFields.record_regs]
  exact ⟨fun himg => congrArg _ (complete_recordImage (r := f.record) himg _),
    fun code pos herr => congrArg _ (complete_recordNoImage (r := f.record) herr _)⟩

end Sys2Proof.Machine
end

section
/-! The outcome of a command depends on its input alone (40_command_cycle.md R162). -/

namespace Sys2Proof.Machine

open Sys2Proof

/-- Two states give a command the same input: the parameters, the latched length and the latched bytes. -/
structure State.SameInput (s s' : State) : Prop where
  params : s.params = s'.params
  latchLen : s.latchLen = s'.latchLen
  input : s.input = s'.input

/-- The input is the bytes that IN_MEM reads as below the latched length (10_state.md R34). -/
theorem input_eq_of_inByte {s s' : State} (hlen : s.latchLen = s'.latchLen)
    (hin : ∀ k < s.latchLen.toNat, s.inByte k = s'.inByte k) : s.input = s'.input := by
  apply List.ext_getElem?
  intro k
  rw [State.input, State.input, getElem?_window, getElem?_window, ← hlen]
  split_ifs with hk
  · rw [Nat.zero_add]
    exact congrArg some (hin k hk)
  · rfl

section
variable {s s' : State} (h : s.SameInput s')
include h

theorem State.SameInput.checkLength : s.checkLength = s'.checkLength := by
  rw [State.checkLength, State.checkLength, h.params, h.latchLen]

theorem State.SameInput.sixbitOutcome : sixbitOutcome s = sixbitOutcome s' := by
  rw [Machine.sixbitOutcome, Machine.sixbitOutcome, h.checkLength, h.params, h.input]

theorem State.SameInput.rleOutcome : rleOutcome s = rleOutcome s' := by
  rw [Machine.rleOutcome, Machine.rleOutcome, h.checkLength, h.params, h.input]

theorem State.SameInput.dskOutcome : dskOutcome s = dskOutcome s' := by
  rw [Machine.dskOutcome, Machine.dskOutcome, h.checkLength, h.input]

theorem State.SameInput.macbinDecode : macbinDecode s = macbinDecode s' := by
  rw [Machine.macbinDecode, Machine.macbinDecode, h.checkLength, h.params, h.input]

/-- S1 and XS are written before they are read (44_binhex.md R207, R208). -/
theorem State.SameInput.binhexDecode : (binhexDecode s).2 = (binhexDecode s').2 := by
  rw [binhexDecode_outcome, binhexDecode_outcome, h.checkLength, h.params, h.input]

/-- The same command ends with the same outcome over the same input. -/
theorem exec_decodeOp_sameInput (op : BitVec 4) :
    ∃ o u u', CommandEnd s o u ∧ CommandEnd s' o u' ∧ exec (decodeOp op) s = .next (complete o u) ∧
      exec (decodeOp op) s' = .next (complete o u') := by
  have both {i : Instr} {o o' : Except CmdError CmdResult} {u u' : State} (ho : o = o') (hend : CommandEnd s o u)
      (hend' : CommandEnd s' o' u') (hx : exec i s = .next (complete o u))
      (hx' : exec i s' = .next (complete o' u')) :
      ∃ o u u', CommandEnd s o u ∧ CommandEnd s' o u' ∧ exec i s = .next (complete o u) ∧
        exec i s' = .next (complete o u') := by
    subst ho
    exact ⟨o, u, u', hend, hend', hx, hx'⟩
  by_cases hop : 1 ≤ op.toNat ∧ op.toNat ≤ 7
  · rcases commandOp_cases hop.1 hop.2 with rfl | rfl | rfl | rfl | rfl | rfl | rfl
    · exact both h.sixbitOutcome .sixbit .sixbit rfl rfl
    · exact both h.rleOutcome .rle .rle rfl rfl
    · exact both (congrArg (·.map .record) h.binhexDecode) .binhex .binhex rfl rfl
    · exact both (congrArg (·.map .record) h.macbinDecode) .macbin .macbin rfl rfl
    · exact both h.dskOutcome .dsk .dsk rfl rfl
    · exact both (congrArg thenDiskCopy h.binhexDecode) .binhexDsk .binhexDsk rfl rfl
    · exact both (congrArg thenDiskCopy h.macbinDecode) .macbinDsk .macbinDsk rfl rfl
  · exact ⟨_, _, _, .reserved op, .reserved op, exec_decodeOp_reserved hop s, exec_decodeOp_reserved hop s'⟩

end

/-- Completions with one outcome, over equal error and result registers, leave equal ones and equal output. -/
theorem complete_congr {o : Except CmdError CmdResult} {u u' : State} (hres : u.res = u'.res)
    (herr : u.err = u'.err) :
    (complete o u).err = (complete o u').err ∧ (complete o u).res = (complete o u').res ∧
      (complete o u).outMem = (complete o u').outMem := by
  cases o with
  | ok r => exact ⟨herr, congrArg r.writeRegs hres, rfl⟩
  | error e => exact ⟨rfl, hres, rfl⟩

/-- Settles O60: the outcomes agree, and both engines begin with cleared registers. -/
theorem outcomeDependsOnInputAlone : Obligations.OutcomeDependsOnInputAlone := by
  intro s s' t t' op hparams hlen hin hp hp' hclear hclear' ht ht'
  obtain ⟨o, u, u', hend, hend', hu, hu'⟩ :=
    exec_decodeOp_sameInput ⟨hparams, hlen, input_eq_of_inByte hlen hin⟩ op
  obtain rfl := Host.Outcome.next.inj (hu.symm.trans ht)
  obtain rfl := Host.Outcome.next.inj (hu'.symm.trans ht')
  obtain ⟨hres, herr, -⟩ := hclear hp
  obtain ⟨hres', herr', -⟩ := hclear' hp'
  apply complete_congr
  · rw [hend.frame, hend'.frame]
    exact hres.trans hres'.symm
  · rw [hend.frame, hend'.frame]
    exact herr.trans herr'.symm

end Sys2Proof.Machine
end
